-- ==== Sys2Proof/Word.lean ====
section
/-! DEFINITION. The word types of the block and the names of its two buffers. -/

namespace Sys2Proof

/-- A symbol, "one byte value, range 0–255" (00_scope.md R6). -/
abbrev Byte := BitVec 8

/-- A host register, a command word or a word of REC: 32 bits (10_state.md R31, R50). -/
abbrev Word := BitVec 32

/-- The two buffers BUF0 and BUF1 (10_state.md R49), as the fields S and D name them
(30_encoding.md R100). -/
inductive BufId where
  | buf0
  | buf1
  deriving DecidableEq, Repr

end Sys2Proof
end

