-- ==== Sys2Proof/Syntax.lean ====
section
/-! DEFINITION. The commands: one constructor per row of the opcode table (30_encoding.md R105). -/

namespace Sys2Proof

/-- The six commands. S and D are the only operand fields of a command word (30_encoding.md R104);
ARC_UNFRAME writes no buffer and has no D operand (R103). -/
inductive Instr where
  /-- OP 0x1 HUFF_ENC, 41_huffman.md R173. -/
  | huffEnc (src dst : BufId)
  /-- OP 0x2 HUFF_DEC, 41_huffman.md R183. -/
  | huffDec (src dst : BufId)
  /-- OP 0x3 LZW_ENC, 42_lzw.md R234. -/
  | lzwEnc (src dst : BufId)
  /-- OP 0x4 LZW_DEC, 42_lzw.md R239. -/
  | lzwDec (src dst : BufId)
  /-- OP 0x5 ARC_FRAME, 43_archive.md R271. -/
  | arcFrame (src dst : BufId)
  /-- OP 0x6 ARC_UNFRAME, 43_archive.md R277. -/
  | arcUnframe (src : BufId)
  deriving DecidableEq, Repr

end Sys2Proof
end

