-- ==== Sys2Proof/Decode.lean ====
section
/-! DEFINITION. The decoder of a command word and, after it, the encoder, both from 30_encoding.md
R100 to R106. -/

namespace Sys2Proof

/-- Why a word is no command, by name (30_encoding.md R106 (a), (b), (d)). -/
inductive DecodeError where
  /-- Bits 31:6 are not all 0 (R106 (a)). -/
  | reservedBits
  /-- OP is 0x0 or 0x7 to 0xF (R106 (b)). -/
  | undefinedOpcode
  /-- OP is 0x6 and D is not 0 (R106 (d)). -/
  | destinationBit
  deriving DecidableEq, Repr

/-- The buffer a bit of S or D names: 0 = BUF0, 1 = BUF1 (30_encoding.md R100). -/
def bufOfBit (b : Bool) : BufId := if b then .buf1 else .buf0

/-- Field OP, word[3:0] (30_encoding.md R101). -/
def opField (v : Word) : BitVec 4 := v.extractLsb' 0 4

/-- Field S, word[4] (30_encoding.md R102). -/
def srcField (v : Word) : BufId := bufOfBit (v.getLsbD 4)

/-- Field D, word[5] (30_encoding.md R103). -/
def dstField (v : Word) : BufId := bufOfBit (v.getLsbD 5)

/-- The reserved field, word[31:6] (30_encoding.md R104). -/
def reservedField (v : Word) : BitVec 26 := v.extractLsb' 6 26

/-- The opcode map of 30_encoding.md R105. A word with S = D of OP 0x1 to 0x5 decodes; that it is illegal
(R106 (c)) is `Instr.wellFormed`'s to say (log 15). -/
def decode (v : Word) : Except DecodeError Instr :=
  if reservedField v ≠ 0 then .error .reservedBits
  else
    match (opField v).toNat with
    | 1 => .ok (.huffEnc (srcField v) (dstField v))
    | 2 => .ok (.huffDec (srcField v) (dstField v))
    | 3 => .ok (.lzwEnc (srcField v) (dstField v))
    | 4 => .ok (.lzwDec (srcField v) (dstField v))
    | 5 => .ok (.arcFrame (srcField v) (dstField v))
    | 6 => if v.getLsbD 5 then .error .destinationBit else .ok (.arcUnframe (srcField v))
    | _ => .error .undefinedOpcode

/-- The bit that names a buffer in S or D (30_encoding.md R100). -/
def bitOfBuf : BufId → BitVec 1
  | .buf0 => 0
  | .buf1 => 1

/-- The layout of a command word, most significant field first (30_encoding.md R100): bits 31:6 zero, D, S, OP. -/
def layOut (op : BitVec 4) (src dst : BitVec 1) : Word := 0#26 ++ dst ++ src ++ op

/-- The word of a command (30_encoding.md R105). -/
def encode : Instr → Word
  | .huffEnc src dst => layOut 1 (bitOfBuf src) (bitOfBuf dst)
  | .huffDec src dst => layOut 2 (bitOfBuf src) (bitOfBuf dst)
  | .lzwEnc src dst => layOut 3 (bitOfBuf src) (bitOfBuf dst)
  | .lzwDec src dst => layOut 4 (bitOfBuf src) (bitOfBuf dst)
  | .arcFrame src dst => layOut 5 (bitOfBuf src) (bitOfBuf dst)
  | .arcUnframe src => layOut 6 (bitOfBuf src) 0

/-- The command the decoder reads from the low `nbits` bits of `w`; every higher bit of the one 32-bit word
is 0 (30_encoding.md R100: a command is always exactly one 32-bit word). -/
def decodeTableWord (nbits w : Nat) : Option Instr :=
  (decode (BitVec.ofNat 32 (w % 2 ^ nbits))).toOption

end Sys2Proof
end

