-- ==== Sys2Proof/Config.lean ====
section
/-! DEFINITION. What an implementation fixes (the parameters of 00_scope.md R7), the constants the
source fixes (R6, R7), and the free values of what the spec calls unspecified. -/

namespace Sys2Proof

/-- The parameters of the block, 00_scope.md R7: "each a value the model takes as an argument".
DESIGN CHOICE (log 1, safe): a state carries them in one field that no step changes. -/
structure Params where
  /-- LZW codeword width in bits. -/
  W : Nat
  /-- Bytes in each of BUF0 and BUF1. -/
  bufCap : Nat
  /-- Entries in the record descriptor table. -/
  recCap : Nat
  /-- The archive parser checks that separator bytes equal 0xFF. -/
  sepCheck : Bool
  deriving DecidableEq, Repr

/-- The reference values of 00_scope.md R7. -/
def Params.reference : Params := { W := 12, bufCap := 65536, recCap := 256, sepCheck := false }

/-- The legal ranges of 00_scope.md R7. -/
abbrev Params.Legal (p : Params) : Prop :=
  9 ≤ p.W ∧ p.W ≤ 16 ∧ 1 ≤ p.bufCap ∧ p.bufCap ≤ 2 ^ 28 ∧ 1 ≤ p.recCap ∧ p.recCap ≤ 4096

/-- The LZW dictionary capacity L = 2^W (00_scope.md R7). -/
def Params.L (p : Params) : Nat := 2 ^ p.W

/-- The alphabet size R, which is also the end-of-stream codeword (00_scope.md R6). -/
abbrev Config.R : Nat := 256

/-- The trie node store's entries, NODE_CAP = 2R − 1 (00_scope.md R7). -/
abbrev Config.nodeCap : Nat := 511

/-- FREE VALUE (log 4, safe): the byte that draw `d` gives for byte `a` of a buffer, where the spec says
"unspecified" (70_reset_and_hazards.md R352, 60_exceptions.md R313, 20_memory.md R75). -/
opaque Config.freeByte (d a : Nat) : Byte

/-- FREE VALUE (log 4, safe): the word that draw `d` gives for word `a` of REC, under the same rules. -/
opaque Config.freeWord (d a : Nat) : Word

end Sys2Proof
end

