-- ==== Sys2Proof/Machine/State.lean ====
section
/-! DEFINITION. The state of the block as plain data (10_state.md R30), the reasons a step could stop,
and the state after reset (70_reset_and_hazards.md R350). -/

namespace Sys2Proof.Machine

/-- The engine phase (10_state.md R46), read as STATUS.BUSY (R33). -/
inductive Phase where
  | idle
  | busy
  deriving DecidableEq, Repr

/-- The cause codes of STATUS.CAUSE, in the order of their numbers 0 to 9 (60_exceptions.md R311); 10 to 15
are never reported, so they have no constructor. -/
inductive Cause where
  | none
  | illegalCmd
  | eos
  | badLength
  | trieOverflow
  | badCodeword
  | outOverflow
  | badSeparator
  | recOverflow
  | badRecord
  deriving DecidableEq, Repr

/-- One byte buffer (10_state.md R49). `cells` lists the bytes that hold a defined value, by their offset in
the buffer; an offset it does not list is unspecified (70_reset_and_hazards.md R352, 60_exceptions.md R313)
and holds the free byte of draw `fill` (log 4, log 5). -/
structure Memory where
  cells : List Host.Cell
  fill : Nat
  deriving DecidableEq, Repr

/-- The record descriptor table (10_state.md R50), as its 32-bit words: word j of descriptor i is listed at
4i + j. REC is accessed only as whole words (20_memory.md R72, R77), so the word is its smallest unit (log 5).
A word not listed is unspecified, as for `Memory`. -/
structure RecTable where
  words : List (Nat × Word)
  fill : Nat
  deriving DecidableEq, Repr

/-- The canonical form of a buffer: addresses strictly rising (so no address twice). No entry can equal what
an unlisted address holds, since that is no recorded value (log 5). -/
abbrev Memory.wf (m : Memory) : Prop := m.cells.Pairwise (fun p q => p.1 < q.1)

/-- The canonical form of the record table, as for `Memory`. -/
abbrev RecTable.wf (t : RecTable) : Prop := t.words.Pairwise (fun p q => p.1 < q.1)

/-- The transaction sizes of 20_memory.md R72, "size ∈ {1, 2, 4} bytes". -/
inductive Size where
  | one
  | two
  | four
  deriving DecidableEq, Repr

/-- What the host does in one move: a bus transaction (20_memory.md R72), or one of the pseudo-instructions
with control flow (30_encoding.md R113, R114). `wait polls` is WAIT that reads STATUS at most `polls` more
times before the engine moves: "Its iteration count is finite but not fixed" (log 9). -/
inductive HostOp where
  | read (addr : Word) (size : Size)
  | write (addr : Word) (size : Size) (data : Word)
  | wait (polls : Nat)
  | check
  deriving DecidableEq, Repr

/-- Whose move is next in the one total order of events (20_memory.md R83): the host's, the engine's, or an
assertion of the reset input (70_reset_and_hazards.md R350). -/
inductive Turn where
  | host (op : HostOp)
  | engine
  | reset
  deriving DecidableEq, Repr

/-- What a host transaction returns (20_memory.md R72). -/
inductive Reply where
  /-- A legal write. -/
  | ok
  /-- A transaction R72 does not allow: it "changes no state, and a BUSERR read returns no data". -/
  | busErr
  /-- A legal read of a buffer. -/
  | byte (b : Byte)
  /-- A legal read of a register or of REC. -/
  | word (w : Word)
  deriving DecidableEq, Repr

/-- The state of the block (10_state.md R30). The engine-internal stores exist only while a command runs and
are local values of its execution (R56, log 2). The last four fields are the model's own. -/
structure State where
  /-- The engine phase, STATUS.BUSY (10_state.md R33, R46). -/
  phase : Phase
  /-- CMD, and while BUSY the latched command word (R32, R46). -/
  cmd : Word
  /-- STATUS.DONE (R34). -/
  done : Bool
  /-- STATUS.FAULT (R35). -/
  fault : Bool
  /-- STATUS.CAUSE (R36). -/
  cause : Cause
  /-- FAULT_POS (R38). -/
  faultPos : Word
  /-- IRQ_EN.IE (R39). -/
  ie : Bool
  /-- LEN0 (R40). -/
  len0 : Word
  /-- LEN1 (R40). -/
  len1 : Word
  /-- REC_COUNT (R41). -/
  recCount : Word
  /-- BUF0 (R49). -/
  buf0 : Memory
  /-- BUF1 (R49). -/
  buf1 : Memory
  /-- REC (R50). -/
  recs : RecTable
  /-- The parameters of 00_scope.md R7; CAP_BUF, CAP_REC and CFG read them (10_state.md R42 to R44). No step
  changes them (log 1). -/
  cfg : Params
  /-- The number of the next free draw (log 4). -/
  draws : Nat
  /-- The moves still to come; when none is listed the engine moves (log 3). -/
  turns : List Turn
  /-- What the last host transaction returned (log 8). -/
  reply : Option Reply
  deriving DecidableEq, Repr

/-- Why a step could stop the machine: nothing does (log 13). A malformed stream, an illegal word and a bad
bus transaction all have an outcome in the spec (60_exceptions.md R313, 20_memory.md R72), so this type has no
constructor. Safe: the model stops nowhere the hardware goes on. -/
inductive Fault
  deriving DecidableEq, Repr

/-- Why a step could be refused. -/
inductive Refusal where
  /-- The instruction has no meaning yet. Raised by `exec`'s refused arms, of which there is none. Safe. -/
  | notModelled (mnemonic : String)
  deriving DecidableEq, Repr

/-- The machine right after reset (70_reset_and_hazards.md R350), in the reference configuration
(00_scope.md R7; log 1): every register 0, the engine IDLE, buffers and REC unspecified (R352: three different
draws, log 4), and no host transaction pending (R354; log 6). -/
def State.reset : State where
  phase := .idle
  cmd := 0
  done := false
  fault := false
  cause := .none
  faultPos := 0
  ie := false
  len0 := 0
  len1 := 0
  recCount := 0
  buf0 := { cells := [], fill := 0 }
  buf1 := { cells := [], fill := 1 }
  recs := { words := [], fill := 2 }
  cfg := Params.reference
  draws := 3
  turns := []
  reply := none

end Sys2Proof.Machine
end

