-- ==== Sys2Proof/Machine/Ops.lean ====
section
/-! DEFINITION. The named operations over the memories and the registers: access to BUF0, BUF1, LEN and REC,
normal completion (30_encoding.md R110), fault entry (60_exceptions.md R313) with its acknowledgement (R325),
and reset (70_reset_and_hazards.md R350). -/

namespace Sys2Proof.Machine

/-! ### Sparse lists in canonical form (log 5) -/

/-- The value listed at `a`, if one is. -/
def findCell {α : Type} (a : Nat) : List (Nat × α) → Option α
  | [] => none
  | (b, v) :: rest => if b = a then some v else findCell a rest

/-- List `v` at `a`, in its place in the rising order, replacing what was listed there. -/
def putCell {α : Type} (a : Nat) (v : α) : List (Nat × α) → List (Nat × α)
  | [] => [(a, v)]
  | (b, u) :: rest =>
    if a < b then (a, v) :: (b, u) :: rest
    else if a = b then (a, v) :: rest
    else (b, u) :: putCell a v rest

/-! ### Buffers (20_memory.md R73) -/

/-- `BUF[k][a]`: the byte recorded at `a`, or the free byte of the draw that fills the buffer (log 4). -/
def Memory.read (m : Memory) (a : Nat) : Byte :=
  (findCell a m.cells).getD (Config.freeByte m.fill a)

/-- Store one byte (20_memory.md R73). -/
def Memory.write (m : Memory) (a : Nat) (v : Byte) : Memory :=
  { m with cells := putCell a v m.cells }

/-- Store the bytes of a list at `a`, `a + 1`, … in order: the engine's "engine accesses are always single
bytes" (20_memory.md R73). -/
def Memory.writeAll (m : Memory) (a : Nat) : List Byte → Memory
  | [] => m
  | v :: rest => (m.write a v).writeAll (a + 1) rest

/-! ### The record table (20_memory.md R74) -/

/-- Word `a` = 4i + j of REC. -/
def RecTable.readWord (t : RecTable) (a : Nat) : Word :=
  (findCell a t.words).getD (Config.freeWord t.fill a)

/-- Store word `a` = 4i + j of REC. -/
def RecTable.writeWord (t : RecTable) (a : Nat) (v : Word) : RecTable :=
  { t with words := putCell a v t.words }

/-- One record descriptor (10_state.md R50), "all unsigned byte counts or byte offsets into a buffer". -/
structure Descriptor where
  nameOff : Nat
  nameLen : Nat
  contentOff : Nat
  contentLen : Nat
  deriving DecidableEq, Repr

/-- `MemRead(REC, i, 16)` (20_memory.md R74): words 0 to 3 of descriptor i. -/
def RecTable.readDesc (t : RecTable) (i : Nat) : Descriptor where
  nameOff := (t.readWord (4 * i)).toNat
  nameLen := (t.readWord (4 * i + 1)).toNat
  contentOff := (t.readWord (4 * i + 2)).toNat
  contentLen := (t.readWord (4 * i + 3)).toNat

/-- `MemWrite(REC, i, 16, d)` (20_memory.md R74). "all four values fit 32 bits" (43_archive.md R283). -/
def RecTable.writeDesc (t : RecTable) (i : Nat) (d : Descriptor) : RecTable :=
  (((t.writeWord (4 * i) (BitVec.ofNat 32 d.nameOff)).writeWord
    (4 * i + 1) (BitVec.ofNat 32 d.nameLen)).writeWord
    (4 * i + 2) (BitVec.ofNat 32 d.contentOff)).writeWord
    (4 * i + 3) (BitVec.ofNat 32 d.contentLen)

/-- Write the descriptors of a list at entries `i`, `i + 1`, … in order (43_archive.md R283). -/
def RecTable.writeDescs (t : RecTable) (i : Nat) : List Descriptor → RecTable
  | [] => t
  | d :: rest => (t.writeDesc i d).writeDescs (i + 1) rest

/-! ### Access to the state by buffer name -/

/-- BUFk. -/
def State.mem (s : State) : BufId → Memory
  | .buf0 => s.buf0
  | .buf1 => s.buf1

/-- Replace BUFk. -/
def State.setMem (s : State) (k : BufId) (m : Memory) : State :=
  { s with
    buf0 := if k = .buf0 then m else s.buf0
    buf1 := if k = .buf1 then m else s.buf1 }

/-- LEN[k] (10_state.md R40). -/
def State.len (s : State) : BufId → Word
  | .buf0 => s.len0
  | .buf1 => s.len1

/-- `LEN[k] <- v`. -/
def State.setLen (s : State) (k : BufId) (v : Word) : State :=
  { s with
    len0 := if k = .buf0 then v else s.len0
    len1 := if k = .buf1 then v else s.len1 }

/-- `BUF[k][a]`, the model's read of one byte. -/
def State.byteAt (s : State) (k : BufId) (a : Nat) : Byte := (s.mem k).read a

/-- Take the next free draw: its number, and the state in which it is used up (log 4). -/
def State.nextDraw (s : State) : State := { s with draws := s.draws + 1 }

/-! ### Completion (30_encoding.md R110) -/

/-- The common end of a command that did not fault: `STATUS.DONE <- 1`, phase IDLE. -/
def State.finish (s : State) : State := { s with done := true, phase := .idle }

/-- Normal completion of OP 0x1 to 0x5 with output `out`: `BUF[dst][0 .. wcount)` holds it, the other bytes are
unchanged, `LEN[dst] <- wcount` (30_encoding.md R110; log 10). -/
def State.completeBuffer (s : State) (dst : BufId) (out : List Byte) : State :=
  ((s.setMem dst ((s.mem dst).writeAll 0 out)).setLen dst (BitVec.ofNat 32 out.length)).finish

/-- Normal completion of OP 0x6 with the descriptors `ds`: REC[0 .. k) holds them, REC_COUNT <- k, no buffer and
no LEN changes (30_encoding.md R110, 43_archive.md R283). -/
def State.completeRecords (s : State) (ds : List Descriptor) : State :=
  { s with recs := s.recs.writeDescs 0 ds, recCount := BitVec.ofNat 32 ds.length }.finish

/-! ### Taking a fault (60_exceptions.md R312 to R315) -/

/-- What `raise Fault(CAUSE)` reports: the cause and the position R314 gives it. -/
structure CmdFault where
  cause : Cause
  pos : Nat
  deriving DecidableEq, Repr

/-- What a command writes besides STATUS, and a fault of it therefore invalidates (60_exceptions.md R313). -/
inductive Output where
  /-- OP 0x1 to 0x5. -/
  | buffer (dst : BufId)
  /-- OP 0x6. -/
  | records
  deriving DecidableEq, Repr

/-- The STATUS part of fault entry (60_exceptions.md R313), all of it for ILLEGAL_CMD: FAULT, CAUSE and
FAULT_POS written, DONE cleared, phase IDLE. A position fits 32 bits for legal parameters (10_state.md R38). -/
def State.recordFault (s : State) (f : CmdFault) : State :=
  { s with
    fault := true
    cause := f.cause
    faultPos := BitVec.ofNat 32 f.pos
    done := false
    phase := .idle }

/-- The output of a faulting command becomes invalid (60_exceptions.md R313): `LEN[dst] <- 0` and every byte of
BUF[dst] unspecified, or `REC_COUNT <- 0` and every word of REC unspecified. The unspecified contents are a new
draw: nothing is listed any more (log 4). -/
def State.invalidate (s : State) : Output → State
  | .buffer dst => ((s.setMem dst { cells := [], fill := s.draws }).setLen dst 0).nextDraw
  | .records => { s with recs := { words := [], fill := s.draws }, recCount := 0 }.nextDraw

/-- Fault entry of a running command (60_exceptions.md R313). -/
def State.takeFault (s : State) (o : Output) (f : CmdFault) : State :=
  (s.invalidate o).recordFault f

/-- Fault entry for ILLEGAL_CMD, "which changes only STATUS, FAULT_POS and CMD" (60_exceptions.md R315),
FAULT_POS 0 (R314). -/
def State.takeIllegal (s : State) : State := s.recordFault ⟨.illegalCmd, 0⟩

/-- Acknowledging a fault, by a W1C write of STATUS.FAULT or by the next issue (60_exceptions.md R325):
`FAULT <- 0; CAUSE <- 0; FAULT_POS <- 0` (10_state.md R35). There is no other return: "nothing is restored". -/
def State.clearFault (s : State) : State :=
  { s with fault := false, cause := .none, faultPos := 0 }

/-- Clearing STATUS.DONE (10_state.md R34). -/
def State.clearDone (s : State) : State := { s with done := false }

/-! ### Reset (70_reset_and_hazards.md R350 to R352) -/

/-- The reset input asserted in any state: every register at its reset value, phase IDLE, BUF0, BUF1 and REC
unspecified (three new draws). The parameters stay; so do the moves still to come and the last reply, which are
not the block's (log 8). -/
def State.applyReset (s : State) : State :=
  { State.reset with
    buf0 := { cells := [], fill := s.draws }
    buf1 := { cells := [], fill := s.draws + 1 }
    recs := { words := [], fill := s.draws + 2 }
    draws := s.draws + 3
    cfg := s.cfg
    turns := s.turns
    reply := s.reply }

end Sys2Proof.Machine
end

