-- ==== Sys2Proof/WellFormed.lean ====
section
/-! DEFINITION. The legality conditions of a command that its own fields decide (30_encoding.md R106 (c);
(d) holds by the shape of `Instr`). The conditions on registers, R106 (e) and (f), are `State.admits`. -/

namespace Sys2Proof

/-- "source and destination must be different buffers" (30_encoding.md R106 (c)). -/
def Instr.wellFormed : Instr → Bool
  | .huffEnc src dst => src ≠ dst
  | .huffDec src dst => src ≠ dst
  | .lzwEnc src dst => src ≠ dst
  | .lzwDec src dst => src ≠ dst
  | .arcFrame src dst => src ≠ dst
  | .arcUnframe _ => true

end Sys2Proof
end

