-- ==== Sys2Proof/Machine/Operands.lean ====
section
/-! DEFINITION. The operands of a command (30_encoding.md R111), the legality of a command word (R106), and the
signed reading of a stream field (00_scope.md R9). -/

namespace Sys2Proof.Machine

/-- `sint_N(v)`: "v if v < 2^(N−1), else v − 2^N" (00_scope.md R9). -/
def sint (n v : Nat) : Int := if v < 2 ^ (n - 1) then (v : Int) else (v : Int) - 2 ^ n

/-- The source buffer of a command (30_encoding.md R102). -/
def srcOf : Instr → BufId
  | .huffEnc src _ => src
  | .huffDec src _ => src
  | .lzwEnc src _ => src
  | .lzwDec src _ => src
  | .arcFrame src _ => src
  | .arcUnframe src => src

/-- What a command writes (30_encoding.md R103, R105). -/
def outputOf : Instr → Output
  | .huffEnc _ dst => .buffer dst
  | .huffDec _ dst => .buffer dst
  | .lzwEnc _ dst => .buffer dst
  | .lzwDec _ dst => .buffer dst
  | .arcFrame _ dst => .buffer dst
  | .arcUnframe _ => .records

/-- Whether REC_COUNT is an operand: "for ARC_FRAME only" (30_encoding.md R111). -/
def readsRecords : Instr → Bool
  | .huffEnc _ _ => false
  | .huffDec _ _ => false
  | .lzwEnc _ _ => false
  | .lzwDec _ _ => false
  | .arcFrame _ _ => true
  | .arcUnframe _ => false

/-- The block accepts the command in this state: none of 30_encoding.md R106 (c), (e), (f) holds ((a), (b) and
(d) are the decoder's). -/
def State.admits (s : State) (i : Instr) : Bool :=
  i.wellFormed && decide ((s.len (srcOf i)).toNat ≤ s.cfg.bufCap) &&
    (!readsRecords i || decide (s.recCount.toNat ≤ s.cfg.recCap))

/-- The word is a legal command in this state: the negation of 30_encoding.md R106. -/
def State.legalWord (s : State) (v : Word) : Bool :=
  match decode v with
  | .ok i => s.admits i
  | .error _ => false

/-- The source medium `BUF[src][0 .. n)` with n = LEN[src], in address order (40_bitstream.md R131, R144).
"Bytes at a ≥ n are never read." -/
def State.input (s : State) (src : BufId) : List Byte :=
  (List.range (s.len src).toNat).map (s.byteAt src)

/-- The descriptors REC[0 .. m), m = REC_COUNT, of ARC_FRAME (30_encoding.md R111). -/
def State.descriptors (s : State) : List Descriptor :=
  (List.range s.recCount.toNat).map s.recs.readDesc

end Sys2Proof.Machine
end

