-- ==== Sys2Proof/Machine/BitStream.lean ====
section
/-! DEFINITION. The bit-stream unit: the reader and the writer and their micro-operations
(40_bitstream.md R130 to R153). A micro-operation answers a new reader or writer, or the fault it raises. -/

namespace Sys2Proof.Machine

/-! ### The reader (R131 to R143) -/

/-- Reader state (40_bitstream.md R131): the medium `M`, of length n, and the bit cursor `pos`. -/
structure Reader where
  medium : List Byte
  pos : Nat
  deriving DecidableEq, Repr

/-- Reader open: `pos <- 0` (R132). -/
def Reader.opened (medium : List Byte) : Reader := { medium, pos := 0 }

/-- Stream bit k is `M[k div 8][7 − (k mod 8)]` (00_scope.md R10, R131). Asked only for k < 8n. -/
def Reader.bitAt (r : Reader) (k : Nat) : Bool := (r.medium.getD (k / 8) 0).getLsbD (7 - k % 8)

/-- `rd.bitsLeft()` = 8n − pos (R135). -/
def Reader.bitsLeft (r : Reader) : Nat := 8 * r.medium.length - r.pos

/-- `rd.isEmpty()`: `pos == 8*n` (R136). -/
def Reader.isEmpty (r : Reader) : Bool := r.pos = 8 * r.medium.length

/-- The loop of R137: the unsigned value of the `w` stream bits from `pos`, the first bit most significant. -/
def Reader.field (r : Reader) (pos : Nat) : Nat → Nat
  | 0 => 0
  | w + 1 => 2 * r.field pos w + (r.bitAt (pos + w)).toNat

/-- `rd.readBits(w)` (R137): EOS exactly when fewer than w bits remain, and "a failed read consumes nothing". -/
def Reader.readBits (r : Reader) (w : Nat) : Except CmdFault (Nat × Reader) :=
  if r.bitsLeft < w then .error ⟨.eos, r.pos⟩
  else .ok (r.field r.pos w, { r with pos := r.pos + w })

/-- `rd.readBit()` = `rd.readBits(1)`, "1 = true" (R138). -/
def Reader.readBit (r : Reader) : Except CmdFault (Bool × Reader) := do
  let (v, r) ← r.readBits 1
  return (v == 1, r)

/-- `rd.readChar()` = `rd.readBits(8)`, a byte (R139). -/
def Reader.readChar (r : Reader) : Except CmdFault (Byte × Reader) := do
  let (v, r) ← r.readBits 8
  return (BitVec.ofNat 8 v, r)

/-- `rd.readInt()` = `rd.readBits(32)`, unsigned (R140). -/
def Reader.readInt (r : Reader) : Except CmdFault (Nat × Reader) := r.readBits 32

/-- `rd.readLong()` = `rd.readBits(64)`, unsigned (R141). -/
def Reader.readLong (r : Reader) : Except CmdFault (Nat × Reader) := r.readBits 64

/-- The loop of R142: `repeat k times: s <- s ++ [rd.readChar()]`. -/
def Reader.readChars (r : Reader) : Nat → Except CmdFault (List Byte × Reader)
  | 0 => .ok ([], r)
  | k + 1 => do
    let (b, r) ← r.readChar
    let (bs, r) ← r.readChars k
    return (b :: bs, r)

/-- `rd.readBytes(k)` (R142): "a k that exceeds the remaining bytes faults before consuming anything". -/
def Reader.readBytes (r : Reader) (k : Nat) : Except CmdFault (List Byte × Reader) :=
  if r.bitsLeft < 8 * k then .error ⟨.eos, r.pos⟩ else r.readChars k

/-! ### The writer (R133, R134, R145 to R152) -/

/-- Writer state (40_bitstream.md R133): the partial byte `wbuf` of `wn` bits, and the count `wcount` of bytes
stored. `stored` is `BUF[dst][0 .. wcount)` with the last stored byte first; `cap` is BUF_CAP. -/
structure Writer where
  cap : Nat
  stored : List Byte
  wcount : Nat
  wbuf : Nat
  wn : Nat
  deriving DecidableEq, Repr

/-- Writer open: `wbuf <- 0; wn <- 0; wcount <- 0` (R134). -/
def Writer.opened (cap : Nat) : Writer := { cap, stored := [], wcount := 0, wbuf := 0, wn := 0 }

/-- The stored bytes `BUF[dst][0 .. wcount)` in address order (R133). -/
def Writer.bytes (w : Writer) : List Byte := w.stored.reverse

/-- `wr.storeByte(v)` (R146): OUT_OVERFLOW when `wcount == BUF_CAP`, position 0 (60_exceptions.md R314). -/
def Writer.storeByte (w : Writer) (v : Nat) : Except CmdFault Writer :=
  if w.wcount = w.cap then .error ⟨.outOverflow, 0⟩
  else .ok { w with stored := BitVec.ofNat 8 v :: w.stored, wcount := w.wcount + 1 }

/-- `wr.writeBit(b)` (R145). -/
def Writer.writeBit (w : Writer) (b : Bool) : Except CmdFault Writer :=
  if w.wn + 1 = 8 then do
    let w ← w.storeByte (2 * w.wbuf + b.toNat)
    return { w with wbuf := 0, wn := 0 }
  else .ok { w with wbuf := 2 * w.wbuf + b.toNat, wn := w.wn + 1 }

/-- `wr.writeBits(v, w)` (R147): `for i from w-1 down to 0: wr.writeBit(v[i])`. -/
def Writer.writeBits (w : Writer) (v : Nat) : Nat → Except CmdFault Writer
  | 0 => .ok w
  | n + 1 => do
    let w ← w.writeBit (v.testBit n)
    w.writeBits v n

/-- `wr.writeByte(v)` = `wr.writeChar(v)` = `wr.writeBits(v mod 256, 8)` (R148). -/
def Writer.writeByte (w : Writer) (v : Byte) : Except CmdFault Writer := w.writeBits v.toNat 8

/-- `wr.writeInt(v)` = `wr.writeBits(v mod 2^32, 32)` (R149). -/
def Writer.writeInt (w : Writer) (v : Nat) : Except CmdFault Writer := w.writeBits (v % 2 ^ 32) 32

/-- `wr.writeLong(v)` = `wr.writeBits(v mod 2^64, 64)` (R150). -/
def Writer.writeLong (w : Writer) (v : Nat) : Except CmdFault Writer := w.writeBits (v % 2 ^ 64) 64

/-- `wr.writeString(s)` (R151): "raw bytes, no length prefix". -/
def Writer.writeString (w : Writer) : List Byte → Except CmdFault Writer
  | [] => .ok w
  | b :: rest => do
    let w ← w.writeByte b
    w.writeString rest

/-- `wr.writeBit` of each bit of a code, in emission order (41_huffman.md R181). -/
def Writer.writeCode (w : Writer) : List Bool → Except CmdFault Writer
  | [] => .ok w
  | b :: rest => do
    let w ← w.writeBit b
    w.writeCode rest

/-- `wr.close()` (R152): a partial byte is padded with zero bits and stored. -/
def Writer.close (w : Writer) : Except CmdFault Writer :=
  if 0 < w.wn then do
    let w ← w.storeByte (w.wbuf * 2 ^ (8 - w.wn))
    return { w with wbuf := 0, wn := 0 }
  else .ok w

/-- The end of every command that writes (R152): close, and answer the bytes stored. -/
def Writer.finish (w : Writer) : Except CmdFault (List Byte) := do
  let w ← w.close
  return w.bytes

end Sys2Proof.Machine
end

