-- ==== Sys2Proof/Machine/Command.lean ====
section
/-! DEFINITION. The life of a command: issue (30_encoding.md R107, R108) and execution (R109), shared by the six
meanings. -/

namespace Sys2Proof.Machine

/-- The first half of issue (30_encoding.md R107): CMD <- v, and DONE, FAULT, CAUSE and FAULT_POS cleared. -/
def State.latch (s : State) (v : Word) : State :=
  { s with cmd := v, done := false }.clearFault

/-- Issue of the word v while IDLE (30_encoding.md R107): an illegal word faults ILLEGAL_CMD at once and the phase
stays IDLE, a legal one makes the phase BUSY. The reader and the writer are opened by the command's own execution
(40_bitstream.md R132, R134; log 2). -/
def State.issue (s : State) (v : Word) : State :=
  if (s.latch v).legalWord v then { s.latch v with phase := .busy } else (s.latch v).takeIllegal

/-- A host write of v to CMD (10_state.md R32): issue while IDLE, "no effect at all" while BUSY (30_encoding.md
R108). -/
def State.writeCmd (s : State) (v : Word) : State :=
  match s.phase with
  | .idle => s.issue v
  | .busy => s

/-- Execution of the command i (30_encoding.md R109), whose pseudocode gives `result`: normal completion by
`complete` (R110), or fault entry (60_exceptions.md R313). A command the block does not admit takes ILLEGAL_CMD:
issue has checked this before (60_exceptions.md R317), so no command run while BUSY is of that kind (log 7). -/
def State.runCommand {α : Type} (s : State) (i : Instr) (result : Except CmdFault α)
    (complete : State → α → State) : State :=
  if s.admits i then
    match result with
    | .ok out => complete s out
    | .error f => s.takeFault (outputOf i) f
  else s.takeIllegal

end Sys2Proof.Machine
end

