-- ==== Sys2Proof/Machine/Archive.lean ====
section
/-! DEFINITION. The archive unit: the meanings of ARC_FRAME (43_archive.md R271) and ARC_UNFRAME (R277). -/

namespace Sys2Proof.Machine

/-! ### ARC_FRAME (R271 to R276) -/

/-- "every descriptor i < m must satisfy name_off + name_len ≤ n and content_off + content_len ≤ n, computed
without wrap" (R272; log 18). -/
def Descriptor.inMedium (n : Nat) (d : Descriptor) : Bool :=
  d.nameOff + d.nameLen ≤ n && d.contentOff + d.contentLen ≤ n

/-- The index of the first descriptor outside the medium, `i` being the index of the list's head (R272). -/
def firstBad (n i : Nat) : List Descriptor → Option Nat
  | [] => none
  | d :: rest => if d.inMedium n then firstBad n (i + 1) rest else some i

/-- `BUF[src][off .. off + len)` as a slice of the source medium (R271, 40_bitstream.md R144). -/
def slice (medium : List Byte) (off len : Nat) : List Byte := (medium.drop off).take len

/-- One record (R273), with its three separators (R274) and its length fields (R275). -/
def writeRecord (medium : List Byte) (d : Descriptor) (w : Writer) : Except CmdFault Writer := do
  let w ← w.writeInt d.nameLen
  let w ← w.writeByte 0xFF
  let w ← w.writeString (slice medium d.nameOff d.nameLen)
  let w ← w.writeByte 0xFF
  let w ← w.writeLong d.contentLen
  let w ← w.writeByte 0xFF
  w.writeString (slice medium d.contentOff d.contentLen)

/-- The records "in the order given", descriptor 0 first (R273). -/
def writeRecords (medium : List Byte) : List Descriptor → Writer → Except CmdFault Writer
  | [], w => .ok w
  | d :: rest, w => do
    let w ← writeRecord medium d w
    writeRecords medium rest w

/-- The pseudocode of ARC_FRAME (R271): all descriptors are checked "before any byte is written" (R272). -/
def arcFrame (cap : Nat) (medium : List Byte) (ds : List Descriptor) : Except CmdFault (List Byte) :=
  match firstBad medium.length 0 ds with
  | some i => .error ⟨.badRecord, i⟩
  | none => do
    let w ← writeRecords medium ds (Writer.opened cap)
    w.finish

/-! ### ARC_UNFRAME (R277 to R284) -/

/-- `sep()` (R281): skipped whatever its value, or checked when SEP_CHECK. -/
def readSeparator (check : Bool) (r : Reader) : Except CmdFault Reader := do
  let (v, r) ← r.readChar
  if check && v ≠ 0xFF then .error ⟨.badSeparator, r.pos⟩ else return r

/-- A length field of `w` bits read signed: "a negative value faults BAD_LENGTH with FAULT_POS at the bit after
the field" (R280, R282). -/
def readLength (w : Nat) (r : Reader) : Except CmdFault (Nat × Reader) := do
  let (v, r) ← r.readBits w
  if sint w v < 0 then .error ⟨.badLength, r.pos⟩ else return ((sint w v).toNat, r)

/-- One record of the loop of R277: its descriptor, "the byte offsets and lengths of its name and content in the
source buffer" (R283). -/
def readRecord (check : Bool) (r : Reader) : Except CmdFault (Descriptor × Reader) := do
  let (nl, r) ← readLength 32 r
  let r ← readSeparator check r
  let no := r.pos / 8
  let (_, r) ← r.readBytes nl
  let r ← readSeparator check r
  let (cl, r) ← readLength 64 r
  let r ← readSeparator check r
  let co := r.pos / 8
  let (_, r) ← r.readBytes cl
  return (⟨no, nl, co, cl⟩, r)

/-- The loop of R277 with room for `room` = REC_CAP − k more records: the descriptors parsed. "parsing ends only
when the underlying bit stream is exhausted" (R278); REC_OVERFLOW as R279 says. -/
def readRecords (check : Bool) : Nat → Reader → Except CmdFault (List Descriptor)
  | room, r =>
    if r.isEmpty then .ok []
    else
      match room with
      | 0 => .error ⟨.recOverflow, r.pos⟩
      | room + 1 => do
        let (d, r) ← readRecord check r
        let ds ← readRecords check room r
        return d :: ds

/-- The pseudocode of ARC_UNFRAME (R277) on the source medium: the descriptors, or the fault. -/
def arcUnframe (p : Params) (medium : List Byte) : Except CmdFault (List Descriptor) :=
  readRecords p.sepCheck p.recCap (Reader.opened medium)

/-! ### The meanings -/

/-- ARC_FRAME (R271): "frame the records described by REC into the destination buffer". -/
def execArcFrame (src dst : BufId) (s : State) : Host.Outcome State Fault Refusal :=
  .next (s.runCommand (.arcFrame src dst) (arcFrame s.cfg.bufCap (s.input src) s.descriptors)
    (fun s out => s.completeBuffer dst out))

/-- ARC_UNFRAME (R277): "parse the archive in the source buffer into descriptors". -/
def execArcUnframe (src : BufId) (s : State) : Host.Outcome State Fault Refusal :=
  .next (s.runCommand (.arcUnframe src) (arcUnframe s.cfg (s.input src))
    (fun s ds => s.completeRecords ds))

end Sys2Proof.Machine
end

