-- ==== Sys2Proof/Machine/Huffman.lean ====
section
/-! DEFINITION. The Huffman unit: frequency counter, trie builder, codeword generator, trie serializer, trie
parser and trie lookup (41_huffman.md R170 to R190), and the meanings of HUFF_ENC (R173) and HUFF_DEC (R183). -/

namespace Sys2Proof.Machine

/-! ### The trie node store (R170, R171) -/

/-- A written node with all below it: "a leaf (owns one Symbol and no children) or an internal node (owns exactly
two children, left and right, and no symbol)" (00_scope.md glossary, 41_huffman.md R170). Nodes are written once,
so a node index stands for one such tree for the rest of the command (log 11). -/
inductive Trie where
  | leaf (sym : Byte)
  | node (left right : Trie)
  deriving DecidableEq, Repr

/-- The entries of the node store a trie takes. -/
def Trie.nodes : Trie → Nat
  | .leaf _ => 1
  | .node l r => 1 + l.nodes + r.nodes

/-! ### HUFF_ENC (R173 to R182) -/

/-- Frequency count (R174): `freq[s]` for s in [0, R), by symbol value. -/
def freqTable (input : List Byte) : List Nat :=
  input.foldl (fun freq b => freq.modify b.toNat (· + 1)) (List.replicate Config.R 0)

/-- A node in the priority structure of R176: its weight, its index (the creation order) and the node. -/
structure Pending where
  wt : Nat
  idx : Nat
  trie : Trie
  deriving DecidableEq, Repr

/-- The order of removal: "the least pair (wt[x], x)" (R176). -/
def Pending.before (x y : Pending) : Bool := x.wt < y.wt || (x.wt = y.wt && x.idx < y.idx)

/-- The leaves of the trie build (R176): symbols of non-zero frequency in ascending order, `s` being the symbol
of the table's head and `cnt` the next node index. -/
def seedLeaves (s cnt : Nat) : List Nat → List Pending
  | [] => []
  | f :: rest =>
    if 0 < f then ⟨f, cnt, .leaf (BitVec.ofNat 8 s)⟩ :: seedLeaves (s + 1) (cnt + 1) rest
    else seedLeaves (s + 1) cnt rest

/-- Remove from the priority structure the node that is least in `Pending.before` (R176): the node, and the
others in their order. -/
def removeLeast (x : Pending) : List Pending → Pending × List Pending
  | [] => (x, [])
  | y :: rest =>
    if y.before x then
      let (m, others) := removeLeast y rest
      (m, x :: others)
    else
      let (m, others) := removeLeast x rest
      (m, y :: others)

/-- One merge of R176 on a structure of at least two nodes: "first removed is the LEFT child". -/
def mergeOnce (cnt : Nat) (x y : Pending) (rest : List Pending) : Pending × List Pending :=
  let (a, others) := removeLeast x (y :: rest)
  match others with
  | [] => (a, [])
  | z :: others =>
    let (b, others) := removeLeast z others
    (⟨a.wt + b.wt, cnt, .node a.trie b.trie⟩, others)

/-- The merge loop of R176, `while |P| > 1`: each round leaves one node fewer, so `fuel` = |P| − 1 rounds end it.
`cnt` is the next node index. -/
def mergeAll : Nat → Nat → Pending → List Pending → Trie
  | fuel + 1, cnt, x, y :: rest =>
    let (m, others) := mergeOnce cnt x y rest
    mergeAll fuel (cnt + 1) m others
  | _, _, x, _ => x.trie

/-- Trie build (R176, R177): no trie exactly when no symbol occurs. -/
def buildTrie (freq : List Nat) : Option Trie :=
  match seedLeaves 0 0 freq with
  | [] => none
  | x :: rest => some (mergeAll rest.length (rest.length + 1) x rest)

/-- Codeword generator (R178): `gen(x, p)`, the code table as (symbol, code) entries. -/
def Trie.codes : Trie → List Bool → List (Byte × List Bool)
  | .leaf s, p => [(s, p)]
  | .node l r, p => l.codes (p ++ [false]) ++ r.codes (p ++ [true])

/-- `code[s]` (R172). A symbol that is no leaf has no code and is never asked for (its code would be empty). -/
def codeOf (table : List (Byte × List Bool)) (s : Byte) : List Bool := (table.lookup s).getD []

/-- Trie serialization (R179): 1 and the symbol for a leaf; 0, left, right for an internal node. -/
def Trie.serialize : Trie → Writer → Except CmdFault Writer
  | .leaf s, w => do
    let w ← w.writeBit true
    w.writeByte s
  | .node l r, w => do
    let w ← w.writeBit false
    let w ← l.serialize w
    r.serialize w

/-- Payload (R181): the code of each input symbol, in input order. -/
def writePayload (table : List (Byte × List Bool)) : List Byte → Writer → Except CmdFault Writer
  | [], w => .ok w
  | b :: rest, w => do
    let w ← w.writeCode (codeOf table b)
    writePayload table rest w

/-- The pseudocode of HUFF_ENC (R173) on the source medium: the output bytes, or the fault. With n = 0 there is
no trie and "HUFF_ENC writes nothing" (R175). -/
def huffEncode (cap : Nat) (input : List Byte) : Except CmdFault (List Byte) :=
  match buildTrie (freqTable input) with
  | none => (Writer.opened cap).finish
  | some t => do
    let w ← t.serialize (Writer.opened cap)
    let w ← w.writeInt input.length
    let w ← writePayload (t.codes []) input w
    w.finish

/-! ### HUFF_DEC (R183 to R189) -/

/-- Trie parse (R185): the trie, the nodes allocated, and the reader. Every level of the recursion allocates a
node first, so `fuel` = NODE_CAP + 1 levels are never used up: TRIE_OVERFLOW comes before (log 16). -/
def parseTrie : Nat → Nat → Reader → Except CmdFault (Trie × Nat × Reader)
  | 0, _, r => .error ⟨.trieOverflow, r.pos⟩
  | fuel + 1, cnt, r => do
    let (t, r) ← r.readBit
    if cnt = Config.nodeCap then .error ⟨.trieOverflow, r.pos⟩
    else if t then do
      let (s, r) ← r.readChar
      return (.leaf s, cnt + 1, r)
    else do
      let (left, cnt, r) ← parseTrie fuel (cnt + 1) r
      let (right, cnt, r) ← parseTrie fuel cnt r
      return (.node left right, cnt, r)

/-- The trie lookup loop of R187, with `child(x, b)` of R171: "descending right on 1 and left on 0, until a leaf
is reached". -/
def Trie.descend : Trie → Reader → Except CmdFault (Byte × Reader)
  | .leaf s, r => .ok (s, r)
  | .node left right, r => do
    let (b, r) ← r.readBit
    if b then right.descend r else left.descend r

/-- `repeat len times: decode one symbol` (R183, R187). What remains unread is ignored (R188). -/
def decodeSymbols (t : Trie) : Nat → Reader → Writer → Except CmdFault Writer
  | 0, _, w => .ok w
  | len + 1, r, w => do
    let (s, r) ← t.descend r
    let w ← w.writeByte s
    decodeSymbols t len r w

/-- The pseudocode of HUFF_DEC (R183) on the source medium: the output bytes, or the fault. -/
def huffDecode (cap : Nat) (medium : List Byte) : Except CmdFault (List Byte) :=
  let rd := Reader.opened medium
  let wr := Writer.opened cap
  if rd.isEmpty then wr.finish
  else do
    let (t, _, rd) ← parseTrie (Config.nodeCap + 1) 0 rd
    let (v, rd) ← rd.readInt
    if sint 32 v < 0 then .error ⟨.badLength, rd.pos⟩
    else do
      let wr ← decodeSymbols t (sint 32 v).toNat rd wr
      wr.finish

/-! ### The meanings -/

/-- HUFF_ENC (R173): "static Huffman encode of the source buffer". -/
def execHuffEnc (src dst : BufId) (s : State) : Host.Outcome State Fault Refusal :=
  .next (s.runCommand (.huffEnc src dst) (huffEncode s.cfg.bufCap (s.input src))
    (fun s out => s.completeBuffer dst out))

/-- HUFF_DEC (R183): "static Huffman decode of the source buffer". -/
def execHuffDec (src dst : BufId) (s : State) : Host.Outcome State Fault Refusal :=
  .next (s.runCommand (.huffDec src dst) (huffDecode s.cfg.bufCap (s.input src))
    (fun s out => s.completeBuffer dst out))

end Sys2Proof.Machine
end

