-- ==== Sys2Proof/Machine/Lzw.lean ====
section
/-! DEFINITION. The LZW unit: the dictionary (42_lzw.md R230 to R233), and the meanings of LZW_ENC (R234) and
LZW_DEC (R239). The codeword width is fixed (90_conflicts.md C1). -/

namespace Sys2Proof.Machine

/-! ### The dictionary (R230 to R233) -/

/-- The LZW dictionary (10_state.md R55): `entries` holds the inserted codewords with their strings, the last
inserted first; the one-byte strings of [0, R) are always defined and R never is (42_lzw.md R230). -/
structure Dict where
  entries : List (Nat × List Byte)
  next : Nat
  deriving DecidableEq, Repr

/-- Seeding (R230): no codeword above R is defined, `next <- R + 1`. -/
def Dict.seeded : Dict := { entries := [], next := Config.R + 1 }

/-- The string of a codeword, if one is defined (R230, R231). -/
def Dict.string (d : Dict) (c : Nat) : Option (List Byte) :=
  if c < Config.R then some [BitVec.ofNat 8 c] else findCell c d.entries

/-- The codeword of a string longer than one byte, if it is in the dictionary (R230, R231). -/
def Dict.codeword (d : Dict) (str : List Byte) : Option Nat :=
  (d.entries.find? (fun e => e.2 = str)).map (·.1)

/-- `insert(str)` where there is room, and nothing where `next = L`: "reaching L simply freezes further growth"
(R231). -/
def Dict.insert (d : Dict) (cap : Nat) (str : List Byte) : Dict :=
  if d.next < cap then { entries := (d.next, str) :: d.entries, next := d.next + 1 } else d

/-- The three states of the dictionary of one command (R232). -/
inductive DictState where
  | seeded
  | growing
  | full
  deriving DecidableEq, Repr

/-- The dictionary state machine, "read off `next`" (R232). -/
def Dict.state (d : Dict) (cap : Nat) : DictState :=
  if d.next = cap then .full else if d.next = Config.R + 1 then .seeded else .growing

/-! ### LZW_ENC (R234 to R238) -/

/-- The encoder's loop (R234) as the walk of R233: `cur` is the match so far at the current index and `c` its
codeword. It is extended by the next input byte "while (current, byte) is an entry", so where it stops it is the
longest match (R235; log 12); then its codeword is emitted, `cur ++ [b]` is inserted (R236), and the match at the next
index starts with the one-byte string of `b`. The last match of the input inserts nothing. -/
def lzwEncodeLoop (width cap : Nat) :
    Dict → List Byte → Nat → List Byte → Writer → Except CmdFault Writer
  | _, _, c, [], w => w.writeBits c width
  | d, cur, c, b :: rest, w =>
    match d.codeword (cur ++ [b]) with
    | some c' => lzwEncodeLoop width cap d (cur ++ [b]) c' rest w
    | none => do
      let w ← w.writeBits c width
      lzwEncodeLoop width cap (d.insert cap (cur ++ [b])) [b] b.toNat rest w

/-- The pseudocode of LZW_ENC (R234) on the source medium: the output bytes, or the fault. The terminator R
always ends the stream (R237), for empty input too (log 17). -/
def lzwEncode (p : Params) (input : List Byte) : Except CmdFault (List Byte) := do
  let w := Writer.opened p.bufCap
  let w ← match input with
    | [] => .ok w
    | b :: rest => lzwEncodeLoop p.W p.L Dict.seeded [b] b.toNat rest w
  let w ← w.writeBits Config.R p.W
  w.finish

/-! ### LZW_DEC (R239 to R245) -/

/-- `resolve(c)` (R242) for a codeword c ≠ R read after the first; `none` where c > next, which is BAD_CODEWORD.
`prev` is never empty, so `prev ++ prev.take 1` is `prev ++ [head(prev)]`. -/
def Dict.resolve (d : Dict) (prev : List Byte) (c : Nat) : Option (List Byte) :=
  if c < d.next then d.string c
  else if c = d.next then some (prev ++ prev.take 1)
  else none

/-- The decoder's loop (R239): each round reads one codeword of W ≥ 1 bits, so a `fuel` of one more than the bits
left is never used up (log 16). -/
def lzwDecodeLoop (width cap : Nat) :
    Nat → Dict → List Byte → Reader → Writer → Except CmdFault Writer
  | 0, _, _, r, _ => .error ⟨.eos, r.pos⟩
  | fuel + 1, d, prev, r, w => do
    let (c, r) ← r.readBits width
    if c = Config.R then .ok w
    else
      match d.resolve prev c with
      | none => .error ⟨.badCodeword, r.pos⟩
      | some s => do
        let w ← w.writeString s
        lzwDecodeLoop width cap fuel (d.insert cap (prev ++ s.take 1)) s r w

/-- The pseudocode of LZW_DEC (R239) on the source medium: the output bytes, or the fault. The first codeword:
R ends decoding, above R is BAD_CODEWORD (R240). What follows the terminator is not read (R241, R244). -/
def lzwDecode (p : Params) (medium : List Byte) : Except CmdFault (List Byte) := do
  let wr := Writer.opened p.bufCap
  let (c, rd) ← (Reader.opened medium).readBits p.W
  if c = Config.R then wr.finish
  else if Config.R < c then .error ⟨.badCodeword, rd.pos⟩
  else do
    let prev := [BitVec.ofNat 8 c]
    let wr ← wr.writeString prev
    let wr ← lzwDecodeLoop p.W p.L (rd.bitsLeft + 1) Dict.seeded prev rd wr
    wr.finish

/-! ### The meanings -/

/-- LZW_ENC (R234): "LZW encode of the source buffer". -/
def execLzwEnc (src dst : BufId) (s : State) : Host.Outcome State Fault Refusal :=
  .next (s.runCommand (.lzwEnc src dst) (lzwEncode s.cfg (s.input src))
    (fun s out => s.completeBuffer dst out))

/-- LZW_DEC (R239): "LZW decode of the source buffer". -/
def execLzwDec (src dst : BufId) (s : State) : Host.Outcome State Fault Refusal :=
  .next (s.runCommand (.lzwDec src dst) (lzwDecode s.cfg (s.input src))
    (fun s out => s.completeBuffer dst out))

end Sys2Proof.Machine
end

