-- ==== Sys2Proof/Machine/Dispatch.lean ====
section
/-! DEFINITION. The meaning of each command, one arm per constructor (30_encoding.md R105). -/

namespace Sys2Proof.Machine

/-- The latched command run to its end (30_encoding.md R109). -/
def exec (i : Instr) (s : State) : Host.Outcome State Fault Refusal :=
  match i with
  | .huffEnc src dst => Sys2Proof.Machine.execHuffEnc src dst s
  | .huffDec src dst => Sys2Proof.Machine.execHuffDec src dst s
  | .lzwEnc src dst => Sys2Proof.Machine.execLzwEnc src dst s
  | .lzwDec src dst => Sys2Proof.Machine.execLzwDec src dst s
  | .arcFrame src dst => Sys2Proof.Machine.execArcFrame src dst s
  | .arcUnframe src => Sys2Proof.Machine.execArcUnframe src s

end Sys2Proof.Machine
end

