-- ==== Sys2Proof/Machine/Flags.lean ====
section
/-! DEFINITION. The status flags and the interrupt output: STATUS as a register (10_state.md R33 to R37), its
W1C write, and irq (60_exceptions.md R322). -/

namespace Sys2Proof.Machine

/-- The 4-bit code of a cause (60_exceptions.md R311). -/
def Cause.code : Cause → BitVec 4
  | .none => 0
  | .illegalCmd => 1
  | .eos => 2
  | .badLength => 3
  | .trieOverflow => 4
  | .badCodeword => 5
  | .outOverflow => 6
  | .badSeparator => 7
  | .recOverflow => 8
  | .badRecord => 9

/-- STATUS.BUSY: "1 exactly when the phase is BUSY" (10_state.md R33). -/
def State.busy (s : State) : Bool := s.phase = .busy

/-- STATUS as read (10_state.md R33 to R37): bits 31:12 zero, CAUSE, bits 7:3 zero, FAULT, DONE, BUSY. -/
def State.statusWord (s : State) : Word :=
  0#20 ++ s.cause.code ++ 0#5 ++ BitVec.ofBool s.fault ++ BitVec.ofBool s.done ++ BitVec.ofBool s.busy

/-- A host write of STATUS (10_state.md R34, R35, R37): bit 1 set clears DONE, bit 2 set clears FAULT with
CAUSE and FAULT_POS, every other bit is ignored. -/
def State.writeStatus (s : State) (v : Word) : State :=
  let s := if v.getLsbD 1 then s.clearDone else s
  if v.getLsbD 2 then s.clearFault else s

/-- IRQ_EN as read: bit 0 is IE, bits 31:1 are 0 (10_state.md R39). -/
def State.irqEnWord (s : State) : Word := 0#31 ++ BitVec.ofBool s.ie

/-- CFG as read: bits 4:0 are W, bit 8 is SEP_CHECK, all other bits 0 (10_state.md R44). -/
def State.cfgWord (s : State) : Word :=
  0#23 ++ BitVec.ofBool s.cfg.sepCheck ++ 0#3 ++ BitVec.ofNat 5 s.cfg.W

/-- The interrupt output: `irq = IRQ_EN.IE and (STATUS.DONE or STATUS.FAULT)` (60_exceptions.md R322). -/
def State.irq (s : State) : Bool := s.ie && (s.done || s.fault)

end Sys2Proof.Machine
end

