-- ==== Sys2Proof/Machine/Bus.lean ====
section
/-! DEFINITION. The host bus: the address map (20_memory.md R71), the registers behind it (10_state.md R31 to R45)
and the host's transactions (20_memory.md R72 to R75). -/

namespace Sys2Proof.Machine

/-- The host registers (10_state.md section 2). -/
inductive Reg where
  | cmd
  | status
  | faultPos
  | irqEn
  | len (k : BufId)
  | recCount
  | capBuf
  | capRec
  | cfg
  /-- Offsets 0x1C and 0x2C to 0xFC (R45). -/
  | reserved
  deriving DecidableEq, Repr

/-- The register at a 4-aligned offset of the register block (10_state.md section 2). -/
def regAt (off : Nat) : Reg :=
  match off with
  | 0x00 => .cmd
  | 0x04 => .status
  | 0x08 => .faultPos
  | 0x0C => .irqEn
  | 0x10 => .len .buf0
  | 0x14 => .len .buf1
  | 0x18 => .recCount
  | 0x20 => .capBuf
  | 0x24 => .capRec
  | 0x28 => .cfg
  | _ => .reserved

/-- What a legal transaction reaches (20_memory.md R71, R72). -/
inductive Target where
  /-- A register. -/
  | reg (r : Reg)
  /-- Word `a` = 4i + j of REC. -/
  | recWord (a : Nat)
  /-- Byte `a` of BUFk. -/
  | buf (k : BufId) (a : Nat)
  deriving DecidableEq, Repr

/-- The bytes of a transaction (20_memory.md R72). -/
def Size.bytes : Size → Nat
  | .one => 1
  | .two => 2
  | .four => 4

/-- The base addresses of 20_memory.md R71. -/
def recBase : Nat := 0x00010000

/-- The base address of BUFk (20_memory.md R71). -/
def bufBase : BufId → Nat
  | .buf0 => 0x10000000
  | .buf1 => 0x20000000

/-- The region of the address map an address lies in (20_memory.md R71), as the target its bytes belong to;
`none` where it is unmapped. -/
def region (p : Params) (a : Nat) : Option Target :=
  if a < 0x100 then some (.reg (regAt a))
  else if recBase ≤ a ∧ a < recBase + 16 * p.recCap then some (.recWord ((a - recBase) / 4))
  else if bufBase .buf0 ≤ a ∧ a < bufBase .buf0 + p.bufCap then some (.buf .buf0 (a - bufBase .buf0))
  else if bufBase .buf1 ≤ a ∧ a < bufBase .buf1 + p.bufCap then some (.buf .buf1 (a - bufBase .buf1))
  else none

/-- The access width of a region: "the register block and REC take only size 4, the buffers take only size 1"
(20_memory.md R72). -/
def Target.width : Target → Size
  | .reg _ => .four
  | .recWord _ => .four
  | .buf _ _ => .one

/-- What a transaction at `addr` of this size reaches, `none` where it is not legal: "addr lies in a mapped region,
size equals that region's access width, and addr is a multiple of size" (20_memory.md R72). -/
def target (p : Params) (addr : Word) (size : Size) : Option Target :=
  match region p addr.toNat with
  | some t => if t.width = size ∧ addr.toNat % size.bytes = 0 then some t else none
  | none => none

/-- A register as a host read returns it (10_state.md R32 to R45), "current values" while BUSY too (20_memory.md
R75). -/
def State.readReg (s : State) : Reg → Word
  | .cmd => s.cmd
  | .status => s.statusWord
  | .faultPos => s.faultPos
  | .irqEn => s.irqEnWord
  | .len k => s.len k
  | .recCount => s.recCount
  | .capBuf => BitVec.ofNat 32 s.cfg.bufCap
  | .capRec => BitVec.ofNat 32 s.cfg.recCap
  | .cfg => s.cfgWord
  | .reserved => 0

/-- A write the engine phase guards: it "returns OK and has no effect" while BUSY (20_memory.md R75). -/
def State.whileIdle (s : State) (t : State) : State :=
  match s.phase with
  | .idle => t
  | .busy => s

/-- A host write of a register (10_state.md R31 to R45; while BUSY 20_memory.md R75). -/
def State.writeReg (s : State) (r : Reg) (v : Word) : State :=
  match r with
  | .cmd => s.writeCmd v
  | .status => s.writeStatus v
  | .faultPos => s
  | .irqEn => { s with ie := v.getLsbD 0 }
  | .len k => s.whileIdle (s.setLen k v)
  | .recCount => s.whileIdle { s with recCount := v }
  | .capBuf => s
  | .capRec => s
  | .cfg => s
  | .reserved => s

/-- The reply to a legal read (20_memory.md R73 to R75). While BUSY a buffer or REC returns the next free draw:
"an unspecified value (the model takes it as a free draw)". -/
def State.readTarget (s : State) : Target → Reply
  | .reg r => .word (s.readReg r)
  | .recWord a =>
    match s.phase with
    | .idle => .word (s.recs.readWord a)
    | .busy => .word (Config.freeWord s.draws a)
  | .buf k a =>
    match s.phase with
    | .idle => .byte (s.byteAt k a)
    | .busy => .byte (Config.freeByte s.draws a)

/-- The state after a legal read: unchanged, but that a free draw is used up (20_memory.md R80: "no host read has a
side effect"; the draw counter is the model's own, log 4 and log 14). -/
def State.afterRead (s : State) : Target → State
  | .reg _ => s
  | .recWord _ =>
    match s.phase with
    | .idle => s
    | .busy => s.nextDraw
  | .buf _ _ =>
    match s.phase with
    | .idle => s
    | .busy => s.nextDraw

/-- A legal write (20_memory.md R73 to R75). A buffer takes the low byte of the data (log 19). -/
def State.writeTarget (s : State) (t : Target) (v : Word) : State :=
  match t with
  | .reg r => s.writeReg r v
  | .recWord a => s.whileIdle { s with recs := s.recs.writeWord a v }
  | .buf k a => s.whileIdle (s.setMem k ((s.mem k).write a (v.setWidth 8)))

/-- `HostRead(addr, size)` (20_memory.md R72): the state after it, with what it returned. -/
def State.hostRead (s : State) (addr : Word) (size : Size) : State :=
  match target s.cfg addr size with
  | some t => { s.afterRead t with reply := some (s.readTarget t) }
  | none => { s with reply := some .busErr }

/-- `HostWrite(addr, size, data)` (20_memory.md R72): the state after it, with what it returned. -/
def State.hostWrite (s : State) (addr : Word) (size : Size) (data : Word) : State :=
  match target s.cfg addr size with
  | some t => { s.writeTarget t data with reply := some .ok }
  | none => { s with reply := some .busErr }

end Sys2Proof.Machine
end

