-- ==== Sys2Proof/Machine/HostAgent.lean ====
section
/-! DEFINITION. The host as an agent: its moves (20_memory.md R82), the pseudo-instructions WAIT and CHECK
(30_encoding.md R113, R114), and the expansion of a host program's statements into moves (R112, R116). -/

namespace Sys2Proof.Machine

/-- The address of STATUS (10_state.md section 2). -/
def statusAddr : Word := 0x00000004

/-- The address of CMD (10_state.md section 2). -/
def cmdAddr : Word := 0x00000000

/-- The address of LENk (10_state.md section 2). -/
def lenAddr : BufId → Word
  | .buf0 => 0x00000010
  | .buf1 => 0x00000014

/-- `LOAD32 STATUS`. -/
def State.loadStatus (s : State) : State := s.hostRead statusAddr .four

/-- Whether the host's next move waits for the engine: WAIT whose polls are used up while BUSY. "taken
eventually (weak fairness)" (70_reset_and_hazards.md R361; log 9). -/
def waitsForEngine (s : State) : HostOp → Bool
  | .wait 0 => s.busy
  | .wait (_ + 1) => false
  | .read _ _ => false
  | .write _ _ _ => false
  | .check => false

/-- The moves of the host program end: "the host program stops with the fault" (30_encoding.md R114). Moves of the
engine and of the reset line are not the host's, and stay. -/
def dropHost : List Turn → List Turn
  | [] => []
  | .host _ :: rest => dropHost rest
  | .engine :: rest => .engine :: dropHost rest
  | .reset :: rest => .reset :: dropHost rest

/-- One move of the host; `rest` are the moves after it. WAIT repeats `LOAD32 STATUS` "until bit 0 (BUSY) reads 0"
(30_encoding.md R113); CHECK is one `LOAD32 STATUS`, after which a fault stops the program (R114). -/
def State.hostMove (s : State) (op : HostOp) (rest : List Turn) : State :=
  match op with
  | .read addr size => { s with turns := rest }.hostRead addr size
  | .write addr size data => { s with turns := rest }.hostWrite addr size data
  | .wait polls =>
    if s.busy then { s with turns := .host (.wait (polls - 1)) :: rest }.loadStatus
    else { s with turns := rest }.loadStatus
  | .check =>
    if s.fault then { s with turns := dropHost rest }.loadStatus
    else { s with turns := rest }.loadStatus

/-! ### Host programs (30_encoding.md R112 to R116) -/

/-- The statements of a host program (30_encoding.md R112 to R114, R116). `wait` takes the polls WAIT spends before
the engine moves (log 9); so do the two pipelines, for each of their WAITs. -/
inductive HostStmt where
  | store32 (addr value : Word)
  | load32 (addr : Word)
  | store8 (addr : Word) (value : Byte)
  | load8 (addr : Word)
  | fill (k : BufId) (bytes : List Byte)
  | command (i : Instr)
  | wait (polls : Nat)
  | check
  | arcCompress (a b : BufId) (polls₁ polls₂ : Nat)
  | arcDecompress (a b : BufId) (polls₁ polls₂ : Nat)
  deriving DecidableEq, Repr

/-- A command statement, "each means `STORE32 CMD, <word>`" (30_encoding.md R112). -/
def issueOp (i : Instr) : HostOp := .write cmdAddr .four (encode i)

/-- `STORE8 BUFK+i, byte i` for each byte of a list that starts at offset `a` (30_encoding.md R112). -/
def fillOps (k : BufId) (a : Nat) : List Byte → List HostOp
  | [] => []
  | b :: rest => .write (BitVec.ofNat 32 (bufBase k + a)) .one (b.setWidth 32) :: fillOps k (a + 1) rest

/-- The moves of a statement: FILL (30_encoding.md R112) and the pipelines (R116) written out. -/
def HostStmt.ops : HostStmt → List HostOp
  | .store32 addr value => [.write addr .four value]
  | .load32 addr => [.read addr .four]
  | .store8 addr value => [.write addr .one (value.setWidth 32)]
  | .load8 addr => [.read addr .one]
  | .fill k bytes => fillOps k 0 bytes ++ [.write (lenAddr k) .four (BitVec.ofNat 32 bytes.length)]
  | .command i => [issueOp i]
  | .wait polls => [.wait polls]
  | .check => [.check]
  | .arcCompress a b p q =>
    [issueOp (.arcFrame a b), .wait p, .check, issueOp (.huffEnc b a), .wait q, .check]
  | .arcDecompress a b p q =>
    [issueOp (.huffDec a b), .wait p, .check, issueOp (.arcUnframe b), .wait q, .check]

/-- A host program as the moves still to come (`State.turns`). -/
def programTurns (prog : List HostStmt) : List Turn := (prog.flatMap HostStmt.ops).map .host

end Sys2Proof.Machine
end

