-- ==== Sys2Proof/Machine/Engine.lean ====
section
/-! DEFINITION. The engine's move (30_encoding.md R109): the latched command word decoded and run. -/

namespace Sys2Proof.Machine

/-- The latched command: "A command is taken from the CMD write that issues it" (20_memory.md R86). -/
def State.latched (s : State) : Except DecodeError Instr := decode s.cmd

/-- The engine's move. While BUSY it "has exactly one step available", the latched command run to its end
(30_encoding.md R109); while IDLE it "does nothing" (70_reset_and_hazards.md R354). A word that is no command is
never latched (R107); the model then takes ILLEGAL_CMD (log 7). -/
def State.engineMove (s : State) : Host.Outcome State Fault Refusal :=
  match s.phase with
  | .idle => .next s
  | .busy =>
    match s.latched with
    | .ok i => exec i s
    | .error _ => .next s.takeIllegal

/-- One event of the total order (20_memory.md R83): the next listed move, or the engine's when none is listed
(log 3). A WAIT that has no poll left lets the engine move and stays (log 9). -/
def State.event (s : State) : Host.Outcome State Fault Refusal :=
  match s.turns with
  | [] => s.engineMove
  | .engine :: rest => { s with turns := rest }.engineMove
  | .reset :: rest => .next { s with turns := rest }.applyReset
  | .host op :: rest => if waitsForEngine s op then s.engineMove else .next (s.hostMove op rest)

end Sys2Proof.Machine
end

