-- ==== Sys2Proof/Machine/Step.lean ====
section
/-! DEFINITION. The step function, and the state in which the next step runs a given command word. -/

namespace Sys2Proof.Machine

/-- One step: one atomic event of the host, the engine or the reset input (20_memory.md R83). -/
def step (s : State) : Host.Outcome State Fault Refusal := s.event

/-- The state in which the engine has just accepted the low `nbits` bits of `w` as its command word (30_encoding.md
R107) and moves next: CMD is the word, DONE, FAULT, CAUSE and FAULT_POS are clear, the phase is BUSY, and no other
move comes first (log 6). -/
def State.withFetchWord (s : State) (nbits w : Nat) : State :=
  { s.latch (BitVec.ofNat 32 (w % 2 ^ nbits)) with phase := .busy, turns := [] }

end Sys2Proof.Machine
end

