-- ==== Sys2Proof/Safety.lean ====
section
/-! DEFINITION. What claims about the block are stated in: the invariant of its states, what a command that
completes or faults leaves, and the bit and byte layouts of the streams. -/

namespace Sys2Proof.Machine

/-! ### The invariant -/

/-- STATUS is consistent: "DONE and FAULT are never both 1. Never 1 while BUSY = 1" (10_state.md R34, R35), CAUSE is
"0 (NONE) whenever FAULT = 0" (R36) and not NONE otherwise (60_exceptions.md R311), FAULT_POS is "0 whenever
FAULT = 0" (10_state.md R38). -/
structure State.StatusOk (s : State) : Prop where
  not_both : ¬ (s.done = true ∧ s.fault = true)
  idle_if_done : s.done = true → s.phase = .idle
  idle_if_fault : s.fault = true → s.phase = .idle
  cause_iff : s.fault = true ↔ s.cause ≠ .none
  pos_zero : s.fault = false → s.faultPos = 0

/-- While BUSY the latched word is a legal command, and nothing it was checked on has changed since issue
(30_encoding.md R107, R109; 20_memory.md R75). -/
def State.LatchOk (s : State) : Prop := s.phase = .busy → s.legalWord s.cmd = true

/-- The memories are in canonical form, list nothing beyond BUF_CAP bytes and REC_CAP descriptors (10_state.md R49,
R50), and are filled by draws already taken. -/
structure State.MemOk (s : State) : Prop where
  buf0_wf : s.buf0.wf
  buf1_wf : s.buf1.wf
  recs_wf : s.recs.wf
  buf0_cap : ∀ c ∈ s.buf0.cells, c.1 < s.cfg.bufCap
  buf1_cap : ∀ c ∈ s.buf1.cells, c.1 < s.cfg.bufCap
  recs_cap : ∀ c ∈ s.recs.words, c.1 < 4 * s.cfg.recCap
  buf0_fill : s.buf0.fill < s.draws
  buf1_fill : s.buf1.fill < s.draws
  recs_fill : s.recs.fill < s.draws

/-- The invariant of the block's states: legal parameters (00_scope.md R7), a consistent STATUS, a legal latched
command while BUSY, and well-formed memories. -/
structure State.Inv (s : State) : Prop where
  params : s.cfg.Legal
  status : s.StatusOk
  latch : s.LatchOk
  mem : s.MemOk

/-! ### What a command leaves -/

/-- What no command changes, whether it completes or faults: CMD, IRQ_EN, the parameters, the moves to come and the
last reply (30_encoding.md R110, 60_exceptions.md R315). -/
structure SameOutside (s t : State) : Prop where
  cmd : t.cmd = s.cmd
  ie : t.ie = s.ie
  cfg : t.cfg = s.cfg
  turns : t.turns = s.turns
  reply : t.reply = s.reply

/-- The STATUS side of normal completion (30_encoding.md R110): DONE set, phase IDLE, nothing else of STATUS. -/
structure DoneFrom (s t : State) : Prop where
  done : t.done = true
  phase : t.phase = .idle
  fault : t.fault = s.fault
  cause : t.cause = s.cause
  faultPos : t.faultPos = s.faultPos

/-- The STATUS side of fault entry (60_exceptions.md R313). -/
structure FaultedBy (t : State) (f : CmdFault) : Prop where
  fault : t.fault = true
  cause : t.cause = f.cause
  faultPos : t.faultPos = BitVec.ofNat 32 f.pos
  done : t.done = false
  phase : t.phase = .idle

/-- BUFk and LENk read as before. -/
def SameBuffer (s t : State) (k : BufId) : Prop :=
  t.len k = s.len k ∧ ∀ a, t.byteAt k a = s.byteAt k a

/-- REC and REC_COUNT read as before. -/
def SameRecords (s t : State) : Prop :=
  t.recCount = s.recCount ∧ ∀ a, t.recs.readWord a = s.recs.readWord a

/-- Normal completion of OP 0x1 to 0x5 with output `out` (30_encoding.md R110): LEN[dst] is its length,
BUF[dst] holds it from 0 and is unchanged beyond it, and nothing else changes but STATUS. -/
structure CompletesWith (s t : State) (dst : BufId) (out : List Byte) : Prop where
  outside : SameOutside s t
  status : DoneFrom s t
  records : SameRecords s t
  draws : t.draws = s.draws
  len : (t.len dst).toNat = out.length
  bytes : ∀ a, t.byteAt dst a = (out[a]?).getD (s.byteAt dst a)
  others : ∀ k, k ≠ dst → SameBuffer s t k

/-- Normal completion of OP 0x6 with the descriptors `ds` (30_encoding.md R110, 43_archive.md R283): REC_COUNT is
their number, REC holds them from 0 and is unchanged beyond them, and nothing else changes but STATUS. -/
structure CompletesWithRecords (s t : State) (ds : List Descriptor) : Prop where
  outside : SameOutside s t
  status : DoneFrom s t
  draws : t.draws = s.draws
  count : t.recCount.toNat = ds.length
  listed : ∀ i (h : i < ds.length), t.recs.readDesc i = ds[i]
  beyond : ∀ a, 4 * ds.length ≤ a → t.recs.readWord a = s.recs.readWord a
  buffers : ∀ k, SameBuffer s t k

/-- Fault entry of a command that writes BUF[dst] (60_exceptions.md R313, R315): STATUS reports the fault, LEN[dst]
is 0, what BUF[dst] holds is left open ("unspecified"), and nothing else changes. -/
structure FaultsBuffer (s t : State) (dst : BufId) (f : CmdFault) : Prop where
  outside : SameOutside s t
  status : FaultedBy t f
  records : SameRecords s t
  len : t.len dst = 0
  others : ∀ k, k ≠ dst → SameBuffer s t k

/-- Fault entry of ARC_UNFRAME (60_exceptions.md R313, R315): STATUS reports the fault, REC_COUNT is 0, what REC
holds is left open ("unspecified"), and nothing else changes. -/
structure FaultsRecords (s t : State) (f : CmdFault) : Prop where
  outside : SameOutside s t
  status : FaultedBy t f
  count : t.recCount = 0
  buffers : ∀ k, SameBuffer s t k

/-- Fault entry for ILLEGAL_CMD: "changes only STATUS, FAULT_POS and CMD" (60_exceptions.md R315). -/
structure FaultsIllegal (s t : State) : Prop where
  outside : SameOutside s t
  status : FaultedBy t ⟨.illegalCmd, 0⟩
  records : SameRecords s t
  draws : t.draws = s.draws
  buffers : ∀ k, SameBuffer s t k

/-! ### The fault of a command (60_exceptions.md R312, R314) -/

/-- The fault a run of pseudocode raises, if it raises one. -/
def raised {α : Type} : Except CmdFault α → Option CmdFault
  | .ok _ => none
  | .error f => some f

/-- The first fault the command's pseudocode raises in this state, the one that is reported (60_exceptions.md R312). -/
def State.commandFault (s : State) : Instr → Option CmdFault
  | .huffEnc src _ => raised (huffEncode s.cfg.bufCap (s.input src))
  | .huffDec src _ => raised (huffDecode s.cfg.bufCap (s.input src))
  | .lzwEnc src _ => raised (lzwEncode s.cfg (s.input src))
  | .lzwDec src _ => raised (lzwDecode s.cfg (s.input src))
  | .arcFrame src _ => raised (arcFrame s.cfg.bufCap (s.input src) s.descriptors)
  | .arcUnframe src => raised (arcUnframe s.cfg (s.input src))

/-- What kind of number FAULT_POS is, by cause (60_exceptions.md R314), for a source of `n` bytes and `m` descriptors: 0
for OUT_OVERFLOW, an index for BAD_RECORD, a bit cursor of the source for every other cause a running command has. -/
def CmdFault.Positioned (f : CmdFault) (n m : Nat) : Prop :=
  match f.cause with
  | .none => False
  | .illegalCmd => False
  | .outOverflow => f.pos = 0
  | .badRecord => f.pos < m
  | .eos => f.pos ≤ 8 * n
  | .badLength => f.pos ≤ 8 * n
  | .trieOverflow => f.pos ≤ 8 * n
  | .badCodeword => f.pos ≤ 8 * n
  | .badSeparator => f.pos ≤ 8 * n
  | .recOverflow => f.pos ≤ 8 * n

/-! ### Bits and bytes (00_scope.md R9, R10) -/

/-- The low `w` bits of `v`, most significant first: what `writeBits(v, w)` writes (40_bitstream.md R147). -/
def natBits (v : Nat) : Nat → List Bool
  | 0 => []
  | w + 1 => v.testBit w :: natBits v w

/-- The unsigned value of a bit sequence, first bit most significant (40_bitstream.md R137). -/
def bitsNat (bits : List Bool) : Nat := bits.foldl (fun v b => 2 * v + b.toNat) 0

/-- The bits of a byte, "most significant first" (00_scope.md R10). -/
def byteBits (b : Byte) : List Bool := natBits b.toNat 8

/-- The bit sequence of a byte medium (00_scope.md R10). -/
def mediumBits (m : List Byte) : List Bool := m.flatMap byteBits

/-- The bytes that hold a bit sequence, the last zero-padded (40_bitstream.md R152). -/
def packBits (bits : List Bool) : List Byte :=
  (List.range ((bits.length + 7) / 8)).map fun i =>
    BitVec.ofNat 8 (bitsNat (((bits ++ List.replicate 7 false).drop (8 * i)).take 8))

/-- The `w` bytes of `v`, most significant first (20_memory.md R76). -/
def bigEndian (v : Nat) : Nat → List Byte
  | 0 => []
  | w + 1 => BitVec.ofNat 8 (v / 2 ^ (8 * w)) :: bigEndian v w

/-! ### Huffman streams (41_huffman.md R190) -/

/-- The serialized trie (41_huffman.md R179): "depth-first(1-bit tag, 8-bit symbol if leaf)". -/
def Trie.bits : Trie → List Bool
  | .leaf s => true :: byteBits s
  | .node l r => false :: (l.bits ++ r.bits)

/-- The symbols of the leaves, left to right. -/
def Trie.leaves : Trie → List Byte
  | .leaf s => [s]
  | .node l r => l.leaves ++ r.leaves

/-- The trie build of 41_huffman.md R176 as a relation, its priority structure P a set: while P has two nodes, the
least node a of P and the least node b of the others are removed, and the internal node (a, b) takes index cnt. -/
inductive TrieBuild : Nat → List Pending → Trie → Prop where
  | root (cnt : Nat) (x : Pending) : TrieBuild cnt [x] x.trie
  | merge {cnt : Nat} {pending others : List Pending} {a b : Pending} {t : Trie}
      (split : List.Perm pending (a :: b :: others))
      (least : ∀ x ∈ b :: others, a.before x = true)
      (second : ∀ x ∈ others, b.before x = true)
      (next : TrieBuild (cnt + 1) (⟨a.wt + b.wt, cnt, .node a.trie b.trie⟩ :: others) t) :
      TrieBuild cnt pending t

/-- The leaves of 41_huffman.md R176: the symbols that occur, in ascending order, with their counts, numbered from 0. -/
def messageLeaves (input : List Byte) : List Pending :=
  (((List.range Config.R).map (BitVec.ofNat 8)).filter (fun b => 0 < input.count b)).zipIdx.map
    fun e => ⟨input.count e.1, e.2, .leaf e.1⟩

/-- The codes of a message's symbols, in order (41_huffman.md R181). -/
def payloadBits (t : Trie) (input : List Byte) : List Bool := input.flatMap (codeOf (t.codes []))

/-- A whole stream: trie, 32-bit length, payload (41_huffman.md R190). -/
def huffBits (t : Trie) (input : List Byte) : List Bool :=
  t.bits ++ (natBits input.length 32 ++ payloadBits t input)

/-! ### The read that fails on a cut stream (40_bitstream.md R137, 60_exceptions.md R314) -/

/-- Reads of these widths are due in order from bit `pos`, and the medium ends at bit `limit`: the start of the first read
that does not fit. -/
def failingRead (limit pos : Nat) : List Nat → Nat
  | [] => pos
  | w :: rest => if pos + w ≤ limit then failingRead limit (pos + w) rest else pos

/-- The reads of a serialized trie (41_huffman.md R185): one bit for a tag, eight for a symbol. -/
def Trie.reads : Trie → List Nat
  | .leaf _ => [1, 8]
  | .node l r => 1 :: (l.reads ++ r.reads)

/-- The reads of HUFF_DEC on the stream of a message (41_huffman.md R183): the trie, the length, then single bits. -/
def huffReads (t : Trie) (input : List Byte) : List Nat :=
  t.reads ++ 32 :: List.replicate (payloadBits t input).length 1

/-! ### LZW streams (42_lzw.md R234 to R237) -/

/-- A non-empty byte sequence is a dictionary string (42_lzw.md R230, R231). -/
def Dict.has (d : Dict) (str : List Byte) : Bool :=
  str.length == 1 || (d.codeword str).isSome

/-- The codeword of a dictionary string (42_lzw.md R230, R231). -/
def Dict.codeOf (d : Dict) (str : List Byte) : Nat :=
  match str with
  | [b] => b.toNat
  | _ => (d.codeword str).getD 0

/-- The longest match of 42_lzw.md R235, as first stated there: "the largest integer with 1 ≤ t ≤ n − i such that
input[i .. i+t) is a dictionary string". -/
def longestMatch (d : Dict) (rest : List Byte) : Nat :=
  ((List.range (rest.length + 1)).filter (fun t => d.has (rest.take t))).foldl max 0

/-- The codewords of the loop of 42_lzw.md R234 from the input that remains: emit the longest match, insert it with
the next byte (R236), go on after it. Each round takes at least one byte, so `fuel` = the remaining length ends it. -/
def lzwCodewords (cap : Nat) : Nat → Dict → List Byte → List Nat
  | 0, _, _ => []
  | _ + 1, _, [] => []
  | fuel + 1, d, b :: rest =>
    let t := longestMatch d (b :: rest)
    let d' := if t < (b :: rest).length then d.insert cap ((b :: rest).take (t + 1)) else d
    d.codeOf ((b :: rest).take t) :: lzwCodewords cap fuel d' ((b :: rest).drop t)

/-- The codewords of a whole LZW stream, the terminator R last (42_lzw.md R237). -/
def lzwStream (p : Params) (input : List Byte) : List Nat :=
  lzwCodewords p.L input.length Dict.seeded input ++ [Config.R]

/-- Codewords of W bits each, most significant bit first (42_lzw.md R234). -/
def codewordBits (w : Nat) (cs : List Nat) : List Bool := cs.flatMap (fun c => natBits c w)

/-- What LZW_DEC holds after a prefix of a stream's codewords (42_lzw.md R239): the strings of the codewords from R + 1
on, the previous string, and the bytes written. -/
structure Decoded where
  table : List (List Byte)
  prev : List Byte
  out : List Byte
  deriving DecidableEq, Repr

/-- The next free codeword, `next` (42_lzw.md R230, R231). -/
def Decoded.next (d : Decoded) : Nat := Config.R + 1 + d.table.length

/-- `string(c)`: defined for c in [0, R) and [R + 1, next) (42_lzw.md R230, R231). -/
def Decoded.string (d : Decoded) (c : Nat) : Option (List Byte) :=
  if c < Config.R then some [BitVec.ofNat 8 c]
  else if Config.R < c then d.table[c - (Config.R + 1)]?
  else none

/-- `c` resolves to `str` (42_lzw.md R242): a defined entry, or the special case c = next, `prev ++ [head(prev)]`. -/
def Decoded.Resolves (d : Decoded) (c : Nat) (str : List Byte) : Prop :=
  (c < d.next ∧ d.string c = some str) ∨ (c = d.next ∧ str = d.prev ++ d.prev.take 1)

/-- The string is written, `prev ++ [head(str)]` is inserted where next < L, and it becomes the previous string
(42_lzw.md R239, R243). -/
def Decoded.take (d : Decoded) (cap : Nat) (str : List Byte) : Decoded where
  table := if d.next < cap then d.table ++ [d.prev ++ str.take 1] else d.table
  prev := str
  out := d.out ++ str

/-- The codewords are a well-formed prefix of a stream, up to the terminator, and leave `d`: the first is in [0, R)
(42_lzw.md R240), each later one resolves (R242), none is R. -/
inductive DecodesTo (cap : Nat) : List Nat → Decoded → Prop where
  | first {c : Nat} (h : c < Config.R) :
      DecodesTo cap [c] { table := [], prev := [BitVec.ofNat 8 c], out := [BitVec.ofNat 8 c] }
  | later {cs : List Nat} {d : Decoded} {c : Nat} {str : List Byte} (before : DecodesTo cap cs d)
      (resolves : d.Resolves c str) : DecodesTo cap (cs ++ [c]) (d.take cap str)

/-! ### Archives (43_archive.md R270) -/

/-- One record with the separator bytes `s1`, `s2`, `s3`:
`[32-bit name length][s1][name bytes][s2][64-bit content length][s3][content bytes]`. -/
def recordWith (s1 s2 s3 : Byte) (name content : List Byte) : List Byte :=
  bigEndian name.length 4 ++ (s1 :: (name ++ (s2 :: (bigEndian content.length 8 ++ (s3 :: content)))))

/-- One record as ARC_FRAME writes it, every separator 0xFF (43_archive.md R270, R274). -/
def recordBytes (name content : List Byte) : List Byte := recordWith 0xFF 0xFF 0xFF name content

/-- The name and content bytes a descriptor names in a medium (43_archive.md R271, R283). -/
def Descriptor.record (medium : List Byte) (d : Descriptor) : List Byte × List Byte :=
  (slice medium d.nameOff d.nameLen, slice medium d.contentOff d.contentLen)

/-- An archive: "concatenation of records". -/
def archiveBytes (records : List (List Byte × List Byte)) : List Byte :=
  records.flatMap fun r => recordBytes r.1 r.2

/-- A record in a stream whose separators may have any value: the three separators, the name, the content. -/
structure Framed where
  s1 : Byte
  s2 : Byte
  s3 : Byte
  name : List Byte
  content : List Byte
  deriving DecidableEq, Repr

/-- An archive whose separators may have any value. -/
def framedBytes (records : List Framed) : List Byte :=
  records.flatMap fun r => recordWith r.s1 r.s2 r.s3 r.name r.content

/-- The bytes of one such record. -/
def Framed.bytes (r : Framed) : List Byte := recordWith r.s1 r.s2 r.s3 r.name r.content

/-- The reads of one record (43_archive.md R277): its fields in order, a name or a content in one `readBytes`. -/
def Framed.reads (r : Framed) : List Nat := [32, 8, 8 * r.name.length, 8, 64, 8, 8 * r.content.length]

/-- Every separator is 0xFF. -/
def Framed.marked (r : Framed) : Prop := r.s1 = 0xFF ∧ r.s2 = 0xFF ∧ r.s3 = 0xFF

/-- Fewer than REC_CAP whole records, with separators SEP_CHECK allows (43_archive.md R279, R281): what may come before the
record a statement is about. -/
def RecordsBefore (p : Params) (records : List Framed) : Prop :=
  records.length < p.recCap ∧ (p.sepCheck = true → ∀ r ∈ records, r.marked)

/-- The descriptors of an archive that starts at byte `off` (43_archive.md R283). -/
def archiveDescs (off : Nat) : List (List Byte × List Byte) → List Descriptor
  | [] => []
  | (name, content) :: rest =>
    ⟨off + 5, name.length, off + 15 + name.length, content.length⟩ ::
      archiveDescs (off + 15 + name.length + content.length) rest

/-! ### Runs of micro-operations (40_bitstream.md R154) -/

/-- `writeBits(v1, w1), …, writeBits(vk, wk)` for the fields (v, w) of a list. -/
def writeFields : List (Nat × Nat) → Writer → Except CmdFault Writer
  | [], w => .ok w
  | f :: rest, w => do
    let w ← w.writeBits f.1 f.2
    writeFields rest w

/-- `readBits(w1), …, readBits(wk)` for the widths of a list: the values, and the reader after them. -/
def readFields : List Nat → Reader → Except CmdFault (List Nat × Reader)
  | [], r => .ok ([], r)
  | n :: rest, r => do
    let (v, r) ← r.readBits n
    let (vs, r) ← readFields rest r
    return (v :: vs, r)

/-! ### The dictionary (42_lzw.md R231) -/

/-- "the defined codewords are always exactly [0, R) ∪ [R + 1, next)", with R + 1 ≤ next ≤ L (10_state.md R55). -/
structure Dict.Ok (d : Dict) (cap : Nat) : Prop where
  next_ge : Config.R + 1 ≤ d.next
  next_le : d.next ≤ cap
  defined : ∀ c, (d.string c).isSome = true ↔ c < Config.R ∨ Config.R < c ∧ c < d.next

/-! ### Host transactions (20_memory.md R71, R72) -/

/-- The legal transactions, region by region: "addr lies in a mapped region of rule R71, size equals that region's
access width, and addr is a multiple of size". -/
def LegalTransaction (p : Params) (addr : Word) (size : Size) : Prop :=
  (addr.toNat < 0x100 ∧ size = .four ∧ addr.toNat % 4 = 0) ∨
  (0x10000 ≤ addr.toNat ∧ addr.toNat < 0x10000 + 16 * p.recCap ∧ size = .four ∧ addr.toNat % 4 = 0) ∨
  (0x10000000 ≤ addr.toNat ∧ addr.toNat < 0x10000000 + p.bufCap ∧ size = .one) ∨
  (0x20000000 ≤ addr.toNat ∧ addr.toNat < 0x20000000 + p.bufCap ∧ size = .one)

/-- Nothing a host or a command can see differs: all fields but the model's own draw counter and last reply. -/
structure SameBlock (s t : State) : Prop where
  phase : t.phase = s.phase
  cmd : t.cmd = s.cmd
  done : t.done = s.done
  fault : t.fault = s.fault
  cause : t.cause = s.cause
  faultPos : t.faultPos = s.faultPos
  ie : t.ie = s.ie
  recCount : t.recCount = s.recCount
  buffers : ∀ k, t.len k = s.len k ∧ t.mem k = s.mem k
  recs : t.recs = s.recs
  cfg : t.cfg = s.cfg
  turns : t.turns = s.turns

end Sys2Proof.Machine
end

