-- ==== Sys2Proof/Certificates/Slice0/Obligations.lean ====
section
/-! DEFINITION. The statements about the block, for the provers. Each docstring names the rules of the spec it
rests on. -/

open Sys2Proof Sys2Proof.Machine

/-! ### Encoding and issue -/

/-- 30_encoding.md R100 to R105: the decoder accepts exactly the words the encoder writes, each as the command it was
written for. In particular `decode (encode i) = .ok i` for every command. That the words of OP 1 to 5 with S = D, illegal by
R106 (c), are decoded too and turned away by `Instr.wellFormed` is the model's choice (log 15). -/
def Obligations.DecodeAcceptsExactlyTheEncodings : Prop :=
  ∀ (v : Word) (i : Instr), decode v = .ok i ↔ v = encode i

/-- The exact words of 30_encoding.md R105. -/
def Obligations.ExactWordsDecode : Prop :=
  decode 0x00000021 = .ok (.huffEnc .buf0 .buf1) ∧ decode 0x00000011 = .ok (.huffEnc .buf1 .buf0) ∧
  decode 0x00000022 = .ok (.huffDec .buf0 .buf1) ∧ decode 0x00000012 = .ok (.huffDec .buf1 .buf0) ∧
  decode 0x00000023 = .ok (.lzwEnc .buf0 .buf1) ∧ decode 0x00000013 = .ok (.lzwEnc .buf1 .buf0) ∧
  decode 0x00000024 = .ok (.lzwDec .buf0 .buf1) ∧ decode 0x00000014 = .ok (.lzwDec .buf1 .buf0) ∧
  decode 0x00000025 = .ok (.arcFrame .buf0 .buf1) ∧ decode 0x00000015 = .ok (.arcFrame .buf1 .buf0) ∧
  decode 0x00000006 = .ok (.arcUnframe .buf0) ∧ decode 0x00000016 = .ok (.arcUnframe .buf1)

/-- 30_encoding.md R106: a word is illegal exactly under (a) to (f); a legal word is one of the 12; and writing an
illegal word to CMD while IDLE reports ILLEGAL_CMD. -/
def Obligations.IllegalCommandWords : Prop :=
  ∀ (s : State) (v : Word),
    (s.legalWord v = false ↔
      v.toNat / 64 ≠ 0 ∨
      (v.toNat % 16 = 0 ∨ 7 ≤ v.toNat % 16) ∨
      (1 ≤ v.toNat % 16 ∧ v.toNat % 16 ≤ 5 ∧ v.getLsbD 4 = v.getLsbD 5) ∨
      (v.toNat % 16 = 6 ∧ v.getLsbD 5 = true) ∨
      s.cfg.bufCap < (s.len (if v.getLsbD 4 then .buf1 else .buf0)).toNat ∨
      (v.toNat % 16 = 5 ∧ s.cfg.recCap < s.recCount.toNat)) ∧
    (s.legalWord v = true → v ∈ [0x21#32, 0x11#32, 0x22#32, 0x12#32, 0x23#32, 0x13#32, 0x24#32, 0x14#32,
      0x25#32, 0x15#32, 0x06#32, 0x16#32]) ∧
    (s.phase = .idle → s.legalWord v = false →
      (s.hostWrite 0x00000000 .four v).fault = true ∧ (s.hostWrite 0x00000000 .four v).cause = .illegalCmd)

/-- 30_encoding.md R107: what a host write of v to CMD does while IDLE. -/
def Obligations.IssueOfACommandWord : Prop :=
  ∀ (s : State) (v : Word), s.phase = .idle →
    let t := s.hostWrite 0x00000000 .four v
    t.reply = some .ok ∧ t.cmd = v ∧ t.done = false ∧ t.faultPos = 0 ∧
    (s.legalWord v = true → t.phase = .busy ∧ t.fault = false ∧ t.cause = .none) ∧
    (s.legalWord v = false → t.phase = .idle ∧ t.fault = true ∧ t.cause = .illegalCmd) ∧
    t.ie = s.ie ∧ t.cfg = s.cfg ∧ t.turns = s.turns ∧ t.draws = s.draws ∧
    SameRecords s t ∧ ∀ k, SameBuffer s t k

/-! ### The step -/

/-- 30_encoding.md R109 and 20_memory.md R72, R83: a step runs what is next. While BUSY the engine's move runs the command
that the latched word decodes to; a host transaction listed next is performed, in either phase. That the engine moves where
no move is listed, and that listed moves go in order and are taken off the list, is the model's choice (log 3; the spec
leaves the order open). -/
def Obligations.StepRunsTheLatchedCommand : Prop :=
  (∀ (s : State) (i : Instr), s.phase = .busy → decode s.cmd = .ok i →
    (s.turns = [] → step s = exec i s) ∧
    (∀ rest, s.turns = .engine :: rest → step s = exec i { s with turns := rest })) ∧
  (∀ (s : State) (addr : Word) (size : Size) (rest : List Turn),
    (∀ data, s.turns = .host (.write addr size data) :: rest →
      step s = .next ({ s with turns := rest }.hostWrite addr size data)) ∧
    (s.turns = .host (.read addr size) :: rest →
      step s = .next ({ s with turns := rest }.hostRead addr size)))

/-- 70_reset_and_hazards.md R354: an IDLE block with no move to come does nothing. That no move to come is an empty list is
the model's choice (log 3). -/
def Obligations.IdleBlockDoesNothing : Prop :=
  ∀ s : State, s.phase = .idle → s.turns = [] → step s = .next s

/-- No step stops the machine (60_exceptions.md R312, R313: every failure is a recorded fault; log 13). -/
def Obligations.EveryStepAnswersANextState : Prop :=
  ∀ s : State, ∃ t, step s = .next t

/-- `State.Inv` holds right after reset. -/
def Obligations.ResetMeetsTheInvariant : Prop := State.reset.Inv

/-- Every step keeps `State.Inv`: legal parameters, a consistent STATUS (10_state.md R34 to R38), a legal latched command
while BUSY (30_encoding.md R107), memories in canonical form and within BUF_CAP and REC_CAP (10_state.md R49, R50). -/
def Obligations.EveryStepKeepsTheInvariant : Prop :=
  ∀ s t : State, s.Inv → step s = .next t → t.Inv

/-- 70_reset_and_hazards.md R350: asserting reset, in any state, leaves every register at its reset value and the phase
IDLE, with irq 0, so that each register reads as the table says. By R352 no byte of a buffer and no word of REC has a
specified value, which in this model means that none is listed (logs 4 and 5). That the moves to come stay is the model's
choice (log 8). -/
def Obligations.ResetInputRestoresEveryRegister : Prop :=
  ∀ (s : State) (rest : List Turn), s.turns = .reset :: rest →
    ∃ t, step s = .next t ∧ t.phase = .idle ∧ t.irq = false ∧ t.turns = rest ∧ t.cfg = s.cfg ∧
      t.readReg .cmd = 0 ∧ t.readReg .status = 0 ∧ t.readReg .faultPos = 0 ∧ t.readReg .irqEn = 0 ∧
      t.readReg (.len .buf0) = 0 ∧ t.readReg (.len .buf1) = 0 ∧ t.readReg .recCount = 0 ∧
      t.readReg .capBuf = BitVec.ofNat 32 s.cfg.bufCap ∧ t.readReg .capRec = BitVec.ofNat 32 s.cfg.recCap ∧
      t.readReg .cfg = s.cfgWord ∧ t.readReg .reserved = 0 ∧
      t.buf0.cells = [] ∧ t.buf1.cells = [] ∧ t.recs.words = []

/-! ### The host bus -/

/-- 20_memory.md R71, R72: a transaction is turned away with BUSERR exactly where it is not legal, and then changes
nothing. -/
def Obligations.BusErrorExactlyWhereIllegal : Prop :=
  ∀ (s : State) (addr : Word) (size : Size) (data : Word), s.cfg.Legal →
    ((s.hostRead addr size).reply = some .busErr ↔ ¬ LegalTransaction s.cfg addr size) ∧
    ((s.hostWrite addr size data).reply = some .busErr ↔ ¬ LegalTransaction s.cfg addr size) ∧
    (¬ LegalTransaction s.cfg addr size →
      s.hostRead addr size = { s with reply := some .busErr } ∧
      s.hostWrite addr size data = { s with reply := some .busErr })

/-- 20_memory.md R80: "no host read has a side effect" on the block. `SameBlock` leaves out the model's own draw counter
and last reply (logs 4, 8 and 14). -/
def Obligations.HostReadsHaveNoSideEffect : Prop :=
  ∀ (s : State) (addr : Word) (size : Size), SameBlock s (s.hostRead addr size)

/-- 10_state.md R32 to R41 and the offsets of its section 2: what each register reads; and the cause codes of
60_exceptions.md R311. -/
def Obligations.RegistersReadTheirFields : Prop :=
  (Cause.none.code = 0 ∧ Cause.illegalCmd.code = 1 ∧ Cause.eos.code = 2 ∧ Cause.badLength.code = 3 ∧
    Cause.trieOverflow.code = 4 ∧ Cause.badCodeword.code = 5 ∧ Cause.outOverflow.code = 6 ∧
    Cause.badSeparator.code = 7 ∧ Cause.recOverflow.code = 8 ∧ Cause.badRecord.code = 9) ∧
  ∀ s : State,
    (s.hostRead 0x00000000 .four).reply = some (.word s.cmd) ∧
    (∃ w, (s.hostRead 0x00000004 .four).reply = some (.word w) ∧
      w.getLsbD 0 = decide (s.phase = .busy) ∧ w.getLsbD 1 = s.done ∧ w.getLsbD 2 = s.fault ∧
      w.extractLsb' 8 4 = s.cause.code ∧ w.extractLsb' 3 5 = 0 ∧ w.extractLsb' 12 20 = 0) ∧
    (s.hostRead 0x00000008 .four).reply = some (.word s.faultPos) ∧
    (s.hostRead 0x0000000C .four).reply = some (.word (if s.ie then 1 else 0)) ∧
    (s.hostRead 0x00000010 .four).reply = some (.word s.len0) ∧
    (s.hostRead 0x00000014 .four).reply = some (.word s.len1) ∧
    (s.hostRead 0x00000018 .four).reply = some (.word s.recCount)

/-- 10_state.md R37: a host write of STATUS changes only DONE and FAULT (with CAUSE and FAULT_POS); the reserved bits
read 0; and the worked example. -/
def Obligations.StatusWriteClearsOnlyDoneAndFault : Prop :=
  (∀ (s : State) (v : Word), s.hostWrite 0x00000004 .four v =
    { s with
      done := s.done && !v.getLsbD 1
      fault := s.fault && !v.getLsbD 2
      cause := if v.getLsbD 2 then .none else s.cause
      faultPos := if v.getLsbD 2 then 0 else s.faultPos
      reply := some .ok }) ∧
  (∀ s : State, s.statusWord.extractLsb' 3 5 = 0 ∧ s.statusWord.extractLsb' 12 20 = 0) ∧
  (∀ s : State, s.statusWord = 0x00000304 →
    (s.hostWrite 0x00000004 .four 0x00000006).statusWord = 0 ∧
    (s.hostWrite 0x00000004 .four 0x00000006).faultPos = 0)

/-- 10_state.md R39 to R41: LEN0, LEN1 and REC_COUNT hold what is written while IDLE, IE at any time; nothing else
changes. -/
def Obligations.WritableRegistersHoldWhatIsWritten : Prop :=
  ∀ (s : State) (v : Word),
    s.hostWrite 0x0000000C .four v = { s with ie := v.getLsbD 0, reply := some .ok } ∧
    (s.phase = .idle →
      s.hostWrite 0x00000010 .four v = { s with len0 := v, reply := some .ok } ∧
      s.hostWrite 0x00000014 .four v = { s with len1 := v, reply := some .ok } ∧
      s.hostWrite 0x00000018 .four v = { s with recCount := v, reply := some .ok })

/-- 10_state.md R42 to R45: CAP_BUF, CAP_REC and CFG read the parameters, a reserved offset reads 0, a write of any of
them has no effect, and no step changes the parameters. A write of FAULT_POS, read-only too (R31, R38), has none either. -/
def Obligations.ParameterRegistersNeverChange : Prop :=
  (∀ (s : State) (v : Word), s.cfg.Legal →
    (s.hostRead 0x00000020 .four).reply = some (.word (BitVec.ofNat 32 s.cfg.bufCap)) ∧
    (s.hostRead 0x00000024 .four).reply = some (.word (BitVec.ofNat 32 s.cfg.recCap)) ∧
    (s.hostRead 0x00000028 .four).reply =
      some (.word (BitVec.ofNat 32 (s.cfg.W + 256 * s.cfg.sepCheck.toNat))) ∧
    ∀ addr : Word, addr ∈ [0x00000008#32, 0x00000020#32, 0x00000024#32, 0x00000028#32] →
      s.hostWrite addr .four v = { s with reply := some .ok }) ∧
  (∀ (s : State) (v addr : Word),
    addr = 0x1C ∨ (0x2C ≤ addr.toNat ∧ addr.toNat ≤ 0xFC ∧ addr.toNat % 4 = 0) →
      (s.hostRead addr .four).reply = some (.word 0) ∧
      s.hostWrite addr .four v = { s with reply := some .ok }) ∧
  (∀ s t : State, step s = .next t → t.cfg = s.cfg)

/-- 20_memory.md R73: while IDLE a byte written by the host reads back, and every other byte of every buffer, with every
register and REC, is as before. -/
def Obligations.BufferBytesReadBack : Prop :=
  ∀ (s : State) (k : BufId) (a : Nat) (v : Byte), s.cfg.Legal → s.phase = .idle → a < s.cfg.bufCap →
    let t := s.hostWrite (BitVec.ofNat 32 (bufBase k + a)) .one (v.setWidth 32)
    t.reply = some .ok ∧
    (t.hostRead (BitVec.ofNat 32 (bufBase k + a)) .one).reply = some (.byte v) ∧
    (∀ j b, j ≠ k ∨ b ≠ a → t.byteAt j b = s.byteAt j b) ∧
    SameRecords s t ∧ SameOutside { s with reply := some .ok } t ∧ (∀ j, t.len j = s.len j) ∧
    t.statusWord = s.statusWord ∧ t.faultPos = s.faultPos

/-- 20_memory.md R74: while IDLE word j of descriptor i is at 0x0001_0000 + 16i + 4j, reads back what is written, and
`MemRead(REC, i, 16)` is the tuple of its words. -/
def Obligations.RecordWordsReadBack : Prop :=
  ∀ (s : State) (i j : Nat) (v : Word), s.cfg.Legal → s.phase = .idle → i < s.cfg.recCap → j < 4 →
    let addr := BitVec.ofNat 32 (0x00010000 + 16 * i + 4 * j)
    let t := s.hostWrite addr .four v
    t.reply = some .ok ∧ (t.hostRead addr .four).reply = some (.word v) ∧
    (∀ a, a ≠ 4 * i + j → t.recs.readWord a = s.recs.readWord a) ∧
    t.recs.readDesc i =
      ⟨(t.recs.readWord (4 * i)).toNat, (t.recs.readWord (4 * i + 1)).toNat,
        (t.recs.readWord (4 * i + 2)).toNat, (t.recs.readWord (4 * i + 3)).toNat⟩ ∧
    t.recCount = s.recCount ∧ (∀ k, SameBuffer s t k) ∧ SameOutside { s with reply := some .ok } t ∧
    t.statusWord = s.statusWord ∧ t.faultPos = s.faultPos

/-- 20_memory.md R75: host access while BUSY. A write to CMD, LEN0, LEN1, REC_COUNT, REC or a buffer returns OK and has
no effect; registers read their current values; a read of a buffer or of REC returns some value and changes nothing; a
write of IRQ_EN takes effect, and one of STATUS changes nothing, since DONE and FAULT are 0 (in states of the
invariant). -/
def Obligations.HostAccessWhileBusy : Prop :=
  ∀ (s : State) (v : Word), s.cfg.Legal → s.phase = .busy →
    (∀ addr : Word, addr ∈ [0x00000000#32, 0x00000010#32, 0x00000014#32, 0x00000018#32] →
      s.hostWrite addr .four v = { s with reply := some .ok }) ∧
    (∀ addr : Word, 0x100 ≤ addr.toNat → ∀ size, LegalTransaction s.cfg addr size →
      s.hostWrite addr size v = { s with reply := some .ok } ∧
      SameBlock s (s.hostRead addr size) ∧
      ((∃ b, (s.hostRead addr size).reply = some (.byte b)) ∨ ∃ w, (s.hostRead addr size).reply = some (.word w))) ∧
    (∀ addr : Word, addr.toNat < 0x100 → addr.toNat % 4 = 0 →
      s.hostRead addr .four = { s with reply := some (.word (s.readReg (regAt addr.toNat))) }) ∧
    s.hostWrite 0x0000000C .four v = { s with ie := v.getLsbD 0, reply := some .ok } ∧
    (s.StatusOk → s.done = false ∧ s.fault = false ∧
      s.hostWrite 0x00000004 .four v = { s with reply := some .ok })

/-- 60_exceptions.md R322: irq is IRQ_EN.IE and (DONE or FAULT); it rises when a command ends, when an illegal word is
issued, or when the host sets IE while DONE or FAULT is 1. -/
def Obligations.InterruptLevel : Prop :=
  (∀ s : State, s.irq = true ↔ s.ie = true ∧ (s.done = true ∨ s.fault = true)) ∧
  (∀ (s t : State) (i : Instr), exec i s = .next t → s.ie = true → t.irq = true) ∧
  (∀ (s : State) (v : Word), s.phase = .idle → s.legalWord v = false → s.ie = true →
    (s.hostWrite 0x00000000 .four v).irq = true) ∧
  (∀ s : State, s.done = true ∨ s.fault = true → (s.hostWrite 0x0000000C .four 1).irq = true)

/-! ### Every command: how it ends, what it leaves -/

/-- 30_encoding.md R113: a command leaves the engine IDLE with exactly one of DONE and FAULT set. -/
def Obligations.CommandsEndWithDoneOrFault : Prop :=
  ∀ (s : State) (i : Instr), s.fault = false →
    ∃ t, exec i s = .next t ∧ t.phase = .idle ∧ (t.done = true ↔ t.fault = false)

/-- 60_exceptions.md R312 to R315: a running command ends without DONE exactly where its pseudocode raises a fault; fault
entry reports that fault, its cause one of a running command and its FAULT_POS of the kind R314 gives the cause; and what
fault entry never changes. -/
def Obligations.FaultEntryOfACommand : Prop :=
  ∀ (s t : State) (i : Instr), s.admits i = true → exec i s = .next t →
    (t.done = false ↔ (s.commandFault i).isSome = true) ∧
    ∀ f, s.commandFault i = some f →
      f.Positioned (s.len (srcOf i)).toNat s.recCount.toNat ∧
      (∀ dst, outputOf i = .buffer dst → FaultsBuffer s t dst f) ∧
      (outputOf i = .records → FaultsRecords s t f)

/-- The model's own choice for a command it does not admit (log 7): ILLEGAL_CMD, as at issue, changing only what
60_exceptions.md R315 allows. -/
def Obligations.UnadmittedCommandTakesIllegalCmd : Prop :=
  ∀ (s : State) (i : Instr), s.admits i = false → ∃ t, exec i s = .next t ∧ FaultsIllegal s t

/-- 60_exceptions.md R311: the causes each command may report. -/
def Obligations.CausesOfEachCommand : Prop :=
  ∀ (s t : State) (src dst : BufId), s.fault = false → t.fault = true →
    (s.admits (.huffEnc src dst) = true → exec (.huffEnc src dst) s = .next t → t.cause = .outOverflow) ∧
    (s.admits (.huffDec src dst) = true → exec (.huffDec src dst) s = .next t →
      t.cause ∈ [.eos, .badLength, .trieOverflow, .outOverflow]) ∧
    (s.admits (.lzwEnc src dst) = true → exec (.lzwEnc src dst) s = .next t → t.cause = .outOverflow) ∧
    (s.admits (.lzwDec src dst) = true → exec (.lzwDec src dst) s = .next t →
      t.cause ∈ [.eos, .badCodeword, .outOverflow]) ∧
    (s.admits (.arcFrame src dst) = true → exec (.arcFrame src dst) s = .next t →
      t.cause ∈ [.outOverflow, .badRecord]) ∧
    (s.admits (.arcUnframe src) = true → exec (.arcUnframe src) s = .next t →
      t.cause ∈ [.eos, .badLength, .recOverflow] ∨ (t.cause = .badSeparator ∧ s.cfg.sepCheck = true))

/-- The frame of HUFF_ENC, HUFF_DEC, LZW_ENC, LZW_DEC and ARC_FRAME (30_encoding.md R110, 60_exceptions.md R315): the
source buffer, REC and everything outside STATUS, LEN[dst] and BUF[dst] are as before, and after normal completion every
byte of BUF[dst] from LEN[dst] on is as before. -/
def Obligations.FrameOfTheBufferCommands : Prop :=
  ∀ (s t : State) (i : Instr) (dst : BufId), s.cfg.Legal → outputOf i = .buffer dst → exec i s = .next t →
    SameOutside s t ∧ SameRecords s t ∧ (∀ k, k ≠ dst → SameBuffer s t k) ∧
    (t.done = true → (t.len dst).toNat ≤ s.cfg.bufCap ∧
      ∀ a, (t.len dst).toNat ≤ a → t.byteAt dst a = s.byteAt dst a)

/-- The frame of ARC_UNFRAME (30_encoding.md R110, 43_archive.md R283, 60_exceptions.md R315): no buffer and no LEN
changes, nothing outside STATUS, REC and REC_COUNT, and after normal completion every entry of REC from REC_COUNT on is
as before. -/
def Obligations.FrameOfArcUnframe : Prop :=
  ∀ (s t : State) (src : BufId), s.cfg.Legal → exec (.arcUnframe src) s = .next t →
    SameOutside s t ∧ (∀ k, SameBuffer s t k) ∧
    (t.done = true → t.recCount.toNat ≤ s.cfg.recCap ∧
      ∀ a, 4 * t.recCount.toNat ≤ a → t.recs.readWord a = s.recs.readWord a)

/-- 30_encoding.md R111, 40_bitstream.md R131, R144: "Bytes at a ≥ n are never read", and REC and REC_COUNT are operands of
ARC_FRAME only. Two states that agree on the parameters, on what the command finds in STATUS, on the source medium and, for
ARC_FRAME, on REC_COUNT and the descriptors below it give the same outcome and the same output, whatever else they hold.
(ARC_UNFRAME where the block does not admit it has no output, log 7: REC is then as alike as it was.) -/
def Obligations.OutcomeDependsOnlyOnTheMedium : Prop :=
  ∀ (s u s' u' : State) (i : Instr), s.cfg.Legal → u.cfg = s.cfg →
    (readsRecords i = true → u.recCount = s.recCount ∧
      ∀ j, j < s.recCount.toNat → u.recs.readDesc j = s.recs.readDesc j) →
    u.fault = s.fault → u.cause = s.cause → u.faultPos = s.faultPos →
    u.len (srcOf i) = s.len (srcOf i) →
    (∀ a, a < (s.len (srcOf i)).toNat → u.byteAt (srcOf i) a = s.byteAt (srcOf i) a) →
    exec i s = .next s' → exec i u = .next u' →
    u'.statusWord = s'.statusWord ∧ u'.faultPos = s'.faultPos ∧
    (∀ dst, outputOf i = .buffer dst → s'.done = true → u'.len dst = s'.len dst ∧
      ∀ a, a < (s'.len dst).toNat → u'.byteAt dst a = s'.byteAt dst a) ∧
    (outputOf i = .records → s.admits i = true ∨ SameRecords s u → u'.recCount = s'.recCount ∧
      ∀ j, j < s'.recCount.toNat → u'.recs.readDesc j = s'.recs.readDesc j)

/-- 60_exceptions.md R319: "Input-absent is success", and LZW_DEC on n = 0 faults EOS. The output of LZW_ENC is the
terminator alone (42_lzw.md R237), which takes two bytes. That LZW_ENC faults OUT_OVERFLOW where BUF_CAP is 1 is the model's
reading (log 17): 42_lzw.md R238 against the letter of R319. The others have no output. -/
def Obligations.EmptyInputIsNotAFault : Prop :=
  ∀ (s : State) (src dst : BufId), s.cfg.Legal → src ≠ dst → s.len src = 0 →
    (∃ t, exec (.huffEnc src dst) s = .next t ∧ CompletesWith s t dst []) ∧
    (∃ t, exec (.huffDec src dst) s = .next t ∧ CompletesWith s t dst []) ∧
    (2 ≤ s.cfg.bufCap → ∃ t, exec (.lzwEnc src dst) s = .next t ∧
      CompletesWith s t dst (packBits (natBits Config.R s.cfg.W))) ∧
    (s.cfg.bufCap = 1 → ∃ t, exec (.lzwEnc src dst) s = .next t ∧ FaultsBuffer s t dst ⟨.outOverflow, 0⟩) ∧
    (∃ t, exec (.lzwDec src dst) s = .next t ∧ FaultsBuffer s t dst ⟨.eos, 0⟩) ∧
    (∃ t, exec (.arcUnframe src) s = .next t ∧ CompletesWithRecords s t []) ∧
    (s.recCount = 0 → ∃ t, exec (.arcFrame src dst) s = .next t ∧ CompletesWith s t dst [])

/-! ### The bit-stream unit -/

/-- 40_bitstream.md R137: a read of w bits faults EOS, at the cursor and without moving it, exactly when fewer than w bits
remain; else it answers the unsigned value of the next w bits, first bit most significant, and moves the cursor by w. -/
def Obligations.ReadBitsTakesTheNextBits : Prop :=
  ∀ (r : Reader) (w : Nat),
    (8 * r.medium.length - r.pos < w → r.readBits w = .error ⟨.eos, r.pos⟩) ∧
    (w ≤ 8 * r.medium.length - r.pos →
      r.readBits w = .ok (bitsNat (((mediumBits r.medium).drop r.pos).take w), { r with pos := r.pos + w }))

/-- 40_bitstream.md R154: the mirror property. -/
def Obligations.ReaderMirrorsWriter : Prop :=
  ∀ (cap : Nat) (fields : List (Nat × Nat)) (out : List Byte), (∀ f ∈ fields, 1 ≤ f.2 ∧ f.2 ≤ 64) →
    (writeFields fields (Writer.opened cap)).bind Writer.finish = .ok out →
    ∃ r, readFields (fields.map (·.2)) (Reader.opened out) = .ok (fields.map (fun f => f.1 % 2 ^ f.2), r) ∧
      r.bitsLeft = (8 - (fields.map (·.2)).sum % 8) % 8 ∧
      ∀ k, r.pos ≤ k → k < 8 * out.length → r.bitAt k = false

/-! ### HUFF_ENC -/

/-- 41_huffman.md R174: the frequency table counts each symbol. -/
def Obligations.FrequencyTableCounts : Prop :=
  ∀ input : List Byte, (freqTable input).length = 256 ∧
    ∀ b : Byte, (freqTable input)[b.toNat]? = some (input.count b)

/-- 41_huffman.md R176: the trie of a message is built from its leaves by removing the two least nodes, the first removed
on the left, until one is left. -/
def Obligations.TrieBuildRemovesTheTwoLeast : Prop :=
  ∀ (input : List Byte) (t : Trie), buildTrie (freqTable input) = some t →
    TrieBuild (messageLeaves input).length (messageLeaves input) t

/-- 41_huffman.md R170, R191 (b): a message that is not empty has a trie, its leaves are exactly the symbols that occur,
each once, and k leaves take 2k − 1 ≤ NODE_CAP nodes. -/
def Obligations.TrieOfAMessage : Prop :=
  ∀ input : List Byte, input ≠ [] → ∃ t, buildTrie (freqTable input) = some t ∧
    t.leaves.Nodup ∧ (∀ b, b ∈ t.leaves ↔ b ∈ input) ∧ t.nodes + 1 = 2 * t.leaves.length ∧ t.nodes ≤ Config.nodeCap

/-- 41_huffman.md R172, R178: the codes of a message's trie are defined for the symbols that occur, no one begins another,
and none is longer than k − 1 ≤ 255 bits. -/
def Obligations.CodesArePrefixFree : Prop :=
  ∀ (input : List Byte) (t : Trie), buildTrie (freqTable input) = some t →
    (∀ a b : Byte, a ∈ input → b ∈ input → codeOf (t.codes []) a <+: codeOf (t.codes []) b → a = b) ∧
    ∀ a : Byte, a ∈ input → (a, codeOf (t.codes []) a) ∈ t.codes [] ∧
      (codeOf (t.codes []) a).length + 1 ≤ t.leaves.length ∧ (codeOf (t.codes []) a).length ≤ 255

/-- 41_huffman.md R191 (c): "more frequent symbols never get strictly longer codes than less frequent ones". -/
def Obligations.CodeLengthsFollowFrequencies : Prop :=
  ∀ (input : List Byte) (t : Trie), buildTrie (freqTable input) = some t →
    ∀ a b : Byte, a ∈ input → b ∈ input → input.count b < input.count a →
      (codeOf (t.codes []) a).length ≤ (codeOf (t.codes []) b).length

/-- 41_huffman.md R182: with k ≥ 1 distinct symbols the stream HUFF_ENC writes has T = (10k − 1) + 32 + Σ freq[s]·|code[s]|
bits; it is ⌈T/8⌉ bytes long and ends in (8 − T mod 8) mod 8 zero bits; and OUT_OVERFLOW occurs exactly when ⌈T/8⌉ is above
BUF_CAP. -/
def Obligations.HuffmanStreamLength : Prop :=
  ∀ (s : State) (src dst : BufId) (t : Trie), s.cfg.Legal → src ≠ dst → (s.len src).toNat ≤ s.cfg.bufCap →
    buildTrie (freqTable (s.input src)) = some t →
    let freq := fun v => (s.input src).count (BitVec.ofNat 8 v)
    let code := fun v => codeOf (t.codes []) (BitVec.ofNat 8 v)
    let k := ((List.range 256).filter (fun v => decide (0 < freq v))).length
    let T := (10 * k - 1) + 32 + ((List.range 256).map (fun v => freq v * (code v).length)).sum
    1 ≤ k ∧
    ((T + 7) / 8 ≤ s.cfg.bufCap → ∃ u, exec (.huffEnc src dst) s = .next u ∧ u.done = true ∧
      (u.len dst).toNat = (T + 7) / 8 ∧
      (mediumBits (u.input dst)).drop T = List.replicate ((8 - T % 8) % 8) false) ∧
    (s.cfg.bufCap < (T + 7) / 8 → ∃ u, exec (.huffEnc src dst) s = .next u ∧ FaultsBuffer s u dst ⟨.outOverflow, 0⟩)

/-- 41_huffman.md R173, R179 to R182, R190: HUFF_ENC writes the trie, the length and the codes, zero-padded, and faults
OUT_OVERFLOW exactly where they do not fit. -/
def Obligations.HuffEncWritesTheStream : Prop :=
  ∀ (s : State) (src dst : BufId) (t : Trie), s.cfg.Legal → src ≠ dst → (s.len src).toNat ≤ s.cfg.bufCap →
    buildTrie (freqTable (s.input src)) = some t →
    (((huffBits t (s.input src)).length + 7) / 8 ≤ s.cfg.bufCap →
      ∃ u, exec (.huffEnc src dst) s = .next u ∧ CompletesWith s u dst (packBits (huffBits t (s.input src)))) ∧
    (s.cfg.bufCap < ((huffBits t (s.input src)).length + 7) / 8 →
      ∃ u, exec (.huffEnc src dst) s = .next u ∧ FaultsBuffer s u dst ⟨.outOverflow, 0⟩)

/-- 41_huffman.md R177: a message of one distinct symbol has the single leaf as its trie, an empty code and no payload
bit. -/
def Obligations.HuffEncOfOneDistinctSymbol : Prop :=
  ∀ (s : State) (src dst : BufId) (b : Byte) (n : Nat), s.cfg.Legal → src ≠ dst → 6 ≤ s.cfg.bufCap →
    n + 1 ≤ s.cfg.bufCap → s.input src = List.replicate (n + 1) b →
    buildTrie (freqTable (s.input src)) = some (.leaf b) ∧ codeOf ((Trie.leaf b).codes []) b = [] ∧
    ∃ t, exec (.huffEnc src dst) s = .next t ∧
      CompletesWith s t dst (packBits (true :: (byteBits b ++ natBits (n + 1) 32)))

/-! ### HUFF_DEC -/

/-- 41_huffman.md R183, R185, R187: HUFF_DEC of a serialized trie of at most NODE_CAP nodes, a length and as many codes
writes the symbols of those codes, whatever bits follow, and faults OUT_OVERFLOW where there are more than BUF_CAP. -/
def Obligations.HuffDecReadsTheStream : Prop :=
  ∀ (s : State) (src dst : BufId) (t : Trie) (coded : List (Byte × List Bool)) (more : List Bool),
    s.cfg.Legal → src ≠ dst → (s.len src).toNat ≤ s.cfg.bufCap → t.nodes ≤ Config.nodeCap →
    (∀ e ∈ coded, e ∈ t.codes []) → coded.length < 2 ^ 31 →
    mediumBits (s.input src) = t.bits ++ (natBits coded.length 32 ++ (coded.flatMap (·.2) ++ more)) →
    (coded.length ≤ s.cfg.bufCap →
      ∃ u, exec (.huffDec src dst) s = .next u ∧ CompletesWith s u dst (coded.map (·.1))) ∧
    (s.cfg.bufCap < coded.length →
      ∃ u, exec (.huffDec src dst) s = .next u ∧ FaultsBuffer s u dst ⟨.outOverflow, 0⟩)

/-- 41_huffman.md R186: a negative length faults BAD_LENGTH at the bit after the field; a length of 0 gives empty
output. -/
def Obligations.HuffDecLengthField : Prop :=
  ∀ (s : State) (src dst : BufId) (t : Trie) (v : Nat) (more : List Bool),
    s.cfg.Legal → src ≠ dst → (s.len src).toNat ≤ s.cfg.bufCap → t.nodes ≤ Config.nodeCap →
    mediumBits (s.input src) = t.bits ++ (natBits v 32 ++ more) →
    (2 ^ 31 ≤ v → v < 2 ^ 32 →
      ∃ u, exec (.huffDec src dst) s = .next u ∧ FaultsBuffer s u dst ⟨.badLength, t.bits.length + 32⟩) ∧
    (v = 0 → ∃ u, exec (.huffDec src dst) s = .next u ∧ CompletesWith s u dst [])

/-- 41_huffman.md R188: bits after the last symbol are "neither read nor checked, and do not cause a fault". -/
def Obligations.HuffDecIgnoresTrailingBytes : Prop :=
  ∀ (s u s' : State) (src dst : BufId) (extra out : List Byte),
    s.cfg.Legal → u.cfg = s.cfg → src ≠ dst → 0 < (s.len src).toNat →
    u.input src = s.input src ++ extra → (u.len src).toNat ≤ u.cfg.bufCap →
    exec (.huffDec src dst) s = .next s' → CompletesWith s s' dst out →
    ∃ u', exec (.huffDec src dst) u = .next u' ∧ CompletesWith u u' dst out

/-- 41_huffman.md R189: the stream of a message cut to at least one byte, and not whole, always faults EOS, with FAULT_POS at
the cursor where the failing read started. -/
def Obligations.HuffDecOfACutStreamFaults : Prop :=
  ∀ (s : State) (src dst : BufId) (input : List Byte) (t : Trie) (m : Nat),
    s.cfg.Legal → src ≠ dst → (s.len src).toNat ≤ s.cfg.bufCap → input.length ≤ s.cfg.bufCap →
    buildTrie (freqTable input) = some t → 1 ≤ m → m < (packBits (huffBits t input)).length →
    s.input src = (packBits (huffBits t input)).take m →
    ∃ u, exec (.huffDec src dst) s = .next u ∧
      FaultsBuffer s u dst ⟨.eos, failingRead (8 * m) 0 (huffReads t input)⟩

/-- 41_huffman.md R185 with its corner cases: a source of n ≥ 1 zero bytes faults TRIE_OVERFLOW at bit 512 where n ≥ 64,
and EOS at its end where n < 64. -/
def Obligations.HuffDecOfZeroBytesFaults : Prop :=
  ∀ (s : State) (src dst : BufId) (n : Nat),
    s.cfg.Legal → src ≠ dst → n ≤ s.cfg.bufCap → s.input src = List.replicate n 0 →
    (64 ≤ n → ∃ u, exec (.huffDec src dst) s = .next u ∧ FaultsBuffer s u dst ⟨.trieOverflow, 512⟩) ∧
    (1 ≤ n → n < 64 → ∃ u, exec (.huffDec src dst) s = .next u ∧ FaultsBuffer s u dst ⟨.eos, 8 * n⟩)

/-- 41_huffman.md R191 (a): HUFF_DEC of what HUFF_ENC wrote gives the message back. -/
def Obligations.HuffmanRoundTrip : Prop :=
  ∀ (s t : State) (src dst : BufId), s.cfg.Legal → src ≠ dst →
    exec (.huffEnc src dst) s = .next t → t.done = true →
    ∃ u, exec (.huffDec dst src) t = .next u ∧ CompletesWith t u src (s.input src)

/-! ### LZW -/

/-- 42_lzw.md R230 to R232: the seeded dictionary defines exactly [0, R), an insertion below L defines exactly the next
codeword and moves SEEDED or GROWING to GROWING or FULL, and at L (FULL) it changes nothing. -/
def Obligations.DictionaryStateMachine : Prop :=
  ∀ (cap : Nat), Config.R + 2 ≤ cap → Dict.seeded.Ok cap ∧ Dict.seeded.state cap = .seeded ∧
    ∀ (d : Dict) (str : List Byte), d.Ok cap →
      (d.insert cap str).Ok cap ∧
      (d.next < cap → (d.insert cap str).next = d.next + 1 ∧ (d.insert cap str).string d.next = some str ∧
        (∀ c, c ≠ d.next → (d.insert cap str).string c = d.string c) ∧
        ((d.insert cap str).state cap = .growing ∨ (d.insert cap str).state cap = .full)) ∧
      (d.state cap = .full → d.insert cap str = d)

/-- 42_lzw.md R238, R247 (b): every codeword LZW_ENC emits before the terminator is in [0, L) and is not R. -/
def Obligations.EmittedCodewordsAreInRange : Prop :=
  ∀ (p : Params) (input : List Byte), p.Legal →
    ∀ c ∈ lzwCodewords p.L input.length Dict.seeded input, c < 2 ^ p.W ∧ c ≠ Config.R

/-- 42_lzw.md R234 to R238: LZW_ENC writes the codewords of the longest matches and the terminator, W bits each,
zero-padded, and faults OUT_OVERFLOW exactly where they do not fit. -/
def Obligations.LzwEncWritesTheLongestMatches : Prop :=
  ∀ (s : State) (src dst : BufId), s.cfg.Legal → src ≠ dst → (s.len src).toNat ≤ s.cfg.bufCap →
    let bits := codewordBits s.cfg.W (lzwStream s.cfg (s.input src))
    ((bits.length + 7) / 8 ≤ s.cfg.bufCap →
      ∃ t, exec (.lzwEnc src dst) s = .next t ∧ CompletesWith s t dst (packBits bits)) ∧
    (s.cfg.bufCap < (bits.length + 7) / 8 →
      ∃ t, exec (.lzwEnc src dst) s = .next t ∧ FaultsBuffer s t dst ⟨.outOverflow, 0⟩)

/-- 42_lzw.md R239, R244, R247: LZW_DEC of the codewords of a message, whatever bits follow the terminator, writes the
message, and faults OUT_OVERFLOW where it has more than BUF_CAP bytes. -/
def Obligations.LzwDecReadsTheStream : Prop :=
  ∀ (s : State) (src dst : BufId) (message : List Byte) (more : List Bool),
    s.cfg.Legal → src ≠ dst → (s.len src).toNat ≤ s.cfg.bufCap →
    mediumBits (s.input src) = codewordBits s.cfg.W (lzwStream s.cfg message) ++ more →
    (message.length ≤ s.cfg.bufCap →
      ∃ t, exec (.lzwDec src dst) s = .next t ∧ CompletesWith s t dst message) ∧
    (s.cfg.bufCap < message.length →
      ∃ t, exec (.lzwDec src dst) s = .next t ∧ FaultsBuffer s t dst ⟨.outOverflow, 0⟩)

/-- 42_lzw.md R240, R244 at the first codeword: R gives empty output, one above R faults BAD_CODEWORD at the bit after it,
and a source of fewer than W bits faults EOS at 0. (One below R is a prefix of `LzwDecAfterAnyPrefix`.) -/
def Obligations.LzwDecFirstCodeword : Prop :=
  ∀ (s : State) (src dst : BufId), s.cfg.Legal → src ≠ dst → (s.len src).toNat ≤ s.cfg.bufCap →
    (∀ more, mediumBits (s.input src) = natBits Config.R s.cfg.W ++ more →
      ∃ t, exec (.lzwDec src dst) s = .next t ∧ CompletesWith s t dst []) ∧
    (∀ c more, Config.R < c → c < 2 ^ s.cfg.W → mediumBits (s.input src) = natBits c s.cfg.W ++ more →
      ∃ t, exec (.lzwDec src dst) s = .next t ∧ FaultsBuffer s t dst ⟨.badCodeword, s.cfg.W⟩) ∧
    (8 * (s.len src).toNat < s.cfg.W →
      ∃ t, exec (.lzwDec src dst) s = .next t ∧ FaultsBuffer s t dst ⟨.eos, 0⟩)

/-- 42_lzw.md R239 to R244 after any well-formed prefix of codewords, whose strings fit BUF_CAP: the terminator ends decoding,
whatever bits follow; a codeword that resolves (a defined entry, or the next free codeword as the special case) writes its
string, or faults OUT_OVERFLOW where the string does not fit; one above the next free codeword faults BAD_CODEWORD at the bit
after it; and a stream that ends before the next codeword is whole faults EOS at its start. -/
def Obligations.LzwDecAfterAnyPrefix : Prop :=
  ∀ (s : State) (src dst : BufId) (cs : List Nat) (d : Decoded) (more : List Bool),
    s.cfg.Legal → src ≠ dst → (s.len src).toNat ≤ s.cfg.bufCap →
    (∀ c ∈ cs, c < 2 ^ s.cfg.W) → DecodesTo s.cfg.L cs d → d.out.length ≤ s.cfg.bufCap →
    mediumBits (s.input src) = codewordBits s.cfg.W cs ++ more →
    (∀ rest, more = natBits Config.R s.cfg.W ++ rest →
      ∃ t, exec (.lzwDec src dst) s = .next t ∧ CompletesWith s t dst d.out) ∧
    (∀ c str rest, c < 2 ^ s.cfg.W → d.Resolves c str →
      more = natBits c s.cfg.W ++ (natBits Config.R s.cfg.W ++ rest) → (d.out ++ str).length ≤ s.cfg.bufCap →
      ∃ t, exec (.lzwDec src dst) s = .next t ∧ CompletesWith s t dst (d.out ++ str)) ∧
    (∀ c str rest, c < 2 ^ s.cfg.W → d.Resolves c str → more = natBits c s.cfg.W ++ rest →
      s.cfg.bufCap < (d.out ++ str).length →
      ∃ t, exec (.lzwDec src dst) s = .next t ∧ FaultsBuffer s t dst ⟨.outOverflow, 0⟩) ∧
    (∀ c rest, d.next < c → c < 2 ^ s.cfg.W → more = natBits c s.cfg.W ++ rest →
      ∃ t, exec (.lzwDec src dst) s = .next t ∧ FaultsBuffer s t dst ⟨.badCodeword, s.cfg.W * (cs.length + 1)⟩) ∧
    (more.length < s.cfg.W →
      ∃ t, exec (.lzwDec src dst) s = .next t ∧ FaultsBuffer s t dst ⟨.eos, s.cfg.W * cs.length⟩)

/-- 42_lzw.md R247 (a): LZW_DEC of what LZW_ENC wrote gives the message back. -/
def Obligations.LzwRoundTrip : Prop :=
  ∀ (s t : State) (src dst : BufId), s.cfg.Legal → src ≠ dst →
    exec (.lzwEnc src dst) s = .next t → t.done = true →
    ∃ u, exec (.lzwDec dst src) t = .next u ∧ CompletesWith t u src (s.input src)

/-! ### ARC_FRAME and ARC_UNFRAME -/

/-- 43_archive.md R271, R273 to R276: ARC_FRAME of descriptors inside the source medium writes their records in order, and
faults OUT_OVERFLOW exactly where they do not fit. -/
def Obligations.ArcFrameWritesTheRecords : Prop :=
  ∀ (s : State) (src dst : BufId), s.cfg.Legal → src ≠ dst → (s.len src).toNat ≤ s.cfg.bufCap →
    s.recCount.toNat ≤ s.cfg.recCap →
    (∀ d ∈ s.descriptors, d.nameOff + d.nameLen ≤ (s.len src).toNat ∧
      d.contentOff + d.contentLen ≤ (s.len src).toNat) →
    let out := archiveBytes (s.descriptors.map (Descriptor.record (s.input src)))
    (out.length ≤ s.cfg.bufCap → ∃ t, exec (.arcFrame src dst) s = .next t ∧ CompletesWith s t dst out) ∧
    (s.cfg.bufCap < out.length →
      ∃ t, exec (.arcFrame src dst) s = .next t ∧ FaultsBuffer s t dst ⟨.outOverflow, 0⟩)

/-- 43_archive.md R272: the first descriptor i, in ascending order, that names bytes outside the source medium faults
BAD_RECORD with FAULT_POS = i, whatever the output would be. -/
def Obligations.ArcFrameChecksDescriptorsFirst : Prop :=
  ∀ (s : State) (src dst : BufId) (i : Nat), s.cfg.Legal → src ≠ dst → (s.len src).toNat ≤ s.cfg.bufCap →
    s.recCount.toNat ≤ s.cfg.recCap → i < s.recCount.toNat →
    (∀ j, j < i → (s.recs.readDesc j).nameOff + (s.recs.readDesc j).nameLen ≤ (s.len src).toNat ∧
      (s.recs.readDesc j).contentOff + (s.recs.readDesc j).contentLen ≤ (s.len src).toNat) →
    ((s.len src).toNat < (s.recs.readDesc i).nameOff + (s.recs.readDesc i).nameLen ∨
      (s.len src).toNat < (s.recs.readDesc i).contentOff + (s.recs.readDesc i).contentLen) →
    ∃ t, exec (.arcFrame src dst) s = .next t ∧ FaultsBuffer s t dst ⟨.badRecord, i⟩

/-- 43_archive.md R277 to R279, R281, R283: ARC_UNFRAME of a concatenation of records gives their descriptors in order,
whatever the separators hold unless SEP_CHECK; with more than REC_CAP records it faults REC_OVERFLOW at the first bit of
the record that does not fit. -/
def Obligations.ArcUnframeReadsTheRecords : Prop :=
  ∀ (s : State) (src : BufId) (records : List Framed), s.cfg.Legal → (s.len src).toNat ≤ s.cfg.bufCap →
    s.input src = framedBytes records → (s.cfg.sepCheck = true → ∀ r ∈ records, r.marked) →
    (records.length ≤ s.cfg.recCap → ∃ t, exec (.arcUnframe src) s = .next t ∧
      CompletesWithRecords s t (archiveDescs 0 (records.map fun r => (r.name, r.content)))) ∧
    (s.cfg.recCap < records.length → ∃ t, exec (.arcUnframe src) s = .next t ∧
      FaultsRecords s t ⟨.recOverflow, 8 * (framedBytes (records.take s.cfg.recCap)).length⟩)

/-- 43_archive.md R280, R282 at any record that may still be parsed: a negative name length, and a negative content length
after separators SEP_CHECK allows, fault BAD_LENGTH at the bit after the field. -/
def Obligations.ArcUnframeNegativeLengths : Prop :=
  ∀ (s : State) (src : BufId) (records : List Framed), s.cfg.Legal → (s.len src).toNat ≤ s.cfg.bufCap →
    RecordsBefore s.cfg records →
    (∀ (v : Nat) (more : List Byte), 2 ^ 31 ≤ v → v < 2 ^ 32 →
      s.input src = framedBytes records ++ (bigEndian v 4 ++ more) →
      ∃ t, exec (.arcUnframe src) s = .next t ∧
        FaultsRecords s t ⟨.badLength, 8 * (framedBytes records).length + 32⟩) ∧
    (∀ (s1 s2 : Byte) (name more : List Byte) (v : Nat), (s.cfg.sepCheck = true → s1 = 0xFF ∧ s2 = 0xFF) →
      2 ^ 63 ≤ v → v < 2 ^ 64 →
      s.input src = framedBytes records ++
        (bigEndian name.length 4 ++ (s1 :: (name ++ (s2 :: (bigEndian v 8 ++ more))))) →
      ∃ t, exec (.arcUnframe src) s = .next t ∧
        FaultsRecords s t ⟨.badLength, 8 * ((framedBytes records).length + name.length + 14)⟩)

/-- 43_archive.md R281 at any record that may still be parsed: with SEP_CHECK a byte other than 0xFF at the first, the second
or the third separator faults BAD_SEPARATOR at the bit after it. (That without SEP_CHECK no separator is checked is part of
`ArcUnframeReadsTheRecords`.) -/
def Obligations.ArcUnframeChecksSeparators : Prop :=
  ∀ (s : State) (src : BufId) (records : List Framed) (sep : Byte) (more : List Byte), s.cfg.Legal →
    (s.len src).toNat ≤ s.cfg.bufCap → s.cfg.sepCheck = true → RecordsBefore s.cfg records → sep ≠ 0xFF →
    (∀ v, v < 2 ^ 31 → s.input src = framedBytes records ++ (bigEndian v 4 ++ (sep :: more)) →
      ∃ t, exec (.arcUnframe src) s = .next t ∧
        FaultsRecords s t ⟨.badSeparator, 8 * ((framedBytes records).length + 5)⟩) ∧
    (∀ name : List Byte, s.input src = framedBytes records ++
        (bigEndian name.length 4 ++ (0xFF :: (name ++ (sep :: more)))) →
      ∃ t, exec (.arcUnframe src) s = .next t ∧
        FaultsRecords s t ⟨.badSeparator, 8 * ((framedBytes records).length + name.length + 6)⟩) ∧
    (∀ (name : List Byte) (v : Nat), v < 2 ^ 63 → s.input src = framedBytes records ++
        (bigEndian name.length 4 ++ (0xFF :: (name ++ (0xFF :: (bigEndian v 8 ++ (sep :: more)))))) →
      ∃ t, exec (.arcUnframe src) s = .next t ∧
        FaultsRecords s t ⟨.badSeparator, 8 * ((framedBytes records).length + name.length + 15)⟩)

/-- 43_archive.md R278, R282, R284: a stream that ends inside a record faults EOS, with FAULT_POS at the cursor where the
failing read started, whatever separators SEP_CHECK allows. -/
def Obligations.ArcUnframeOfACutRecordFaults : Prop :=
  ∀ (s : State) (src : BufId) (records : List Framed) (r : Framed) (m : Nat),
    s.cfg.Legal → (s.len src).toNat ≤ s.cfg.bufCap → RecordsBefore s.cfg records →
    (s.cfg.sepCheck = true → r.marked) → r.name.length < 2 ^ 31 → r.content.length < 2 ^ 63 →
    1 ≤ m → m < r.bytes.length → s.input src = framedBytes records ++ r.bytes.take m →
    ∃ t, exec (.arcUnframe src) s = .next t ∧
      FaultsRecords s t ⟨.eos, 8 * (framedBytes records).length + failingRead (8 * m) 0 r.reads⟩

/-- 43_archive.md R285: ARC_UNFRAME of what ARC_FRAME wrote names the same records in the same order. -/
def Obligations.ArchiveRoundTrip : Prop :=
  ∀ (s t : State) (src dst : BufId), s.cfg.Legal → src ≠ dst →
    exec (.arcFrame src dst) s = .next t → t.done = true →
    ∃ u, exec (.arcUnframe dst) t = .next u ∧ u.done = true ∧ u.recCount = s.recCount ∧
      ∀ i, i < s.recCount.toNat →
        slice (u.input dst) (u.recs.readDesc i).nameOff (u.recs.readDesc i).nameLen =
          slice (s.input src) (s.recs.readDesc i).nameOff (s.recs.readDesc i).nameLen ∧
        slice (u.input dst) (u.recs.readDesc i).contentOff (u.recs.readDesc i).contentLen =
          slice (s.input src) (s.recs.readDesc i).contentOff (s.recs.readDesc i).contentLen

/-! ### The host agent -/

/-- 30_encoding.md R113: from a BUSY state of the invariant, WAIT ends, after however many polls, with the engine IDLE and
exactly one of DONE and FAULT set, having read that STATUS. That the engine moves once the polls are used up is the model's
choice for the spec's weak fairness (log 9). -/
def Obligations.WaitEndsAfterTheCommand : Prop :=
  ∀ (s : State) (polls : Nat) (rest : List Turn), s.Inv → s.phase = .busy → s.turns = .host (.wait polls) :: rest →
    ∃ t, Sys2Proof.core.run (polls + 2) s = .next t ∧ t.turns = rest ∧ t.phase = .idle ∧
      (t.done = true ↔ t.fault = false) ∧ t.reply = some (.word t.statusWord)

/-- 30_encoding.md R114: CHECK reads STATUS, changes no register, no buffer and no record, and ends the host's program where
FAULT is 1. That the program's end takes the host's moves off the list, and no others, is the model's choice (log 9). -/
def Obligations.CheckStopsTheProgramOnAFault : Prop :=
  ∀ (s : State) (rest : List Turn), s.turns = .host .check :: rest →
    ∃ t, step s = .next t ∧ t.reply = some (.word s.statusWord) ∧
      (s.fault = false → t.turns = rest) ∧
      (s.fault = true → ∀ m ∈ t.turns, m = .engine ∨ m = .reset) ∧
      t.statusWord = s.statusWord ∧ t.faultPos = s.faultPos ∧ t.cmd = s.cmd ∧ t.ie = s.ie ∧ t.cfg = s.cfg ∧
      SameRecords s t ∧ ∀ k, SameBuffer s t k
end

