-- ==== Sys2Proof/Laws/Bits.lean ====
section
/-! SUPPORT. The laws of bit sequences and of the bytes that hold them (00_scope.md R9, R10). -/

namespace Sys2Proof.Machine

/-! ### Values and bits -/

@[simp] theorem natBits_length (v w : Nat) : (natBits v w).length = w := by
  induction w with
  | zero => rfl
  | succ w ih => simp [natBits, ih]

/-- `natBits` takes the low bits only. -/
theorem natBits_mod (v : Nat) {w n : Nat} (h : w ≤ n) : natBits (v % 2 ^ n) w = natBits v w := by
  induction w with
  | zero => rfl
  | succ w ih =>
    simp only [natBits, ih (by omega), Nat.testBit_mod_two_pow]
    rw [decide_eq_true (show w < n by omega), Bool.true_and]

@[simp] theorem bitsNat_nil : bitsNat [] = 0 := rfl

theorem bitsNat_foldl (l : List Bool) (a : Nat) :
    l.foldl (fun v b => 2 * v + b.toNat) a = a * 2 ^ l.length + bitsNat l := by
  induction l generalizing a with
  | nil => simp
  | cons b rest ih =>
    have hb : bitsNat (b :: rest) = b.toNat * 2 ^ rest.length + bitsNat rest := by
      rw [bitsNat, List.foldl_cons, ih]
      simp
    rw [List.foldl_cons, ih, hb, List.length_cons]
    ring

theorem bitsNat_append (l m : List Bool) : bitsNat (l ++ m) = bitsNat l * 2 ^ m.length + bitsNat m := by
  rw [bitsNat, List.foldl_append, bitsNat_foldl]
  rfl

theorem bitsNat_cons (b : Bool) (l : List Bool) : bitsNat (b :: l) = b.toNat * 2 ^ l.length + bitsNat l := by
  rw [bitsNat, List.foldl_cons, bitsNat_foldl]
  simp

theorem bitsNat_lt (l : List Bool) : bitsNat l < 2 ^ l.length := by
  induction l with
  | nil => simp
  | cons b rest ih =>
    rw [bitsNat_cons, List.length_cons, Nat.pow_succ]
    have := Bool.toNat_le b
    nlinarith [Nat.mul_le_mul_right (2 ^ rest.length) this]

/-- Reading back the bits written gives the value, modulo the width. -/
theorem bitsNat_natBits (v w : Nat) : bitsNat (natBits v w) = v % 2 ^ w := by
  induction w with
  | zero => simp [natBits, Nat.mod_one]
  | succ w ih =>
    rw [natBits, bitsNat_cons, ih, natBits_length, Nat.mod_pow_succ, Nat.toNat_testBit]
    ring

/-- Writing back the value read gives the bits. -/
theorem natBits_bitsNat {l : List Bool} {w : Nat} (h : l.length = w) : natBits (bitsNat l) w = l := by
  subst h
  induction l with
  | nil => rfl
  | cons b rest ih =>
    rw [List.length_cons, natBits]
    have hlt := bitsNat_lt rest
    have h1 : bitsNat (b :: rest) % 2 ^ rest.length = bitsNat rest := by
      rw [bitsNat_cons, Nat.mul_comm, Nat.mul_add_mod, Nat.mod_eq_of_lt hlt]
    have h2 : (bitsNat (b :: rest)).testBit rest.length = b := by
      rw [bitsNat_cons, Nat.mul_comm, Nat.testBit_two_pow_mul_add _ hlt]
      cases b <;> simp
    rw [h2, ← natBits_mod _ (Nat.le_refl rest.length), h1, ih]

@[simp] theorem bitsNat_replicate_false (k : Nat) : bitsNat (List.replicate k false) = 0 := by
  induction k with
  | zero => rfl
  | succ k ih => rw [List.replicate_succ, bitsNat_cons, ih]; simp

/-! ### Bytes and bits -/

@[simp] theorem byteBits_length (b : Byte) : (byteBits b).length = 8 := natBits_length _ _

@[simp] theorem mediumBits_nil : mediumBits [] = [] := rfl

@[simp] theorem mediumBits_cons (b : Byte) (m : List Byte) : mediumBits (b :: m) = byteBits b ++ mediumBits m := rfl

@[simp] theorem mediumBits_append (m n : List Byte) : mediumBits (m ++ n) = mediumBits m ++ mediumBits n := by
  simp [mediumBits]

@[simp] theorem mediumBits_length (m : List Byte) : (mediumBits m).length = 8 * m.length := by
  induction m with
  | nil => rfl
  | cons b rest ih =>
    rw [mediumBits_cons, List.length_append, ih, byteBits_length, List.length_cons]
    omega

theorem byteBits_ofNat (v : Nat) : byteBits (BitVec.ofNat 8 v) = natBits v 8 := by
  rw [byteBits, BitVec.toNat_ofNat, natBits_mod _ (Nat.le_refl 8)]

/-- A byte is the value of its bits. -/
theorem ofNat_bitsNat_byteBits (b : Byte) : BitVec.ofNat 8 (bitsNat (byteBits b)) = b := by
  rw [byteBits, bitsNat_natBits]
  apply BitVec.eq_of_toNat_eq
  rw [BitVec.toNat_ofNat, Nat.mod_mod, Nat.mod_eq_of_lt b.isLt]

theorem natBits_getElem? {v w k : Nat} (h : k < w) : (natBits v w)[k]? = some (v.testBit (w - 1 - k)) := by
  induction w generalizing k with
  | zero => omega
  | succ w ih =>
    cases k with
    | zero => simp [natBits]
    | succ k =>
      rw [natBits, List.getElem?_cons_succ, ih (by omega)]
      congr 2
      omega

/-- Bit k of a medium is bit 7 − (k mod 8) of byte k div 8 (00_scope.md R10). -/
theorem mediumBits_getElem? (m : List Byte) {k : Nat} (h : k < 8 * m.length) :
    (mediumBits m)[k]? = some ((m.getD (k / 8) 0).getLsbD (7 - k % 8)) := by
  induction m generalizing k with
  | nil => simp at h
  | cons b rest ih =>
    rw [mediumBits_cons]
    by_cases hk : k < 8
    · rw [List.getElem?_append_left (by simpa using hk), byteBits, natBits_getElem? hk,
        Nat.div_eq_of_lt hk, Nat.mod_eq_of_lt hk]
      rfl
    · rw [List.length_cons] at h
      rw [List.getElem?_append_right (by simpa using hk), byteBits_length, ih (by omega),
        show k / 8 = (k - 8) / 8 + 1 by omega, show k % 8 = (k - 8) % 8 by omega, List.getD_cons_succ]

/-! ### Packing -/

@[simp] theorem packBits_nil : packBits [] = [] := rfl

@[simp] theorem packBits_length (bits : List Bool) : (packBits bits).length = (bits.length + 7) / 8 := by
  simp [packBits]

/-- Packing peels off one whole byte. -/
theorem packBits_cons (b : Byte) (bits : List Bool) : packBits (byteBits b ++ bits) = b :: packBits bits := by
  unfold packBits
  rw [show ((byteBits b ++ bits).length + 7) / 8 = (bits.length + 7) / 8 + 1 by
    rw [List.length_append, byteBits_length]; omega, List.range_succ_eq_map, List.map_cons, List.map_map]
  refine congrArg₂ List.cons ?_ ?_
  · rw [Nat.mul_zero, List.drop_zero, List.append_assoc, List.take_append_of_le_length (by simp),
      List.take_of_length_le (by simp), ofNat_bitsNat_byteBits]
  · refine List.map_congr_left fun i _ => ?_
    simp only [Function.comp_apply]
    rw [List.append_assoc, show 8 * i.succ = (byteBits b).length + 8 * i by rw [byteBits_length]; omega,
      List.drop_append, List.drop_of_length_le (by omega), Nat.add_sub_cancel_left, List.nil_append]

/-- Packing the bits of a medium gives the medium back. -/
theorem packBits_mediumBits (m : List Byte) (bits : List Bool) :
    packBits (mediumBits m ++ bits) = m ++ packBits bits := by
  induction m with
  | nil => rfl
  | cons b rest ih => rw [mediumBits_cons, List.append_assoc, packBits_cons, ih, List.cons_append]

/-- A partial last byte, zero-padded. -/
theorem packBits_partial {v n : Nat} (h0 : 0 < n) (h8 : n < 8) (hv : v < 2 ^ n) :
    packBits (natBits v n) = [BitVec.ofNat 8 (v * 2 ^ (8 - n))] := by
  unfold packBits
  rw [natBits_length, show (n + 7) / 8 = 1 by omega]
  simp only [List.range_one, List.map_cons, List.map_nil, Nat.mul_zero, List.drop_zero]
  rw [List.take_append, natBits_length, List.take_of_length_le (by simp; omega), List.take_replicate,
    show min (8 - n) 7 = 8 - n by omega, bitsNat_append, bitsNat_natBits, Nat.mod_eq_of_lt hv,
    List.length_replicate, bitsNat_replicate_false, Nat.add_zero]

/-- The bits of a packed sequence are the sequence and its padding (40_bitstream.md R152). -/
theorem mediumBits_packBits (bits : List Bool) :
    mediumBits (packBits bits) = bits ++ List.replicate ((8 - bits.length % 8) % 8) false := by
  induction hn : bits.length using Nat.strong_induction_on generalizing bits with
  | _ n ih =>
    by_cases h8 : 8 ≤ bits.length
    · obtain ⟨b, hb⟩ : ∃ b, byteBits b = bits.take 8 := by
        refine ⟨BitVec.ofNat 8 (bitsNat (bits.take 8)), ?_⟩
        rw [byteBits_ofNat]
        exact natBits_bitsNat (by simp; omega)
      have hsplit : bits = byteBits b ++ bits.drop 8 := by rw [hb, List.take_append_drop]
      have hrec := ih (bits.drop 8).length (by simp; omega) (bits.drop 8) rfl
      rw [List.length_drop] at hrec
      conv_lhs => rw [hsplit, packBits_cons, mediumBits_cons, hrec, ← List.append_assoc, ← hsplit]
      rw [show (bits.length - 8) % 8 = n % 8 by omega]
    · by_cases h0 : bits.length = 0
      · rw [List.length_eq_zero_iff] at h0
        subst h0
        simp at hn
        subst hn
        simp
      · have hv := bitsNat_lt bits
        have hp := packBits_partial (v := bitsNat bits) (n := bits.length) (by omega) (by omega) hv
        rw [natBits_bitsNat rfl] at hp
        rw [hp, mediumBits_cons, mediumBits_nil, List.append_nil, byteBits_ofNat, ← hn,
          show (8 - bits.length % 8) % 8 = 8 - bits.length by omega]
        have hz : bitsNat (bits ++ List.replicate (8 - bits.length) false) = bitsNat bits * 2 ^ (8 - bits.length) := by
          rw [bitsNat_append, bitsNat_replicate_false, List.length_replicate, Nat.add_zero]
        rw [← hz]
        exact natBits_bitsNat (by simp; omega)

end Sys2Proof.Machine
end

