-- ==== Sys2Proof/Laws/BitStream.lean ====
section
/-! SUPPORT. What the micro-operations of the bit-stream unit can do (40_bitstream.md R137 to R152): every writer
operation is a run of bits, a writer run and closed is its bits packed, a reader operation takes bits off the front
of what is left. Callers cite these and never unfold a micro-operation. -/

namespace Sys2Proof.Machine

/-! ### The writer -/

/-- The writer's own bounds (40_bitstream.md R133). -/
structure Writer.Ok (w : Writer) : Prop where
  wn_lt : w.wn < 8
  wbuf_lt : w.wbuf < 2 ^ w.wn
  wcount_eq : w.wcount = w.stored.length
  wcount_le : w.wcount ≤ w.cap

/-- The bits written so far, in order. -/
def Writer.written (w : Writer) : List Bool := mediumBits w.bytes ++ natBits w.wbuf w.wn

theorem Writer.opened_ok (cap : Nat) : (Writer.opened cap).Ok :=
  ⟨by simp [Writer.opened], by simp [Writer.opened], rfl, Nat.zero_le _⟩

@[simp] theorem Writer.opened_written (cap : Nat) : (Writer.opened cap).written = [] := rfl

@[simp] theorem Writer.opened_cap (cap : Nat) : (Writer.opened cap).cap = cap := rfl

theorem Writer.Ok.written_length {w : Writer} (h : w.Ok) : w.written.length = 8 * w.wcount + w.wn := by
  simp [Writer.written, Writer.bytes, h.wcount_eq]

theorem natBits_append_bit (v w : Nat) (b : Bool) : natBits (2 * v + b.toNat) (w + 1) = natBits v w ++ [b] := by
  have hl : (natBits v w ++ [b]).length = w + 1 := by simp
  rw [← natBits_bitsNat hl, bitsNat_append, bitsNat_natBits, bitsNat_cons, List.length_singleton,
    ← natBits_mod (2 * v + b.toNat) (Nat.le_refl (w + 1))]
  simp only [List.length_nil, pow_zero, mul_one, bitsNat_nil, add_zero, pow_one]
  congr 1
  have hb : b.toNat < 2 := by cases b <;> simp
  rw [Nat.pow_succ, Nat.mul_comm (2 ^ w) 2, Nat.mod_mul, show (2 * v + b.toNat) / 2 = v by omega]
  omega

/-- `writeBit` either writes the bit or, when it completes a byte that does not fit, faults OUT_OVERFLOW. -/
theorem Writer.writeBit_spec {w : Writer} (h : w.Ok) (b : Bool) :
    (w.written.length + 1 < 8 * (w.cap + 1) ∧
      ∃ w', w.writeBit b = .ok w' ∧ w'.Ok ∧ w'.cap = w.cap ∧ w'.written = w.written ++ [b]) ∨
    (8 * (w.cap + 1) ≤ w.written.length + 1 ∧ w.writeBit b = .error ⟨.outOverflow, 0⟩) := by
  obtain ⟨hn, hb, hc, hcap⟩ := h
  have hlen : w.written.length = 8 * w.wcount + w.wn := Writer.Ok.written_length ⟨hn, hb, hc, hcap⟩
  have hbit : b.toNat < 2 := by cases b <;> simp
  unfold Writer.writeBit
  by_cases h8 : w.wn + 1 = 8
  · rw [if_pos h8]
    by_cases hfull : w.wcount = w.cap
    · exact .inr ⟨by omega, by simp [Writer.storeByte, hfull, bind, Except.bind]⟩
    · refine .inl ⟨by omega, ?_⟩
      refine ⟨⟨w.cap, BitVec.ofNat 8 (2 * w.wbuf + b.toNat) :: w.stored, w.wcount + 1, 0, 0⟩,
        by simp only [Writer.storeByte, if_neg hfull]; rfl, ⟨by simp, by simp, by simp [hc], ?_⟩, rfl, ?_⟩
      · show w.wcount + 1 ≤ w.cap
        omega
      · have : w.wn = 7 := by omega
        simp only [Writer.written, Writer.bytes, List.reverse_cons, mediumBits_append, mediumBits_cons, mediumBits_nil,
          List.append_nil, byteBits_ofNat]
        rw [natBits_append_bit, this, List.append_assoc]
        simp [natBits]
  · rw [if_neg h8]
    refine .inl ⟨by omega, _, rfl, ⟨?_, ?_, hc, hcap⟩, rfl, ?_⟩
    · show w.wn + 1 < 8
      omega
    · show 2 * w.wbuf + b.toNat < 2 ^ (w.wn + 1)
      rw [Nat.pow_succ]
      omega
    · simp only [Writer.written, Writer.bytes]
      rw [natBits_append_bit, List.append_assoc]

/-- A run of bits is written whole, or faults OUT_OVERFLOW where they complete more than BUF_CAP bytes. -/
theorem Writer.writeCode_spec {w : Writer} (h : w.Ok) (bits : List Bool) :
    (w.written.length + bits.length < 8 * (w.cap + 1) ∧
      ∃ w', w.writeCode bits = .ok w' ∧ w'.Ok ∧ w'.cap = w.cap ∧ w'.written = w.written ++ bits) ∨
    (8 * (w.cap + 1) ≤ w.written.length + bits.length ∧ w.writeCode bits = .error ⟨.outOverflow, 0⟩) := by
  induction bits generalizing w with
  | nil =>
    have := h.written_length
    have := h.wn_lt
    have := h.wcount_le
    exact .inl ⟨by simp only [List.length_nil]; omega, w, rfl, h, rfl, by simp⟩
  | cons b rest ih =>
    rcases Writer.writeBit_spec h b with ⟨hlt, w', he, hok, hcap, hw⟩ | ⟨hge, he⟩
    · have hstep : w.writeCode (b :: rest) = w'.writeCode rest := by
        rw [Writer.writeCode, he]
        rfl
      rw [hstep, List.length_cons]
      rcases ih hok with ⟨hlt', w'', he', hok', hcap', hw'⟩ | ⟨hge', he'⟩
      · rw [hw, List.length_append, List.length_singleton, hcap] at hlt'
        exact .inl ⟨by omega, w'', he', hok', hcap'.trans hcap, by rw [hw', hw, List.append_assoc]; rfl⟩
      · rw [hw, List.length_append, List.length_singleton, hcap] at hge'
        exact .inr ⟨by omega, he'⟩
    · refine .inr ⟨by rw [List.length_cons]; omega, ?_⟩
      rw [Writer.writeCode, he]
      rfl

theorem Writer.writeCode_append (w : Writer) (l m : List Bool) :
    w.writeCode (l ++ m) = (w.writeCode l).bind (fun w => w.writeCode m) := by
  induction l generalizing w with
  | nil => rfl
  | cons b rest ih =>
    rw [List.cons_append, Writer.writeCode, Writer.writeCode]
    cases w.writeBit b with
    | error e => rfl
    | ok w' => exact ih w'

theorem Writer.writeBit_eq (w : Writer) (b : Bool) : w.writeBit b = w.writeCode [b] := by
  rw [Writer.writeCode]
  cases w.writeBit b <;> rfl

theorem Writer.writeBits_eq (w : Writer) (v n : Nat) : w.writeBits v n = w.writeCode (natBits v n) := by
  induction n generalizing w with
  | zero => rfl
  | succ n ih =>
    rw [Writer.writeBits, natBits, Writer.writeCode]
    cases w.writeBit (v.testBit n) with
    | error e => rfl
    | ok w' => exact ih w'

theorem Writer.writeByte_eq (w : Writer) (b : Byte) : w.writeByte b = w.writeCode (byteBits b) :=
  w.writeBits_eq _ _

theorem Writer.writeInt_eq (w : Writer) (v : Nat) : w.writeInt v = w.writeCode (natBits v 32) := by
  rw [Writer.writeInt, Writer.writeBits_eq, natBits_mod _ (Nat.le_refl 32)]

theorem Writer.writeLong_eq (w : Writer) (v : Nat) : w.writeLong v = w.writeCode (natBits v 64) := by
  rw [Writer.writeLong, Writer.writeBits_eq, natBits_mod _ (Nat.le_refl 64)]

theorem Writer.writeString_eq (w : Writer) (s : List Byte) : w.writeString s = w.writeCode (mediumBits s) := by
  induction s generalizing w with
  | nil => rfl
  | cons b rest ih =>
    rw [Writer.writeString, mediumBits_cons, Writer.writeCode_append, Writer.writeByte_eq]
    cases w.writeCode (byteBits b) with
    | error e => rfl
    | ok w' => exact ih w'

/-- Closing a writer answers its bits packed, or faults OUT_OVERFLOW where they do not fit. -/
theorem Writer.finish_eq {w : Writer} (h : w.Ok) :
    w.finish = if (w.written.length + 7) / 8 ≤ w.cap then .ok (packBits w.written) else .error ⟨.outOverflow, 0⟩ := by
  have hlen := h.written_length
  have hn := h.wn_lt
  have hcap := h.wcount_le
  unfold Writer.finish Writer.close
  by_cases h0 : 0 < w.wn
  · rw [if_pos h0]
    by_cases hfull : w.wcount = w.cap
    · rw [if_neg (by omega)]
      simp [Writer.storeByte, hfull, bind, Except.bind]
    · rw [if_pos (by omega)]
      simp only [Writer.storeByte, if_neg hfull, Writer.written, packBits_mediumBits]
      rw [packBits_partial h0 hn h.wbuf_lt]
      simp [bind, Except.bind, pure, Except.pure, Writer.bytes]
  · rw [if_neg h0, if_pos (by omega)]
    have : w.wn = 0 := by omega
    rw [Writer.written, this, natBits, packBits_mediumBits, packBits_nil, List.append_nil]
    rfl

/-- A command that writes `bits` from a freshly opened writer and closes it: the packed bytes, or OUT_OVERFLOW exactly
where they are more than BUF_CAP (40_bitstream.md R146, R152). -/
theorem Writer.run_eq (cap : Nat) (bits : List Bool) :
    ((Writer.opened cap).writeCode bits).bind Writer.finish =
      if (bits.length + 7) / 8 ≤ cap then .ok (packBits bits) else .error ⟨.outOverflow, 0⟩ := by
  rcases Writer.writeCode_spec (Writer.opened_ok cap) bits with ⟨hlt, w, he, hok, hcap, hw⟩ | ⟨hge, he⟩
  · rw [he]
    show w.finish = _
    rw [Writer.finish_eq hok, hw, hcap]
    rfl
  · rw [he, if_neg (by simp at hge; omega)]
    rfl

/-! ### The reader -/

/-- The bits not yet read. -/
def Reader.rest (r : Reader) : List Bool := (mediumBits r.medium).drop r.pos

@[simp] theorem Reader.opened_rest (m : List Byte) : (Reader.opened m).rest = mediumBits m := rfl

/-- The reader with its cursor moved on by `k` bits. -/
def Reader.skip (r : Reader) (k : Nat) : Reader := { r with pos := r.pos + k }

@[simp] theorem Reader.skip_pos (r : Reader) (k : Nat) : (r.skip k).pos = r.pos + k := rfl

@[simp] theorem Reader.skip_medium (r : Reader) (k : Nat) : (r.skip k).medium = r.medium := rfl

@[simp] theorem Reader.skip_skip (r : Reader) (j k : Nat) : (r.skip j).skip k = r.skip (j + k) := by
  simp [Reader.skip, Nat.add_assoc]

@[simp] theorem Reader.skip_zero (r : Reader) : r.skip 0 = r := rfl

@[simp] theorem Reader.rest_skip (r : Reader) (k : Nat) : (r.skip k).rest = r.rest.drop k := by
  simp [Reader.rest, Reader.skip, List.drop_drop]

theorem Reader.bitsLeft_eq (r : Reader) : r.bitsLeft = r.rest.length := by
  simp [Reader.bitsLeft, Reader.rest]

theorem Reader.field_eq (r : Reader) {w : Nat} (h : w ≤ r.rest.length) : r.field r.pos w = bitsNat (r.rest.take w) := by
  induction w with
  | zero => rfl
  | succ w ih =>
    have hlt : r.pos + w < 8 * r.medium.length := by
      rw [Reader.rest, List.length_drop, mediumBits_length] at h
      omega
    have hbit : r.rest[w]? = some (r.bitAt (r.pos + w)) := by
      rw [Reader.rest, List.getElem?_drop, mediumBits_getElem? _ hlt]
      rfl
    rw [Reader.field, ih (by omega), List.take_add_one, hbit, Option.toList_some, bitsNat_append, bitsNat_cons]
    simp [Nat.mul_comm]

/-- `readBits(w)` takes w bits off the front of what is left, or faults EOS and takes none (40_bitstream.md R137). -/
theorem Reader.readBits_eq (r : Reader) (w : Nat) :
    r.readBits w =
      if w ≤ r.rest.length then .ok (bitsNat (r.rest.take w), r.skip w) else .error ⟨.eos, r.pos⟩ := by
  unfold Reader.readBits
  rw [Reader.bitsLeft_eq]
  by_cases h : w ≤ r.rest.length
  · rw [if_neg (by omega), if_pos h, r.field_eq h]
    rfl
  · rw [if_pos (by omega), if_neg h]

/-- `readBits` of a field that was written. -/
theorem Reader.readBits_of_rest {r : Reader} {v w : Nat} {more : List Bool} (h : r.rest = natBits v w ++ more) :
    r.readBits w = .ok (v % 2 ^ w, r.skip w) := by
  rw [Reader.readBits_eq, h, if_pos (by simp), List.take_append_of_le_length (by simp),
    List.take_of_length_le (by simp), bitsNat_natBits]

theorem Reader.readBit_of_rest {r : Reader} {b : Bool} {more : List Bool} (h : r.rest = b :: more) :
    r.readBit = .ok (b, r.skip 1) := by
  unfold Reader.readBit
  rw [Reader.readBits_eq, h, if_pos (by simp)]
  cases b <;> rfl

theorem Reader.readBit_of_empty {r : Reader} (h : r.rest = []) : r.readBit = .error ⟨.eos, r.pos⟩ := by
  unfold Reader.readBit
  rw [Reader.readBits_eq, h, if_neg (by simp)]
  rfl

theorem Reader.readChar_of_rest {r : Reader} {b : Byte} {more : List Bool} (h : r.rest = byteBits b ++ more) :
    r.readChar = .ok (b, r.skip 8) := by
  unfold Reader.readChar
  rw [Reader.readBits_of_rest (v := b.toNat) h, Nat.mod_eq_of_lt b.isLt]
  simp [bind, Except.bind, pure, Except.pure]

/-- `readBytes(k)` of a string that was written. -/
theorem Reader.readBytes_of_rest {r : Reader} {s : List Byte} {more : List Bool}
    (h : r.rest = mediumBits s ++ more) : r.readBytes s.length = .ok (s, r.skip (8 * s.length)) := by
  unfold Reader.readBytes
  rw [Reader.bitsLeft_eq, h, if_neg (by simp)]
  induction s generalizing r with
  | nil => rfl
  | cons b rest ih =>
    rw [mediumBits_cons, List.append_assoc] at h
    rw [List.length_cons, Reader.readChars, Reader.readChar_of_rest h]
    have hrest : (r.skip 8).rest = mediumBits rest ++ more := by
      rw [Reader.rest_skip, h, List.drop_append, List.drop_of_length_le (by simp)]
      simp
    simp only [bind, Except.bind, ih hrest, Reader.skip_skip]
    rw [show 8 + 8 * rest.length = 8 * (rest.length + 1) by omega]
    rfl

/-- Empty is: nothing left, where the cursor is inside the medium (40_bitstream.md R136). -/
theorem Reader.isEmpty_iff {r : Reader} (h : r.pos ≤ 8 * r.medium.length) : r.isEmpty = true ↔ r.rest = [] := by
  rw [Reader.isEmpty, decide_eq_true_iff, ← List.length_eq_zero_iff, Reader.rest, List.length_drop, mediumBits_length]
  omega

end Sys2Proof.Machine
end

