-- ==== Sys2Proof/Laws/Codecs.lean ====
section
/-! SUPPORT. What the parts of the codecs can do, as bits: the trie serializer and the payload write the bits of
41_huffman.md R190, the trie parser and the trie lookup read them back, and a record is the bytes of 43_archive.md
R270. -/

namespace Sys2Proof.Machine

/-! ### Huffman -/

theorem Trie.serialize_eq (t : Trie) (w : Writer) : t.serialize w = w.writeCode t.bits := by
  induction t generalizing w with
  | leaf s =>
    rw [Trie.serialize, Trie.bits, Writer.writeCode]
    cases w.writeBit true with
    | error e => rfl
    | ok w' => exact w'.writeByte_eq s
  | node l r ihl ihr =>
    rw [Trie.serialize, Trie.bits, Writer.writeCode]
    cases w.writeBit false with
    | error e => rfl
    | ok w' =>
      show (l.serialize w' >>= fun w => r.serialize w) = w'.writeCode (l.bits ++ r.bits)
      rw [Writer.writeCode_append, ← ihl]
      cases l.serialize w' with
      | error e => rfl
      | ok w'' => exact ihr w''

theorem writePayload_eq (table : List (Byte × List Bool)) (input : List Byte) (w : Writer) :
    writePayload table input w = w.writeCode (input.flatMap (codeOf table)) := by
  induction input generalizing w with
  | nil => rfl
  | cons b rest ih =>
    rw [writePayload, List.flatMap_cons, Writer.writeCode_append]
    cases w.writeCode (codeOf table b) with
    | error e => rfl
    | ok w' => exact ih w'

/-- HUFF_ENC of a message with a trie writes the stream of 41_huffman.md R190, or faults OUT_OVERFLOW exactly where it
does not fit (R182). -/
theorem huffEncode_eq {cap : Nat} {input : List Byte} {t : Trie} (h : buildTrie (freqTable input) = some t) :
    huffEncode cap input =
      if ((huffBits t input).length + 7) / 8 ≤ cap then .ok (packBits (huffBits t input))
      else .error ⟨.outOverflow, 0⟩ := by
  rw [← Writer.run_eq, huffEncode, h]
  simp only [huffBits, payloadBits, Writer.writeCode_append, Trie.serialize_eq, Writer.writeInt_eq, writePayload_eq,
    bind]
  cases (Writer.opened cap).writeCode t.bits with
  | error e => rfl
  | ok w =>
    simp only [Except.bind]
    cases w.writeCode (natBits input.length 32) <;> rfl

theorem Trie.nodes_pos (t : Trie) : 0 < t.nodes := by
  cases t with
  | leaf s => exact Nat.one_pos
  | node l r => rw [Trie.nodes]; omega

/-- The parser reads a serialized trie of at most NODE_CAP nodes back (41_huffman.md R179, R185). -/
theorem parseTrie_of_rest (t : Trie) {fuel cnt : Nat} {r : Reader} {more : List Bool} (h : r.rest = t.bits ++ more)
    (hcap : cnt + t.nodes ≤ Config.nodeCap) (hfuel : t.nodes ≤ fuel) :
    parseTrie fuel cnt r = .ok (t, cnt + t.nodes, r.skip t.bits.length) := by
  induction t generalizing fuel cnt r more with
  | leaf s =>
    obtain ⟨fuel, rfl⟩ : ∃ k, fuel = k + 1 := ⟨fuel - 1, by simp only [Trie.nodes] at hfuel; omega⟩
    simp only [Trie.nodes] at hcap
    rw [Trie.bits, List.cons_append] at h
    have h8 : (r.skip 1).rest = byteBits s ++ more := by rw [Reader.rest_skip, h]; rfl
    rw [parseTrie, Reader.readBit_of_rest h]
    simp only [bind, Except.bind, if_neg (show ¬ cnt = Config.nodeCap by omega), if_true,
      Reader.readChar_of_rest h8, Reader.skip_skip]
    simp [pure, Except.pure, Trie.nodes, Trie.bits, Nat.add_comm]
  | node l r' ihl ihr =>
    obtain ⟨fuel, rfl⟩ : ∃ k, fuel = k + 1 := ⟨fuel - 1, by simp only [Trie.nodes] at hfuel; omega⟩
    simp only [Trie.nodes] at hcap hfuel
    have hl := l.nodes_pos
    have hr := r'.nodes_pos
    rw [Trie.bits, List.cons_append] at h
    have h1 : (r.skip 1).rest = l.bits ++ (r'.bits ++ more) := by
      rw [Reader.rest_skip, h, List.append_assoc]
      rfl
    have h2 : ((r.skip 1).skip l.bits.length).rest = r'.bits ++ more := by
      rw [Reader.rest_skip, h1, List.drop_left]
    rw [parseTrie, Reader.readBit_of_rest h]
    have hleft := ihl (fuel := fuel) h1 (show cnt + 1 + l.nodes ≤ Config.nodeCap by omega) (by omega)
    have hright := ihr (fuel := fuel) h2 (show cnt + 1 + l.nodes + r'.nodes ≤ Config.nodeCap by omega) (by omega)
    simp only [bind, Except.bind, if_neg (show ¬ cnt = Config.nodeCap by omega), Bool.false_eq_true, if_false, hleft,
      hright]
    simp only [pure, Except.pure, Reader.skip_skip, Trie.nodes, Trie.bits, List.length_cons, List.length_append]
    rw [show 1 + l.bits.length + r'.bits.length = l.bits.length + r'.bits.length + 1 by omega,
      show cnt + 1 + l.nodes + r'.nodes = cnt + (1 + l.nodes + r'.nodes) by omega]

/-- The table holds every code with the path walked so far in front. -/
theorem Trie.codes_append (t : Trie) (p q : List Bool) :
    t.codes (p ++ q) = (t.codes q).map (fun e => (e.1, p ++ e.2)) := by
  induction t generalizing q with
  | leaf s => rfl
  | node l r ihl ihr => simp only [Trie.codes, List.append_assoc, ihl, ihr, List.map_append]

/-- The trie lookup follows a code of the table to its symbol (41_huffman.md R178, R187). -/
theorem Trie.descend_of_code {t : Trie} {s : Byte} {code more : List Bool} {r : Reader}
    (hc : (s, code) ∈ t.codes []) (h : r.rest = code ++ more) : t.descend r = .ok (s, r.skip code.length) := by
  induction t generalizing r code more with
  | leaf s' =>
    simp only [Trie.codes, List.mem_singleton, Prod.mk.injEq] at hc
    obtain ⟨rfl, rfl⟩ := hc
    rfl
  | node left right ihl ihr =>
    rw [Trie.codes, List.mem_append, List.nil_append, List.nil_append, ← List.append_nil [false],
      ← List.append_nil [true], Trie.codes_append, Trie.codes_append] at hc
    rw [Trie.descend]
    rcases hc with hc | hc
    · obtain ⟨⟨s', code'⟩, hmem, heq⟩ := List.mem_map.1 hc
      simp only [List.singleton_append, Prod.mk.injEq] at heq
      obtain ⟨rfl, rfl⟩ := heq
      rw [Reader.readBit_of_rest h]
      have h1 : (r.skip 1).rest = code' ++ more := by rw [Reader.rest_skip, h]; rfl
      simp only [bind, Except.bind, Bool.false_eq_true, if_false, ihl hmem h1, Reader.skip_skip, List.length_cons,
        Nat.add_comm 1]
    · obtain ⟨⟨s', code'⟩, hmem, heq⟩ := List.mem_map.1 hc
      simp only [List.singleton_append, Prod.mk.injEq] at heq
      obtain ⟨rfl, rfl⟩ := heq
      rw [Reader.readBit_of_rest h]
      have h1 : (r.skip 1).rest = code' ++ more := by rw [Reader.rest_skip, h]; rfl
      simp only [bind, Except.bind, if_true, ihr hmem h1, Reader.skip_skip, List.length_cons, Nat.add_comm 1]

/-! ### Archive -/

theorem mediumBits_bigEndian (v w : Nat) : mediumBits (bigEndian v w) = natBits v (8 * w) := by
  induction w with
  | zero => rfl
  | succ w ih =>
    rw [bigEndian, mediumBits_cons, ih, byteBits_ofNat]
    apply List.ext_getElem?
    intro k
    by_cases hk : k < 8 * (w + 1)
    · rw [natBits_getElem? hk]
      by_cases h8 : k < 8
      · rw [List.getElem?_append_left (by simpa using h8), natBits_getElem? h8, Nat.testBit_div_two_pow]
        congr 2
        omega
      · rw [List.getElem?_append_right (by simp; omega), natBits_length, natBits_getElem? (by omega)]
        congr 2
        omega
    · rw [List.getElem?_eq_none (by simp; omega), List.getElem?_eq_none (by simp; omega)]

/-- One record is written as the bytes of 43_archive.md R270. -/
theorem writeRecord_eq (medium : List Byte) (d : Descriptor) (w : Writer)
    (hn : (slice medium d.nameOff d.nameLen).length = d.nameLen)
    (hc : (slice medium d.contentOff d.contentLen).length = d.contentLen) :
    writeRecord medium d w = w.writeCode (mediumBits (recordBytes (slice medium d.nameOff d.nameLen)
      (slice medium d.contentOff d.contentLen))) := by
  simp only [recordBytes, recordWith, mediumBits_append, mediumBits_cons, mediumBits_bigEndian, hn, hc, Nat.reduceMul]
  simp only [Writer.writeCode_append, writeRecord, Writer.writeInt_eq, Writer.writeByte_eq, Writer.writeString_eq,
    Writer.writeLong_eq]
  rfl

theorem slice_length {medium : List Byte} {off len : Nat} (h : off + len ≤ medium.length) :
    (slice medium off len).length = len := by
  simp [slice]
  omega

theorem firstBad_eq_none {n i : Nat} {ds : List Descriptor} :
    firstBad n i ds = none ↔ ∀ d ∈ ds, d.inMedium n = true := by
  induction ds generalizing i with
  | nil => simp [firstBad]
  | cons d rest ih =>
    rw [firstBad]
    split
    · next h => simp [ih, h]
    · next h => simp [h]

theorem writeRecords_eq {medium : List Byte} {ds : List Descriptor} (w : Writer)
    (h : ∀ d ∈ ds, d.inMedium medium.length = true) :
    writeRecords medium ds w = w.writeCode (mediumBits (archiveBytes (ds.map (Descriptor.record medium)))) := by
  induction ds generalizing w with
  | nil => rfl
  | cons d rest ih =>
    have hd := h d List.mem_cons_self
    simp only [Descriptor.inMedium, Bool.and_eq_true, decide_eq_true_eq] at hd
    rw [writeRecords, writeRecord_eq medium d w (slice_length hd.1) (slice_length hd.2)]
    rw [archiveBytes, List.map_cons, List.flatMap_cons, mediumBits_append, Writer.writeCode_append]
    simp only [Descriptor.record]
    cases w.writeCode (mediumBits (recordBytes (slice medium d.nameOff d.nameLen)
      (slice medium d.contentOff d.contentLen))) with
    | error e => rfl
    | ok w' => exact ih w' (fun d hd => h d (List.mem_cons_of_mem _ hd))

/-- ARC_FRAME of descriptors inside the medium writes the archive of 43_archive.md R270, or faults OUT_OVERFLOW exactly
where it does not fit (R276). -/
theorem arcFrame_eq {cap : Nat} {medium : List Byte} {ds : List Descriptor}
    (h : ∀ d ∈ ds, d.inMedium medium.length = true) :
    arcFrame cap medium ds =
      if (archiveBytes (ds.map (Descriptor.record medium))).length ≤ cap
      then .ok (archiveBytes (ds.map (Descriptor.record medium))) else .error ⟨.outOverflow, 0⟩ := by
  have hrun := Writer.run_eq cap (mediumBits (archiveBytes (ds.map (Descriptor.record medium))))
  have hp := packBits_mediumBits (archiveBytes (ds.map (Descriptor.record medium))) []
  rw [List.append_nil, packBits_nil, List.append_nil] at hp
  rw [hp, mediumBits_length, show ∀ n, (8 * n + 7) / 8 = n by omega] at hrun
  rw [← hrun, arcFrame, firstBad_eq_none.2 h, ← writeRecords_eq _ h]
  rfl

end Sys2Proof.Machine
end

