-- ==== Sys2Proof/Laws/State.lean ====
section
/-! SUPPORT. The fields of a state after each update, one lemma per field per update, so that no later proof unfolds
an update. -/

namespace Sys2Proof.Machine

/-! ### `State.setMem` -/

@[simp] theorem State.setMem_phase (s : State) (k : BufId) (m : Memory) :
    (s.setMem k m).phase = s.phase := rfl

@[simp] theorem State.setMem_cmd (s : State) (k : BufId) (m : Memory) :
    (s.setMem k m).cmd = s.cmd := rfl

@[simp] theorem State.setMem_done (s : State) (k : BufId) (m : Memory) :
    (s.setMem k m).done = s.done := rfl

@[simp] theorem State.setMem_fault (s : State) (k : BufId) (m : Memory) :
    (s.setMem k m).fault = s.fault := rfl

@[simp] theorem State.setMem_cause (s : State) (k : BufId) (m : Memory) :
    (s.setMem k m).cause = s.cause := rfl

@[simp] theorem State.setMem_faultPos (s : State) (k : BufId) (m : Memory) :
    (s.setMem k m).faultPos = s.faultPos := rfl

@[simp] theorem State.setMem_ie (s : State) (k : BufId) (m : Memory) :
    (s.setMem k m).ie = s.ie := rfl

@[simp] theorem State.setMem_len0 (s : State) (k : BufId) (m : Memory) :
    (s.setMem k m).len0 = s.len0 := rfl

@[simp] theorem State.setMem_len1 (s : State) (k : BufId) (m : Memory) :
    (s.setMem k m).len1 = s.len1 := rfl

@[simp] theorem State.setMem_recCount (s : State) (k : BufId) (m : Memory) :
    (s.setMem k m).recCount = s.recCount := rfl

@[simp] theorem State.setMem_buf0 (s : State) (k : BufId) (m : Memory) :
    (s.setMem k m).buf0 = if k = .buf0 then m else s.buf0 := rfl

@[simp] theorem State.setMem_buf1 (s : State) (k : BufId) (m : Memory) :
    (s.setMem k m).buf1 = if k = .buf1 then m else s.buf1 := rfl

@[simp] theorem State.setMem_recs (s : State) (k : BufId) (m : Memory) :
    (s.setMem k m).recs = s.recs := rfl

@[simp] theorem State.setMem_cfg (s : State) (k : BufId) (m : Memory) :
    (s.setMem k m).cfg = s.cfg := rfl

@[simp] theorem State.setMem_draws (s : State) (k : BufId) (m : Memory) :
    (s.setMem k m).draws = s.draws := rfl

@[simp] theorem State.setMem_turns (s : State) (k : BufId) (m : Memory) :
    (s.setMem k m).turns = s.turns := rfl

@[simp] theorem State.setMem_reply (s : State) (k : BufId) (m : Memory) :
    (s.setMem k m).reply = s.reply := rfl

/-! ### `State.setLen` -/

@[simp] theorem State.setLen_phase (s : State) (k : BufId) (v : Word) :
    (s.setLen k v).phase = s.phase := rfl

@[simp] theorem State.setLen_cmd (s : State) (k : BufId) (v : Word) :
    (s.setLen k v).cmd = s.cmd := rfl

@[simp] theorem State.setLen_done (s : State) (k : BufId) (v : Word) :
    (s.setLen k v).done = s.done := rfl

@[simp] theorem State.setLen_fault (s : State) (k : BufId) (v : Word) :
    (s.setLen k v).fault = s.fault := rfl

@[simp] theorem State.setLen_cause (s : State) (k : BufId) (v : Word) :
    (s.setLen k v).cause = s.cause := rfl

@[simp] theorem State.setLen_faultPos (s : State) (k : BufId) (v : Word) :
    (s.setLen k v).faultPos = s.faultPos := rfl

@[simp] theorem State.setLen_ie (s : State) (k : BufId) (v : Word) :
    (s.setLen k v).ie = s.ie := rfl

@[simp] theorem State.setLen_len0 (s : State) (k : BufId) (v : Word) :
    (s.setLen k v).len0 = if k = .buf0 then v else s.len0 := rfl

@[simp] theorem State.setLen_len1 (s : State) (k : BufId) (v : Word) :
    (s.setLen k v).len1 = if k = .buf1 then v else s.len1 := rfl

@[simp] theorem State.setLen_recCount (s : State) (k : BufId) (v : Word) :
    (s.setLen k v).recCount = s.recCount := rfl

@[simp] theorem State.setLen_buf0 (s : State) (k : BufId) (v : Word) :
    (s.setLen k v).buf0 = s.buf0 := rfl

@[simp] theorem State.setLen_buf1 (s : State) (k : BufId) (v : Word) :
    (s.setLen k v).buf1 = s.buf1 := rfl

@[simp] theorem State.setLen_recs (s : State) (k : BufId) (v : Word) :
    (s.setLen k v).recs = s.recs := rfl

@[simp] theorem State.setLen_cfg (s : State) (k : BufId) (v : Word) :
    (s.setLen k v).cfg = s.cfg := rfl

@[simp] theorem State.setLen_draws (s : State) (k : BufId) (v : Word) :
    (s.setLen k v).draws = s.draws := rfl

@[simp] theorem State.setLen_turns (s : State) (k : BufId) (v : Word) :
    (s.setLen k v).turns = s.turns := rfl

@[simp] theorem State.setLen_reply (s : State) (k : BufId) (v : Word) :
    (s.setLen k v).reply = s.reply := rfl

/-! ### `State.nextDraw` -/

@[simp] theorem State.nextDraw_phase (s : State) :
    (s.nextDraw).phase = s.phase := rfl

@[simp] theorem State.nextDraw_cmd (s : State) :
    (s.nextDraw).cmd = s.cmd := rfl

@[simp] theorem State.nextDraw_done (s : State) :
    (s.nextDraw).done = s.done := rfl

@[simp] theorem State.nextDraw_fault (s : State) :
    (s.nextDraw).fault = s.fault := rfl

@[simp] theorem State.nextDraw_cause (s : State) :
    (s.nextDraw).cause = s.cause := rfl

@[simp] theorem State.nextDraw_faultPos (s : State) :
    (s.nextDraw).faultPos = s.faultPos := rfl

@[simp] theorem State.nextDraw_ie (s : State) :
    (s.nextDraw).ie = s.ie := rfl

@[simp] theorem State.nextDraw_len0 (s : State) :
    (s.nextDraw).len0 = s.len0 := rfl

@[simp] theorem State.nextDraw_len1 (s : State) :
    (s.nextDraw).len1 = s.len1 := rfl

@[simp] theorem State.nextDraw_recCount (s : State) :
    (s.nextDraw).recCount = s.recCount := rfl

@[simp] theorem State.nextDraw_buf0 (s : State) :
    (s.nextDraw).buf0 = s.buf0 := rfl

@[simp] theorem State.nextDraw_buf1 (s : State) :
    (s.nextDraw).buf1 = s.buf1 := rfl

@[simp] theorem State.nextDraw_recs (s : State) :
    (s.nextDraw).recs = s.recs := rfl

@[simp] theorem State.nextDraw_cfg (s : State) :
    (s.nextDraw).cfg = s.cfg := rfl

@[simp] theorem State.nextDraw_draws (s : State) :
    (s.nextDraw).draws = s.draws + 1 := rfl

@[simp] theorem State.nextDraw_turns (s : State) :
    (s.nextDraw).turns = s.turns := rfl

@[simp] theorem State.nextDraw_reply (s : State) :
    (s.nextDraw).reply = s.reply := rfl

/-! ### `State.finish` -/

@[simp] theorem State.finish_phase (s : State) :
    (s.finish).phase = .idle := rfl

@[simp] theorem State.finish_cmd (s : State) :
    (s.finish).cmd = s.cmd := rfl

@[simp] theorem State.finish_done (s : State) :
    (s.finish).done = true := rfl

@[simp] theorem State.finish_fault (s : State) :
    (s.finish).fault = s.fault := rfl

@[simp] theorem State.finish_cause (s : State) :
    (s.finish).cause = s.cause := rfl

@[simp] theorem State.finish_faultPos (s : State) :
    (s.finish).faultPos = s.faultPos := rfl

@[simp] theorem State.finish_ie (s : State) :
    (s.finish).ie = s.ie := rfl

@[simp] theorem State.finish_len0 (s : State) :
    (s.finish).len0 = s.len0 := rfl

@[simp] theorem State.finish_len1 (s : State) :
    (s.finish).len1 = s.len1 := rfl

@[simp] theorem State.finish_recCount (s : State) :
    (s.finish).recCount = s.recCount := rfl

@[simp] theorem State.finish_buf0 (s : State) :
    (s.finish).buf0 = s.buf0 := rfl

@[simp] theorem State.finish_buf1 (s : State) :
    (s.finish).buf1 = s.buf1 := rfl

@[simp] theorem State.finish_recs (s : State) :
    (s.finish).recs = s.recs := rfl

@[simp] theorem State.finish_cfg (s : State) :
    (s.finish).cfg = s.cfg := rfl

@[simp] theorem State.finish_draws (s : State) :
    (s.finish).draws = s.draws := rfl

@[simp] theorem State.finish_turns (s : State) :
    (s.finish).turns = s.turns := rfl

@[simp] theorem State.finish_reply (s : State) :
    (s.finish).reply = s.reply := rfl

/-! ### `State.completeBuffer` -/

@[simp] theorem State.completeBuffer_phase (s : State) (dst : BufId) (out : List Byte) :
    (s.completeBuffer dst out).phase = .idle := rfl

@[simp] theorem State.completeBuffer_cmd (s : State) (dst : BufId) (out : List Byte) :
    (s.completeBuffer dst out).cmd = s.cmd := rfl

@[simp] theorem State.completeBuffer_done (s : State) (dst : BufId) (out : List Byte) :
    (s.completeBuffer dst out).done = true := rfl

@[simp] theorem State.completeBuffer_fault (s : State) (dst : BufId) (out : List Byte) :
    (s.completeBuffer dst out).fault = s.fault := rfl

@[simp] theorem State.completeBuffer_cause (s : State) (dst : BufId) (out : List Byte) :
    (s.completeBuffer dst out).cause = s.cause := rfl

@[simp] theorem State.completeBuffer_faultPos (s : State) (dst : BufId) (out : List Byte) :
    (s.completeBuffer dst out).faultPos = s.faultPos := rfl

@[simp] theorem State.completeBuffer_ie (s : State) (dst : BufId) (out : List Byte) :
    (s.completeBuffer dst out).ie = s.ie := rfl

@[simp] theorem State.completeBuffer_len0 (s : State) (dst : BufId) (out : List Byte) :
    (s.completeBuffer dst out).len0 = if dst = .buf0 then BitVec.ofNat 32 out.length else s.len0 := rfl

@[simp] theorem State.completeBuffer_len1 (s : State) (dst : BufId) (out : List Byte) :
    (s.completeBuffer dst out).len1 = if dst = .buf1 then BitVec.ofNat 32 out.length else s.len1 := rfl

@[simp] theorem State.completeBuffer_recCount (s : State) (dst : BufId) (out : List Byte) :
    (s.completeBuffer dst out).recCount = s.recCount := rfl

@[simp] theorem State.completeBuffer_buf0 (s : State) (dst : BufId) (out : List Byte) :
    (s.completeBuffer dst out).buf0 = if dst = .buf0 then (s.mem dst).writeAll 0 out else s.buf0 := rfl

@[simp] theorem State.completeBuffer_buf1 (s : State) (dst : BufId) (out : List Byte) :
    (s.completeBuffer dst out).buf1 = if dst = .buf1 then (s.mem dst).writeAll 0 out else s.buf1 := rfl

@[simp] theorem State.completeBuffer_recs (s : State) (dst : BufId) (out : List Byte) :
    (s.completeBuffer dst out).recs = s.recs := rfl

@[simp] theorem State.completeBuffer_cfg (s : State) (dst : BufId) (out : List Byte) :
    (s.completeBuffer dst out).cfg = s.cfg := rfl

@[simp] theorem State.completeBuffer_draws (s : State) (dst : BufId) (out : List Byte) :
    (s.completeBuffer dst out).draws = s.draws := rfl

@[simp] theorem State.completeBuffer_turns (s : State) (dst : BufId) (out : List Byte) :
    (s.completeBuffer dst out).turns = s.turns := rfl

@[simp] theorem State.completeBuffer_reply (s : State) (dst : BufId) (out : List Byte) :
    (s.completeBuffer dst out).reply = s.reply := rfl

/-! ### `State.completeRecords` -/

@[simp] theorem State.completeRecords_phase (s : State) (ds : List Descriptor) :
    (s.completeRecords ds).phase = .idle := rfl

@[simp] theorem State.completeRecords_cmd (s : State) (ds : List Descriptor) :
    (s.completeRecords ds).cmd = s.cmd := rfl

@[simp] theorem State.completeRecords_done (s : State) (ds : List Descriptor) :
    (s.completeRecords ds).done = true := rfl

@[simp] theorem State.completeRecords_fault (s : State) (ds : List Descriptor) :
    (s.completeRecords ds).fault = s.fault := rfl

@[simp] theorem State.completeRecords_cause (s : State) (ds : List Descriptor) :
    (s.completeRecords ds).cause = s.cause := rfl

@[simp] theorem State.completeRecords_faultPos (s : State) (ds : List Descriptor) :
    (s.completeRecords ds).faultPos = s.faultPos := rfl

@[simp] theorem State.completeRecords_ie (s : State) (ds : List Descriptor) :
    (s.completeRecords ds).ie = s.ie := rfl

@[simp] theorem State.completeRecords_len0 (s : State) (ds : List Descriptor) :
    (s.completeRecords ds).len0 = s.len0 := rfl

@[simp] theorem State.completeRecords_len1 (s : State) (ds : List Descriptor) :
    (s.completeRecords ds).len1 = s.len1 := rfl

@[simp] theorem State.completeRecords_recCount (s : State) (ds : List Descriptor) :
    (s.completeRecords ds).recCount = BitVec.ofNat 32 ds.length := rfl

@[simp] theorem State.completeRecords_buf0 (s : State) (ds : List Descriptor) :
    (s.completeRecords ds).buf0 = s.buf0 := rfl

@[simp] theorem State.completeRecords_buf1 (s : State) (ds : List Descriptor) :
    (s.completeRecords ds).buf1 = s.buf1 := rfl

@[simp] theorem State.completeRecords_recs (s : State) (ds : List Descriptor) :
    (s.completeRecords ds).recs = s.recs.writeDescs 0 ds := rfl

@[simp] theorem State.completeRecords_cfg (s : State) (ds : List Descriptor) :
    (s.completeRecords ds).cfg = s.cfg := rfl

@[simp] theorem State.completeRecords_draws (s : State) (ds : List Descriptor) :
    (s.completeRecords ds).draws = s.draws := rfl

@[simp] theorem State.completeRecords_turns (s : State) (ds : List Descriptor) :
    (s.completeRecords ds).turns = s.turns := rfl

@[simp] theorem State.completeRecords_reply (s : State) (ds : List Descriptor) :
    (s.completeRecords ds).reply = s.reply := rfl

/-! ### `State.recordFault` -/

@[simp] theorem State.recordFault_phase (s : State) (f : CmdFault) :
    (s.recordFault f).phase = .idle := rfl

@[simp] theorem State.recordFault_cmd (s : State) (f : CmdFault) :
    (s.recordFault f).cmd = s.cmd := rfl

@[simp] theorem State.recordFault_done (s : State) (f : CmdFault) :
    (s.recordFault f).done = false := rfl

@[simp] theorem State.recordFault_fault (s : State) (f : CmdFault) :
    (s.recordFault f).fault = true := rfl

@[simp] theorem State.recordFault_cause (s : State) (f : CmdFault) :
    (s.recordFault f).cause = f.cause := rfl

@[simp] theorem State.recordFault_faultPos (s : State) (f : CmdFault) :
    (s.recordFault f).faultPos = BitVec.ofNat 32 f.pos := rfl

@[simp] theorem State.recordFault_ie (s : State) (f : CmdFault) :
    (s.recordFault f).ie = s.ie := rfl

@[simp] theorem State.recordFault_len0 (s : State) (f : CmdFault) :
    (s.recordFault f).len0 = s.len0 := rfl

@[simp] theorem State.recordFault_len1 (s : State) (f : CmdFault) :
    (s.recordFault f).len1 = s.len1 := rfl

@[simp] theorem State.recordFault_recCount (s : State) (f : CmdFault) :
    (s.recordFault f).recCount = s.recCount := rfl

@[simp] theorem State.recordFault_buf0 (s : State) (f : CmdFault) :
    (s.recordFault f).buf0 = s.buf0 := rfl

@[simp] theorem State.recordFault_buf1 (s : State) (f : CmdFault) :
    (s.recordFault f).buf1 = s.buf1 := rfl

@[simp] theorem State.recordFault_recs (s : State) (f : CmdFault) :
    (s.recordFault f).recs = s.recs := rfl

@[simp] theorem State.recordFault_cfg (s : State) (f : CmdFault) :
    (s.recordFault f).cfg = s.cfg := rfl

@[simp] theorem State.recordFault_draws (s : State) (f : CmdFault) :
    (s.recordFault f).draws = s.draws := rfl

@[simp] theorem State.recordFault_turns (s : State) (f : CmdFault) :
    (s.recordFault f).turns = s.turns := rfl

@[simp] theorem State.recordFault_reply (s : State) (f : CmdFault) :
    (s.recordFault f).reply = s.reply := rfl

/-! ### `State.takeIllegal` -/

@[simp] theorem State.takeIllegal_phase (s : State) :
    (s.takeIllegal).phase = .idle := rfl

@[simp] theorem State.takeIllegal_cmd (s : State) :
    (s.takeIllegal).cmd = s.cmd := rfl

@[simp] theorem State.takeIllegal_done (s : State) :
    (s.takeIllegal).done = false := rfl

@[simp] theorem State.takeIllegal_fault (s : State) :
    (s.takeIllegal).fault = true := rfl

@[simp] theorem State.takeIllegal_cause (s : State) :
    (s.takeIllegal).cause = .illegalCmd := rfl

@[simp] theorem State.takeIllegal_faultPos (s : State) :
    (s.takeIllegal).faultPos = 0 := rfl

@[simp] theorem State.takeIllegal_ie (s : State) :
    (s.takeIllegal).ie = s.ie := rfl

@[simp] theorem State.takeIllegal_len0 (s : State) :
    (s.takeIllegal).len0 = s.len0 := rfl

@[simp] theorem State.takeIllegal_len1 (s : State) :
    (s.takeIllegal).len1 = s.len1 := rfl

@[simp] theorem State.takeIllegal_recCount (s : State) :
    (s.takeIllegal).recCount = s.recCount := rfl

@[simp] theorem State.takeIllegal_buf0 (s : State) :
    (s.takeIllegal).buf0 = s.buf0 := rfl

@[simp] theorem State.takeIllegal_buf1 (s : State) :
    (s.takeIllegal).buf1 = s.buf1 := rfl

@[simp] theorem State.takeIllegal_recs (s : State) :
    (s.takeIllegal).recs = s.recs := rfl

@[simp] theorem State.takeIllegal_cfg (s : State) :
    (s.takeIllegal).cfg = s.cfg := rfl

@[simp] theorem State.takeIllegal_draws (s : State) :
    (s.takeIllegal).draws = s.draws := rfl

@[simp] theorem State.takeIllegal_turns (s : State) :
    (s.takeIllegal).turns = s.turns := rfl

@[simp] theorem State.takeIllegal_reply (s : State) :
    (s.takeIllegal).reply = s.reply := rfl

/-! ### `State.clearFault` -/

@[simp] theorem State.clearFault_phase (s : State) :
    (s.clearFault).phase = s.phase := rfl

@[simp] theorem State.clearFault_cmd (s : State) :
    (s.clearFault).cmd = s.cmd := rfl

@[simp] theorem State.clearFault_done (s : State) :
    (s.clearFault).done = s.done := rfl

@[simp] theorem State.clearFault_fault (s : State) :
    (s.clearFault).fault = false := rfl

@[simp] theorem State.clearFault_cause (s : State) :
    (s.clearFault).cause = .none := rfl

@[simp] theorem State.clearFault_faultPos (s : State) :
    (s.clearFault).faultPos = 0 := rfl

@[simp] theorem State.clearFault_ie (s : State) :
    (s.clearFault).ie = s.ie := rfl

@[simp] theorem State.clearFault_len0 (s : State) :
    (s.clearFault).len0 = s.len0 := rfl

@[simp] theorem State.clearFault_len1 (s : State) :
    (s.clearFault).len1 = s.len1 := rfl

@[simp] theorem State.clearFault_recCount (s : State) :
    (s.clearFault).recCount = s.recCount := rfl

@[simp] theorem State.clearFault_buf0 (s : State) :
    (s.clearFault).buf0 = s.buf0 := rfl

@[simp] theorem State.clearFault_buf1 (s : State) :
    (s.clearFault).buf1 = s.buf1 := rfl

@[simp] theorem State.clearFault_recs (s : State) :
    (s.clearFault).recs = s.recs := rfl

@[simp] theorem State.clearFault_cfg (s : State) :
    (s.clearFault).cfg = s.cfg := rfl

@[simp] theorem State.clearFault_draws (s : State) :
    (s.clearFault).draws = s.draws := rfl

@[simp] theorem State.clearFault_turns (s : State) :
    (s.clearFault).turns = s.turns := rfl

@[simp] theorem State.clearFault_reply (s : State) :
    (s.clearFault).reply = s.reply := rfl

/-! ### `State.clearDone` -/

@[simp] theorem State.clearDone_phase (s : State) :
    (s.clearDone).phase = s.phase := rfl

@[simp] theorem State.clearDone_cmd (s : State) :
    (s.clearDone).cmd = s.cmd := rfl

@[simp] theorem State.clearDone_done (s : State) :
    (s.clearDone).done = false := rfl

@[simp] theorem State.clearDone_fault (s : State) :
    (s.clearDone).fault = s.fault := rfl

@[simp] theorem State.clearDone_cause (s : State) :
    (s.clearDone).cause = s.cause := rfl

@[simp] theorem State.clearDone_faultPos (s : State) :
    (s.clearDone).faultPos = s.faultPos := rfl

@[simp] theorem State.clearDone_ie (s : State) :
    (s.clearDone).ie = s.ie := rfl

@[simp] theorem State.clearDone_len0 (s : State) :
    (s.clearDone).len0 = s.len0 := rfl

@[simp] theorem State.clearDone_len1 (s : State) :
    (s.clearDone).len1 = s.len1 := rfl

@[simp] theorem State.clearDone_recCount (s : State) :
    (s.clearDone).recCount = s.recCount := rfl

@[simp] theorem State.clearDone_buf0 (s : State) :
    (s.clearDone).buf0 = s.buf0 := rfl

@[simp] theorem State.clearDone_buf1 (s : State) :
    (s.clearDone).buf1 = s.buf1 := rfl

@[simp] theorem State.clearDone_recs (s : State) :
    (s.clearDone).recs = s.recs := rfl

@[simp] theorem State.clearDone_cfg (s : State) :
    (s.clearDone).cfg = s.cfg := rfl

@[simp] theorem State.clearDone_draws (s : State) :
    (s.clearDone).draws = s.draws := rfl

@[simp] theorem State.clearDone_turns (s : State) :
    (s.clearDone).turns = s.turns := rfl

@[simp] theorem State.clearDone_reply (s : State) :
    (s.clearDone).reply = s.reply := rfl

/-! ### `State.latch` -/

@[simp] theorem State.latch_phase (s : State) (v : Word) :
    (s.latch v).phase = s.phase := rfl

@[simp] theorem State.latch_cmd (s : State) (v : Word) :
    (s.latch v).cmd = v := rfl

@[simp] theorem State.latch_done (s : State) (v : Word) :
    (s.latch v).done = false := rfl

@[simp] theorem State.latch_fault (s : State) (v : Word) :
    (s.latch v).fault = false := rfl

@[simp] theorem State.latch_cause (s : State) (v : Word) :
    (s.latch v).cause = .none := rfl

@[simp] theorem State.latch_faultPos (s : State) (v : Word) :
    (s.latch v).faultPos = 0 := rfl

@[simp] theorem State.latch_ie (s : State) (v : Word) :
    (s.latch v).ie = s.ie := rfl

@[simp] theorem State.latch_len0 (s : State) (v : Word) :
    (s.latch v).len0 = s.len0 := rfl

@[simp] theorem State.latch_len1 (s : State) (v : Word) :
    (s.latch v).len1 = s.len1 := rfl

@[simp] theorem State.latch_recCount (s : State) (v : Word) :
    (s.latch v).recCount = s.recCount := rfl

@[simp] theorem State.latch_buf0 (s : State) (v : Word) :
    (s.latch v).buf0 = s.buf0 := rfl

@[simp] theorem State.latch_buf1 (s : State) (v : Word) :
    (s.latch v).buf1 = s.buf1 := rfl

@[simp] theorem State.latch_recs (s : State) (v : Word) :
    (s.latch v).recs = s.recs := rfl

@[simp] theorem State.latch_cfg (s : State) (v : Word) :
    (s.latch v).cfg = s.cfg := rfl

@[simp] theorem State.latch_draws (s : State) (v : Word) :
    (s.latch v).draws = s.draws := rfl

@[simp] theorem State.latch_turns (s : State) (v : Word) :
    (s.latch v).turns = s.turns := rfl

@[simp] theorem State.latch_reply (s : State) (v : Word) :
    (s.latch v).reply = s.reply := rfl

/-! ### `State.applyReset` -/

@[simp] theorem State.applyReset_phase (s : State) :
    (s.applyReset).phase = .idle := rfl

@[simp] theorem State.applyReset_cmd (s : State) :
    (s.applyReset).cmd = 0 := rfl

@[simp] theorem State.applyReset_done (s : State) :
    (s.applyReset).done = false := rfl

@[simp] theorem State.applyReset_fault (s : State) :
    (s.applyReset).fault = false := rfl

@[simp] theorem State.applyReset_cause (s : State) :
    (s.applyReset).cause = .none := rfl

@[simp] theorem State.applyReset_faultPos (s : State) :
    (s.applyReset).faultPos = 0 := rfl

@[simp] theorem State.applyReset_ie (s : State) :
    (s.applyReset).ie = false := rfl

@[simp] theorem State.applyReset_len0 (s : State) :
    (s.applyReset).len0 = 0 := rfl

@[simp] theorem State.applyReset_len1 (s : State) :
    (s.applyReset).len1 = 0 := rfl

@[simp] theorem State.applyReset_recCount (s : State) :
    (s.applyReset).recCount = 0 := rfl

@[simp] theorem State.applyReset_buf0 (s : State) :
    (s.applyReset).buf0 = { cells := [], fill := s.draws } := rfl

@[simp] theorem State.applyReset_buf1 (s : State) :
    (s.applyReset).buf1 = { cells := [], fill := s.draws + 1 } := rfl

@[simp] theorem State.applyReset_recs (s : State) :
    (s.applyReset).recs = { words := [], fill := s.draws + 2 } := rfl

@[simp] theorem State.applyReset_cfg (s : State) :
    (s.applyReset).cfg = s.cfg := rfl

@[simp] theorem State.applyReset_draws (s : State) :
    (s.applyReset).draws = s.draws + 3 := rfl

@[simp] theorem State.applyReset_turns (s : State) :
    (s.applyReset).turns = s.turns := rfl

@[simp] theorem State.applyReset_reply (s : State) :
    (s.applyReset).reply = s.reply := rfl

/-! ### `State.invalidate` of buffer -/

@[simp] theorem State.invalidate_buffer_phase (s : State) (dst : BufId) :
    (s.invalidate (.buffer dst)).phase = s.phase := rfl

@[simp] theorem State.invalidate_buffer_cmd (s : State) (dst : BufId) :
    (s.invalidate (.buffer dst)).cmd = s.cmd := rfl

@[simp] theorem State.invalidate_buffer_done (s : State) (dst : BufId) :
    (s.invalidate (.buffer dst)).done = s.done := rfl

@[simp] theorem State.invalidate_buffer_fault (s : State) (dst : BufId) :
    (s.invalidate (.buffer dst)).fault = s.fault := rfl

@[simp] theorem State.invalidate_buffer_cause (s : State) (dst : BufId) :
    (s.invalidate (.buffer dst)).cause = s.cause := rfl

@[simp] theorem State.invalidate_buffer_faultPos (s : State) (dst : BufId) :
    (s.invalidate (.buffer dst)).faultPos = s.faultPos := rfl

@[simp] theorem State.invalidate_buffer_ie (s : State) (dst : BufId) :
    (s.invalidate (.buffer dst)).ie = s.ie := rfl

@[simp] theorem State.invalidate_buffer_len0 (s : State) (dst : BufId) :
    (s.invalidate (.buffer dst)).len0 = if dst = .buf0 then 0 else s.len0 := rfl

@[simp] theorem State.invalidate_buffer_len1 (s : State) (dst : BufId) :
    (s.invalidate (.buffer dst)).len1 = if dst = .buf1 then 0 else s.len1 := rfl

@[simp] theorem State.invalidate_buffer_recCount (s : State) (dst : BufId) :
    (s.invalidate (.buffer dst)).recCount = s.recCount := rfl

@[simp] theorem State.invalidate_buffer_buf0 (s : State) (dst : BufId) :
    (s.invalidate (.buffer dst)).buf0 = if dst = .buf0 then { cells := [], fill := s.draws } else s.buf0 := rfl

@[simp] theorem State.invalidate_buffer_buf1 (s : State) (dst : BufId) :
    (s.invalidate (.buffer dst)).buf1 = if dst = .buf1 then { cells := [], fill := s.draws } else s.buf1 := rfl

@[simp] theorem State.invalidate_buffer_recs (s : State) (dst : BufId) :
    (s.invalidate (.buffer dst)).recs = s.recs := rfl

@[simp] theorem State.invalidate_buffer_cfg (s : State) (dst : BufId) :
    (s.invalidate (.buffer dst)).cfg = s.cfg := rfl

@[simp] theorem State.invalidate_buffer_draws (s : State) (dst : BufId) :
    (s.invalidate (.buffer dst)).draws = s.draws + 1 := rfl

@[simp] theorem State.invalidate_buffer_turns (s : State) (dst : BufId) :
    (s.invalidate (.buffer dst)).turns = s.turns := rfl

@[simp] theorem State.invalidate_buffer_reply (s : State) (dst : BufId) :
    (s.invalidate (.buffer dst)).reply = s.reply := rfl

/-! ### `State.invalidate` of records -/

@[simp] theorem State.invalidate_records_phase (s : State) :
    (s.invalidate .records).phase = s.phase := rfl

@[simp] theorem State.invalidate_records_cmd (s : State) :
    (s.invalidate .records).cmd = s.cmd := rfl

@[simp] theorem State.invalidate_records_done (s : State) :
    (s.invalidate .records).done = s.done := rfl

@[simp] theorem State.invalidate_records_fault (s : State) :
    (s.invalidate .records).fault = s.fault := rfl

@[simp] theorem State.invalidate_records_cause (s : State) :
    (s.invalidate .records).cause = s.cause := rfl

@[simp] theorem State.invalidate_records_faultPos (s : State) :
    (s.invalidate .records).faultPos = s.faultPos := rfl

@[simp] theorem State.invalidate_records_ie (s : State) :
    (s.invalidate .records).ie = s.ie := rfl

@[simp] theorem State.invalidate_records_len0 (s : State) :
    (s.invalidate .records).len0 = s.len0 := rfl

@[simp] theorem State.invalidate_records_len1 (s : State) :
    (s.invalidate .records).len1 = s.len1 := rfl

@[simp] theorem State.invalidate_records_recCount (s : State) :
    (s.invalidate .records).recCount = 0 := rfl

@[simp] theorem State.invalidate_records_buf0 (s : State) :
    (s.invalidate .records).buf0 = s.buf0 := rfl

@[simp] theorem State.invalidate_records_buf1 (s : State) :
    (s.invalidate .records).buf1 = s.buf1 := rfl

@[simp] theorem State.invalidate_records_recs (s : State) :
    (s.invalidate .records).recs = { words := [], fill := s.draws } := rfl

@[simp] theorem State.invalidate_records_cfg (s : State) :
    (s.invalidate .records).cfg = s.cfg := rfl

@[simp] theorem State.invalidate_records_draws (s : State) :
    (s.invalidate .records).draws = s.draws + 1 := rfl

@[simp] theorem State.invalidate_records_turns (s : State) :
    (s.invalidate .records).turns = s.turns := rfl

@[simp] theorem State.invalidate_records_reply (s : State) :
    (s.invalidate .records).reply = s.reply := rfl

/-! ### `State.takeFault` of buffer -/

@[simp] theorem State.takeFault_buffer_phase (s : State) (dst : BufId) (f : CmdFault) :
    (s.takeFault (.buffer dst) f).phase = .idle := rfl

@[simp] theorem State.takeFault_buffer_cmd (s : State) (dst : BufId) (f : CmdFault) :
    (s.takeFault (.buffer dst) f).cmd = s.cmd := rfl

@[simp] theorem State.takeFault_buffer_done (s : State) (dst : BufId) (f : CmdFault) :
    (s.takeFault (.buffer dst) f).done = false := rfl

@[simp] theorem State.takeFault_buffer_fault (s : State) (dst : BufId) (f : CmdFault) :
    (s.takeFault (.buffer dst) f).fault = true := rfl

@[simp] theorem State.takeFault_buffer_cause (s : State) (dst : BufId) (f : CmdFault) :
    (s.takeFault (.buffer dst) f).cause = f.cause := rfl

@[simp] theorem State.takeFault_buffer_faultPos (s : State) (dst : BufId) (f : CmdFault) :
    (s.takeFault (.buffer dst) f).faultPos = BitVec.ofNat 32 f.pos := rfl

@[simp] theorem State.takeFault_buffer_ie (s : State) (dst : BufId) (f : CmdFault) :
    (s.takeFault (.buffer dst) f).ie = s.ie := rfl

@[simp] theorem State.takeFault_buffer_len0 (s : State) (dst : BufId) (f : CmdFault) :
    (s.takeFault (.buffer dst) f).len0 = if dst = .buf0 then 0 else s.len0 := rfl

@[simp] theorem State.takeFault_buffer_len1 (s : State) (dst : BufId) (f : CmdFault) :
    (s.takeFault (.buffer dst) f).len1 = if dst = .buf1 then 0 else s.len1 := rfl

@[simp] theorem State.takeFault_buffer_recCount (s : State) (dst : BufId) (f : CmdFault) :
    (s.takeFault (.buffer dst) f).recCount = s.recCount := rfl

@[simp] theorem State.takeFault_buffer_buf0 (s : State) (dst : BufId) (f : CmdFault) :
    (s.takeFault (.buffer dst) f).buf0 = if dst = .buf0 then { cells := [], fill := s.draws } else s.buf0 := rfl

@[simp] theorem State.takeFault_buffer_buf1 (s : State) (dst : BufId) (f : CmdFault) :
    (s.takeFault (.buffer dst) f).buf1 = if dst = .buf1 then { cells := [], fill := s.draws } else s.buf1 := rfl

@[simp] theorem State.takeFault_buffer_recs (s : State) (dst : BufId) (f : CmdFault) :
    (s.takeFault (.buffer dst) f).recs = s.recs := rfl

@[simp] theorem State.takeFault_buffer_cfg (s : State) (dst : BufId) (f : CmdFault) :
    (s.takeFault (.buffer dst) f).cfg = s.cfg := rfl

@[simp] theorem State.takeFault_buffer_draws (s : State) (dst : BufId) (f : CmdFault) :
    (s.takeFault (.buffer dst) f).draws = s.draws + 1 := rfl

@[simp] theorem State.takeFault_buffer_turns (s : State) (dst : BufId) (f : CmdFault) :
    (s.takeFault (.buffer dst) f).turns = s.turns := rfl

@[simp] theorem State.takeFault_buffer_reply (s : State) (dst : BufId) (f : CmdFault) :
    (s.takeFault (.buffer dst) f).reply = s.reply := rfl

/-! ### `State.takeFault` of records -/

@[simp] theorem State.takeFault_records_phase (s : State) (f : CmdFault) :
    (s.takeFault .records f).phase = .idle := rfl

@[simp] theorem State.takeFault_records_cmd (s : State) (f : CmdFault) :
    (s.takeFault .records f).cmd = s.cmd := rfl

@[simp] theorem State.takeFault_records_done (s : State) (f : CmdFault) :
    (s.takeFault .records f).done = false := rfl

@[simp] theorem State.takeFault_records_fault (s : State) (f : CmdFault) :
    (s.takeFault .records f).fault = true := rfl

@[simp] theorem State.takeFault_records_cause (s : State) (f : CmdFault) :
    (s.takeFault .records f).cause = f.cause := rfl

@[simp] theorem State.takeFault_records_faultPos (s : State) (f : CmdFault) :
    (s.takeFault .records f).faultPos = BitVec.ofNat 32 f.pos := rfl

@[simp] theorem State.takeFault_records_ie (s : State) (f : CmdFault) :
    (s.takeFault .records f).ie = s.ie := rfl

@[simp] theorem State.takeFault_records_len0 (s : State) (f : CmdFault) :
    (s.takeFault .records f).len0 = s.len0 := rfl

@[simp] theorem State.takeFault_records_len1 (s : State) (f : CmdFault) :
    (s.takeFault .records f).len1 = s.len1 := rfl

@[simp] theorem State.takeFault_records_recCount (s : State) (f : CmdFault) :
    (s.takeFault .records f).recCount = 0 := rfl

@[simp] theorem State.takeFault_records_buf0 (s : State) (f : CmdFault) :
    (s.takeFault .records f).buf0 = s.buf0 := rfl

@[simp] theorem State.takeFault_records_buf1 (s : State) (f : CmdFault) :
    (s.takeFault .records f).buf1 = s.buf1 := rfl

@[simp] theorem State.takeFault_records_recs (s : State) (f : CmdFault) :
    (s.takeFault .records f).recs = { words := [], fill := s.draws } := rfl

@[simp] theorem State.takeFault_records_cfg (s : State) (f : CmdFault) :
    (s.takeFault .records f).cfg = s.cfg := rfl

@[simp] theorem State.takeFault_records_draws (s : State) (f : CmdFault) :
    (s.takeFault .records f).draws = s.draws + 1 := rfl

@[simp] theorem State.takeFault_records_turns (s : State) (f : CmdFault) :
    (s.takeFault .records f).turns = s.turns := rfl

@[simp] theorem State.takeFault_records_reply (s : State) (f : CmdFault) :
    (s.takeFault .records f).reply = s.reply := rfl

/-! ### Access by buffer name -/

@[simp] theorem State.mem_buf0 (s : State) : s.mem .buf0 = s.buf0 := rfl

@[simp] theorem State.mem_buf1 (s : State) : s.mem .buf1 = s.buf1 := rfl

@[simp] theorem State.len_buf0 (s : State) : s.len .buf0 = s.len0 := rfl

@[simp] theorem State.len_buf1 (s : State) : s.len .buf1 = s.len1 := rfl

@[simp] theorem State.mem_setMem (s : State) (k : BufId) (m : Memory) (j : BufId) :
    (s.setMem k m).mem j = if k = j then m else s.mem j := by
  cases j <;> rfl

@[simp] theorem State.len_setMem (s : State) (k : BufId) (m : Memory) (j : BufId) :
    (s.setMem k m).len j = s.len j := by
  cases j <;> rfl

@[simp] theorem State.mem_setLen (s : State) (k : BufId) (v : Word) (j : BufId) :
    (s.setLen k v).mem j = s.mem j := by
  cases j <;> rfl

@[simp] theorem State.len_setLen (s : State) (k : BufId) (v : Word) (j : BufId) :
    (s.setLen k v).len j = if k = j then v else s.len j := by
  cases j <;> rfl

@[simp] theorem State.mem_nextDraw (s : State) (j : BufId) :
    (s.nextDraw).mem j = s.mem j := by
  cases j <;> rfl

@[simp] theorem State.len_nextDraw (s : State) (j : BufId) :
    (s.nextDraw).len j = s.len j := by
  cases j <;> rfl

@[simp] theorem State.mem_finish (s : State) (j : BufId) :
    (s.finish).mem j = s.mem j := by
  cases j <;> rfl

@[simp] theorem State.len_finish (s : State) (j : BufId) :
    (s.finish).len j = s.len j := by
  cases j <;> rfl

@[simp] theorem State.mem_completeBuffer (s : State) (dst : BufId) (out : List Byte) (j : BufId) :
    (s.completeBuffer dst out).mem j = if dst = j then (s.mem dst).writeAll 0 out else s.mem j := by
  cases j <;> rfl

@[simp] theorem State.len_completeBuffer (s : State) (dst : BufId) (out : List Byte) (j : BufId) :
    (s.completeBuffer dst out).len j = if dst = j then BitVec.ofNat 32 out.length else s.len j := by
  cases j <;> rfl

@[simp] theorem State.mem_completeRecords (s : State) (ds : List Descriptor) (j : BufId) :
    (s.completeRecords ds).mem j = s.mem j := by
  cases j <;> rfl

@[simp] theorem State.len_completeRecords (s : State) (ds : List Descriptor) (j : BufId) :
    (s.completeRecords ds).len j = s.len j := by
  cases j <;> rfl

@[simp] theorem State.mem_recordFault (s : State) (f : CmdFault) (j : BufId) :
    (s.recordFault f).mem j = s.mem j := by
  cases j <;> rfl

@[simp] theorem State.len_recordFault (s : State) (f : CmdFault) (j : BufId) :
    (s.recordFault f).len j = s.len j := by
  cases j <;> rfl

@[simp] theorem State.mem_takeIllegal (s : State) (j : BufId) :
    (s.takeIllegal).mem j = s.mem j := by
  cases j <;> rfl

@[simp] theorem State.len_takeIllegal (s : State) (j : BufId) :
    (s.takeIllegal).len j = s.len j := by
  cases j <;> rfl

@[simp] theorem State.mem_clearFault (s : State) (j : BufId) :
    (s.clearFault).mem j = s.mem j := by
  cases j <;> rfl

@[simp] theorem State.len_clearFault (s : State) (j : BufId) :
    (s.clearFault).len j = s.len j := by
  cases j <;> rfl

@[simp] theorem State.mem_clearDone (s : State) (j : BufId) :
    (s.clearDone).mem j = s.mem j := by
  cases j <;> rfl

@[simp] theorem State.len_clearDone (s : State) (j : BufId) :
    (s.clearDone).len j = s.len j := by
  cases j <;> rfl

@[simp] theorem State.mem_latch (s : State) (v : Word) (j : BufId) :
    (s.latch v).mem j = s.mem j := by
  cases j <;> rfl

@[simp] theorem State.len_latch (s : State) (v : Word) (j : BufId) :
    (s.latch v).len j = s.len j := by
  cases j <;> rfl

@[simp] theorem State.len_applyReset (s : State) (j : BufId) :
    (s.applyReset).len j = 0 := by
  cases j <;> rfl

@[simp] theorem State.mem_takeFault_buffer (s : State) (dst : BufId) (f : CmdFault) (j : BufId) :
    (s.takeFault (.buffer dst) f).mem j = if dst = j then { cells := [], fill := s.draws } else s.mem j := by
  cases j <;> rfl

@[simp] theorem State.len_takeFault_buffer (s : State) (dst : BufId) (f : CmdFault) (j : BufId) :
    (s.takeFault (.buffer dst) f).len j = if dst = j then 0 else s.len j := by
  cases j <;> rfl

@[simp] theorem State.mem_takeFault_records (s : State) (f : CmdFault) (j : BufId) :
    (s.takeFault .records f).mem j = s.mem j := by
  cases j <;> rfl

@[simp] theorem State.len_takeFault_records (s : State) (f : CmdFault) (j : BufId) :
    (s.takeFault .records f).len j = s.len j := by
  cases j <;> rfl

end Sys2Proof.Machine
end

