-- ==== Sys2Proof/Laws/Memory.lean ====
section
/-! SUPPORT. The laws of the sparse lists, the buffers and the record table: a read after a write, a write leaves
every other place alone, and every write keeps the canonical form. -/

namespace Sys2Proof.Machine

/-! ### Sparse lists -/

theorem findCell_putCell {α : Type} (a b : Nat) (v : α) (l : List (Nat × α)) :
    findCell b (putCell a v l) = if a = b then some v else findCell b l := by
  induction l with
  | nil => simp [putCell, findCell]
  | cons c rest ih =>
    obtain ⟨k, u⟩ := c
    unfold putCell
    split
    · simp [findCell]
    · split
      · subst_vars
        by_cases h : k = b <;> simp [findCell, h]
      · simp only [findCell, ih]
        by_cases h : k = b
        · have : ¬ a = b := by omega
          simp [h, this]
        · simp [h]

/-- An address listed after a write was listed before, or is the one written. -/
theorem mem_putCell {α : Type} {a : Nat} {v : α} {l : List (Nat × α)} {c : Nat × α}
    (h : c ∈ putCell a v l) : c = (a, v) ∨ c ∈ l := by
  induction l with
  | nil => simpa [putCell] using h
  | cons d rest ih =>
    obtain ⟨k, u⟩ := d
    unfold putCell at h
    split at h
    · simpa using h
    · split at h
      · rcases List.mem_cons.1 h with h | h
        · exact .inl h
        · exact .inr (List.mem_cons_of_mem _ h)
      · rcases List.mem_cons.1 h with h | h
        · exact .inr (h ▸ List.mem_cons_self)
        · rcases ih h with h | h
          · exact .inl h
          · exact .inr (List.mem_cons_of_mem _ h)

/-- A write keeps the canonical form. -/
theorem pairwise_putCell {α : Type} (a : Nat) (v : α) {l : List (Nat × α)}
    (h : l.Pairwise (fun p q => p.1 < q.1)) : (putCell a v l).Pairwise (fun p q => p.1 < q.1) := by
  induction l with
  | nil => simp [putCell]
  | cons c rest ih =>
    obtain ⟨k, u⟩ := c
    obtain ⟨hc, hrest⟩ := List.pairwise_cons.1 h
    unfold putCell
    split
    · next hak =>
      refine List.pairwise_cons.2 ⟨fun q hq => ?_, h⟩
      rcases List.mem_cons.1 hq with rfl | hq
      · exact hak
      · exact Nat.lt_trans hak (hc q hq)
    · split
      · next hak => exact List.pairwise_cons.2 ⟨fun q hq => hak ▸ hc q hq, hrest⟩
      · next h1 h2 =>
        refine List.pairwise_cons.2 ⟨fun q hq => ?_, ih hrest⟩
        rcases mem_putCell hq with rfl | hq
        · show k < a
          omega
        · exact hc q hq

/-! ### Buffers -/

@[simp] theorem Memory.write_fill (m : Memory) (a : Nat) (v : Byte) : (m.write a v).fill = m.fill := rfl

/-- A read after a write: the byte written at its address, every other byte as before. -/
theorem Memory.read_write (m : Memory) (a b : Nat) (v : Byte) :
    (m.write a v).read b = if a = b then v else m.read b := by
  unfold Memory.read Memory.write
  rw [findCell_putCell]
  split <;> rfl

theorem Memory.wf_write {m : Memory} (h : m.wf) (a : Nat) (v : Byte) : (m.write a v).wf :=
  pairwise_putCell a v h

@[simp] theorem Memory.writeAll_fill (m : Memory) (a : Nat) (bs : List Byte) :
    (m.writeAll a bs).fill = m.fill := by
  induction bs generalizing m a with
  | nil => rfl
  | cons b rest ih => simp [Memory.writeAll, ih]

theorem Memory.wf_writeAll {m : Memory} (h : m.wf) (a : Nat) (bs : List Byte) : (m.writeAll a bs).wf := by
  induction bs generalizing m a with
  | nil => exact h
  | cons b rest ih => exact ih (m.wf_write h a b) (a + 1)

/-- A read after a run of writes: the bytes written at their addresses, every other byte as before. -/
theorem Memory.read_writeAll (m : Memory) (a : Nat) (bs : List Byte) (b : Nat) :
    (m.writeAll a bs).read b = if a ≤ b then (bs[b - a]?).getD (m.read b) else m.read b := by
  induction bs generalizing m a with
  | nil => simp [Memory.writeAll]
  | cons v rest ih =>
    rw [Memory.writeAll, ih, Memory.read_write]
    rcases Nat.lt_trichotomy a b with h | h | h
    · have h1 : a ≠ b := by omega
      have h2 : b - a = (b - (a + 1)) + 1 := by omega
      simp only [h1, if_false, if_pos (show a + 1 ≤ b by omega), if_pos (show a ≤ b by omega), h2,
        List.getElem?_cons_succ]
    · subst h
      simp
    · rw [if_neg (show ¬ a + 1 ≤ b by omega), if_neg (show ¬ a = b by omega), if_neg (show ¬ a ≤ b by omega)]

/-- A run of writes that fits a buffer lists nothing beyond it. -/
theorem Memory.cells_writeAll_lt {m : Memory} {a cap : Nat} {bs : List Byte} (h : ∀ c ∈ m.cells, c.1 < cap)
    (hfit : a + bs.length ≤ cap) : ∀ c ∈ (m.writeAll a bs).cells, c.1 < cap := by
  induction bs generalizing m a with
  | nil => exact h
  | cons b rest ih =>
    simp only [List.length_cons] at hfit
    refine ih (fun c hc => ?_) (by omega)
    rcases mem_putCell hc with rfl | hc
    · show a < cap
      omega
    · exact h c hc

/-! ### The record table -/

@[simp] theorem RecTable.writeWord_fill (t : RecTable) (a : Nat) (v : Word) :
    (t.writeWord a v).fill = t.fill := rfl

theorem RecTable.readWord_writeWord (t : RecTable) (a b : Nat) (v : Word) :
    (t.writeWord a v).readWord b = if a = b then v else t.readWord b := by
  unfold RecTable.readWord RecTable.writeWord
  rw [findCell_putCell]
  split <;> rfl

theorem RecTable.wf_writeWord {t : RecTable} (h : t.wf) (a : Nat) (v : Word) : (t.writeWord a v).wf :=
  pairwise_putCell a v h

@[simp] theorem RecTable.writeDesc_fill (t : RecTable) (i : Nat) (d : Descriptor) :
    (t.writeDesc i d).fill = t.fill := rfl

theorem RecTable.wf_writeDesc {t : RecTable} (h : t.wf) (i : Nat) (d : Descriptor) : (t.writeDesc i d).wf :=
  wf_writeWord (wf_writeWord (wf_writeWord (wf_writeWord h _ _) _ _) _ _) _ _

/-- Writing a descriptor changes its own four words only. -/
theorem RecTable.readWord_writeDesc_of_ne (t : RecTable) {i a : Nat} (d : Descriptor) (h : a / 4 ≠ i) :
    (t.writeDesc i d).readWord a = t.readWord a := by
  simp only [RecTable.writeDesc, RecTable.readWord_writeWord]
  rw [if_neg (by omega), if_neg (by omega), if_neg (by omega), if_neg (by omega)]

/-- The fields of a descriptor fit REC's words. -/
def Descriptor.Fits (d : Descriptor) : Prop :=
  d.nameOff < 2 ^ 32 ∧ d.nameLen < 2 ^ 32 ∧ d.contentOff < 2 ^ 32 ∧ d.contentLen < 2 ^ 32

theorem RecTable.readDesc_writeDesc (t : RecTable) (i : Nat) {d : Descriptor} (h : d.Fits) :
    (t.writeDesc i d).readDesc i = d := by
  obtain ⟨no, nl, co, cl⟩ := d
  obtain ⟨h1, h2, h3, h4⟩ := h
  simp only at h1 h2 h3 h4
  simp [RecTable.readDesc, RecTable.writeDesc, RecTable.readWord_writeWord]
  omega

/-- A descriptor is its four words. -/
theorem RecTable.readDesc_congr {t u : RecTable} {i : Nat}
    (h : ∀ k, k < 4 → t.readWord (4 * i + k) = u.readWord (4 * i + k)) : t.readDesc i = u.readDesc i := by
  have h0 := h 0 (by omega)
  rw [Nat.add_zero] at h0
  unfold RecTable.readDesc
  rw [h0, h 1 (by omega), h 2 (by omega), h 3 (by omega)]

theorem RecTable.readDesc_writeDesc_of_ne (t : RecTable) {i j : Nat} (d : Descriptor) (h : i ≠ j) :
    (t.writeDesc i d).readDesc j = t.readDesc j := by
  simp only [RecTable.readDesc]
  rw [readWord_writeDesc_of_ne _ _ (by omega), readWord_writeDesc_of_ne _ _ (by omega),
    readWord_writeDesc_of_ne _ _ (by omega), readWord_writeDesc_of_ne _ _ (by omega)]

@[simp] theorem RecTable.writeDescs_fill (t : RecTable) (i : Nat) (ds : List Descriptor) :
    (t.writeDescs i ds).fill = t.fill := by
  induction ds generalizing t i with
  | nil => rfl
  | cons d rest ih => simp [RecTable.writeDescs, ih]

theorem RecTable.wf_writeDescs {t : RecTable} (h : t.wf) (i : Nat) (ds : List Descriptor) :
    (t.writeDescs i ds).wf := by
  induction ds generalizing t i with
  | nil => exact h
  | cons d rest ih => exact ih (t.wf_writeDesc h i d) (i + 1)

/-- A run of descriptors changes the words of its own entries only. -/
theorem RecTable.readWord_writeDescs_of_out (t : RecTable) {i a : Nat} (ds : List Descriptor)
    (h : a / 4 < i ∨ i + ds.length ≤ a / 4) : (t.writeDescs i ds).readWord a = t.readWord a := by
  induction ds generalizing t i with
  | nil => rfl
  | cons d rest ih =>
    simp only [List.length_cons] at h
    rw [RecTable.writeDescs, ih _ (by omega), readWord_writeDesc_of_ne _ _ (by omega)]

/-- A run of descriptors reads back. -/
theorem RecTable.readDesc_writeDescs (t : RecTable) {i j : Nat} {ds : List Descriptor}
    (hfit : ∀ d ∈ ds, d.Fits) (h : j < ds.length) : (t.writeDescs i ds).readDesc (i + j) = ds[j] := by
  induction ds generalizing t i j with
  | nil => simp at h
  | cons d rest ih =>
    rw [RecTable.writeDescs]
    cases j with
    | zero =>
      have hd := hfit d List.mem_cons_self
      have h : ((t.writeDesc i d).writeDescs (i + 1) rest).readDesc i = (t.writeDesc i d).readDesc i :=
        readDesc_congr fun k hk => readWord_writeDescs_of_out _ _ (by omega)
      exact h.trans (readDesc_writeDesc t i hd)
    | succ j =>
      have := ih (t.writeDesc i d) (i := i + 1) (fun d hd => hfit d (List.mem_cons_of_mem _ hd))
        (j := j) (by simpa using h)
      rw [show i + (j + 1) = i + 1 + j by omega, this]
      simp

/-- A write of a descriptor lists its own four words only. -/
theorem RecTable.words_writeDesc_lt {t : RecTable} {i cap : Nat} {d : Descriptor}
    (h : ∀ c ∈ t.words, c.1 < 4 * cap) (hi : i < cap) : ∀ c ∈ (t.writeDesc i d).words, c.1 < 4 * cap := by
  intro c hc
  simp only [RecTable.writeDesc, RecTable.writeWord] at hc
  rcases mem_putCell hc with rfl | hc
  · show 4 * i + 3 < 4 * cap
    omega
  rcases mem_putCell hc with rfl | hc
  · show 4 * i + 2 < 4 * cap
    omega
  rcases mem_putCell hc with rfl | hc
  · show 4 * i + 1 < 4 * cap
    omega
  rcases mem_putCell hc with rfl | hc
  · show 4 * i < 4 * cap
    omega
  exact h c hc

/-- A run of descriptors that fits the table lists nothing beyond it. -/
theorem RecTable.words_writeDescs_lt {t : RecTable} {i cap : Nat} {ds : List Descriptor}
    (h : ∀ c ∈ t.words, c.1 < 4 * cap) (hfit : i + ds.length ≤ cap) :
    ∀ c ∈ (t.writeDescs i ds).words, c.1 < 4 * cap := by
  induction ds generalizing t i with
  | nil => exact h
  | cons d rest ih =>
    simp only [List.length_cons] at hfit
    exact ih (words_writeDesc_lt h (by omega)) (by omega)

/-! ### The state's memories -/

theorem State.mem_setMem_self (s : State) (k : BufId) (m : Memory) : (s.setMem k m).mem k = m := by
  simp

/-- Only the buffer that is replaced reads differently. -/
theorem State.byteAt_setMem (s : State) (k j : BufId) (m : Memory) (a : Nat) :
    (s.setMem k m).byteAt j a = if k = j then m.read a else s.byteAt j a := by
  unfold State.byteAt
  rw [State.mem_setMem]
  split <;> rfl

/-- A completed command's output reads back from BUF[dst], and every other byte reads as before. -/
theorem State.byteAt_completeBuffer (s : State) (dst k : BufId) (out : List Byte) (a : Nat) :
    (s.completeBuffer dst out).byteAt k a =
      if dst = k then (out[a]?).getD (s.byteAt k a) else s.byteAt k a := by
  unfold State.byteAt
  rw [State.mem_completeBuffer]
  split
  · next h => subst h; simp [Memory.read_writeAll]
  · rfl

/-- After fault entry BUF[dst] reads the free bytes of the draw taken, every other buffer as before. -/
theorem State.byteAt_takeFault_buffer (s : State) (dst k : BufId) (f : CmdFault) (a : Nat) :
    (s.takeFault (.buffer dst) f).byteAt k a = if dst = k then Config.freeByte s.draws a else s.byteAt k a := by
  unfold State.byteAt
  rw [State.mem_takeFault_buffer]
  split <;> rfl

theorem State.byteAt_takeFault_records (s : State) (k : BufId) (f : CmdFault) (a : Nat) :
    (s.takeFault .records f).byteAt k a = s.byteAt k a := by
  unfold State.byteAt
  rw [State.mem_takeFault_records]

end Sys2Proof.Machine
end

