-- ==== Sys2Proof/Laws/Commands.lean ====
section
/-! SUPPORT. What running a command can do: `runCommand` has three outcomes, and each is one of the predicates of
Safety.lean (30_encoding.md R110, 60_exceptions.md R313, R315). -/

namespace Sys2Proof.Machine

/-! ### The three outcomes -/

/-- What a command can do: turned away, completed, or faulted. -/
theorem State.runCommand_cases {α : Type} (s : State) (i : Instr) (result : Except CmdFault α)
    (complete : State → α → State) :
    (s.admits i = false ∧ s.runCommand i result complete = s.takeIllegal) ∨
    (s.admits i = true ∧ ∃ out, result = .ok out ∧ s.runCommand i result complete = complete s out) ∨
    (s.admits i = true ∧ ∃ f, result = .error f ∧ s.runCommand i result complete = s.takeFault (outputOf i) f) := by
  unfold State.runCommand
  cases h : s.admits i with
  | false => exact .inl ⟨rfl, rfl⟩
  | true =>
    cases result with
    | ok out => exact .inr (.inl ⟨rfl, out, rfl, rfl⟩)
    | error f => exact .inr (.inr ⟨rfl, f, rfl, rfl⟩)

theorem State.runCommand_ok {α : Type} {s : State} {i : Instr} {result : Except CmdFault α} {out : α}
    {complete : State → α → State} (h : s.admits i = true) (hr : result = .ok out) :
    s.runCommand i result complete = complete s out := by
  unfold State.runCommand
  rw [h, hr]
  rfl

theorem State.runCommand_error {α : Type} {s : State} {i : Instr} {result : Except CmdFault α} {f : CmdFault}
    {complete : State → α → State} (h : s.admits i = true) (hr : result = .error f) :
    s.runCommand i result complete = s.takeFault (outputOf i) f := by
  unfold State.runCommand
  rw [h, hr]
  rfl

theorem State.runCommand_illegal {α : Type} {s : State} {i : Instr} {result : Except CmdFault α}
    {complete : State → α → State} (h : s.admits i = false) : s.runCommand i result complete = s.takeIllegal := by
  unfold State.runCommand
  rw [h]
  rfl

@[simp] theorem raised_ok {α : Type} (a : α) : raised (.ok a : Except CmdFault α) = none := rfl

@[simp] theorem raised_error {α : Type} (f : CmdFault) : raised (.error f : Except CmdFault α) = some f := rfl

/-- What a command does is decided by the fault its pseudocode raises: it enters that fault, or completes. -/
theorem State.runCommand_raised {α : Type} {s : State} {i : Instr} {result : Except CmdFault α}
    {complete : State → α → State} (h : s.admits i = true) :
    (∃ f, raised result = some f ∧ s.runCommand i result complete = s.takeFault (outputOf i) f) ∨
    (raised result = none ∧ ∃ out, result = .ok out ∧ s.runCommand i result complete = complete s out) := by
  rcases s.runCommand_cases i result complete with ⟨hf, _⟩ | ⟨_, out, rfl, hc⟩ | ⟨_, f, rfl, hc⟩
  · rw [h] at hf
    cases hf
  · exact .inr ⟨rfl, out, rfl, hc⟩
  · exact .inl ⟨f, rfl, hc⟩

/-! ### Admission -/

/-- The block admits a command exactly when 30_encoding.md R106 (c), (e) and (f) all fail. -/
theorem State.admits_iff (s : State) (i : Instr) :
    s.admits i = true ↔ i.wellFormed = true ∧ (s.len (srcOf i)).toNat ≤ s.cfg.bufCap ∧
      (readsRecords i = true → s.recCount.toNat ≤ s.cfg.recCap) := by
  unfold State.admits
  cases readsRecords i <;> simp [and_assoc]

@[simp] theorem State.input_length (s : State) (src : BufId) : (s.input src).length = (s.len src).toNat := by
  simp [State.input]

@[simp] theorem State.descriptors_length (s : State) : s.descriptors.length = s.recCount.toNat := by
  simp [State.descriptors]

/-- The source medium, byte by byte (40_bitstream.md R131). -/
theorem State.input_getElem? (s : State) (src : BufId) (a : Nat) :
    (s.input src)[a]? = if a < (s.len src).toNat then some (s.byteAt src a) else none := by
  unfold State.input
  rw [List.getElem?_map]
  split
  · next h => rw [List.getElem?_range h]; rfl
  · next h => rw [List.getElem?_eq_none (by simpa using h)]; rfl

/-! ### The outcomes as predicates -/

theorem State.completeBuffer_completesWith (s : State) (dst : BufId) {out : List Byte}
    (h : out.length < 2 ^ 32) : CompletesWith s (s.completeBuffer dst out) dst out where
  outside := ⟨rfl, rfl, rfl, rfl, rfl⟩
  status := ⟨rfl, rfl, rfl, rfl, rfl⟩
  records := ⟨rfl, fun _ => rfl⟩
  draws := rfl
  len := by simpa using h
  bytes a := by rw [State.byteAt_completeBuffer, if_pos rfl]
  others k hk :=
    ⟨by rw [State.len_completeBuffer, if_neg (Ne.symm hk)],
     fun a => by rw [State.byteAt_completeBuffer, if_neg (Ne.symm hk)]⟩

theorem State.completeRecords_completesWith (s : State) {ds : List Descriptor} (h : ds.length < 2 ^ 32)
    (hfit : ∀ d ∈ ds, d.Fits) : CompletesWithRecords s (s.completeRecords ds) ds where
  outside := ⟨rfl, rfl, rfl, rfl, rfl⟩
  status := ⟨rfl, rfl, rfl, rfl, rfl⟩
  draws := rfl
  count := by simpa using h
  listed i hi := by
    have := s.recs.readDesc_writeDescs (i := 0) hfit hi
    rwa [Nat.zero_add] at this
  beyond a ha := by
    rw [State.completeRecords_recs, RecTable.readWord_writeDescs_of_out]
    omega
  buffers k :=
    ⟨State.len_completeRecords s ds k,
     fun a => by unfold State.byteAt; rw [State.mem_completeRecords]⟩

theorem State.takeFault_faultsBuffer (s : State) (dst : BufId) (f : CmdFault) :
    FaultsBuffer s (s.takeFault (.buffer dst) f) dst f where
  outside := ⟨rfl, rfl, rfl, rfl, rfl⟩
  status := ⟨rfl, rfl, rfl, rfl, rfl⟩
  records := ⟨rfl, fun _ => rfl⟩
  len := by simp
  others k hk :=
    ⟨by rw [State.len_takeFault_buffer, if_neg (Ne.symm hk)],
     fun a => by rw [State.byteAt_takeFault_buffer, if_neg (Ne.symm hk)]⟩

theorem State.takeFault_faultsRecords (s : State) (f : CmdFault) :
    FaultsRecords s (s.takeFault .records f) f where
  outside := ⟨rfl, rfl, rfl, rfl, rfl⟩
  status := ⟨rfl, rfl, rfl, rfl, rfl⟩
  count := rfl
  buffers k := ⟨State.len_takeFault_records s f k, fun a => State.byteAt_takeFault_records s k f a⟩

theorem State.takeIllegal_faultsIllegal (s : State) : FaultsIllegal s s.takeIllegal where
  outside := ⟨rfl, rfl, rfl, rfl, rfl⟩
  status := ⟨rfl, rfl, rfl, rfl, rfl⟩
  records := ⟨rfl, fun _ => rfl⟩
  draws := rfl
  buffers k := ⟨State.len_takeIllegal s k, fun a => by unfold State.byteAt; rw [State.mem_takeIllegal]⟩

/-! ### What a step answers -/

/-- A command always answers a next state, the run of its pseudocode. -/
theorem exec_huffEnc (src dst : BufId) (s : State) :
    exec (.huffEnc src dst) s = .next (s.runCommand (.huffEnc src dst) (huffEncode s.cfg.bufCap (s.input src))
      (fun s out => s.completeBuffer dst out)) := rfl

theorem exec_huffDec (src dst : BufId) (s : State) :
    exec (.huffDec src dst) s = .next (s.runCommand (.huffDec src dst) (huffDecode s.cfg.bufCap (s.input src))
      (fun s out => s.completeBuffer dst out)) := rfl

theorem exec_lzwEnc (src dst : BufId) (s : State) :
    exec (.lzwEnc src dst) s = .next (s.runCommand (.lzwEnc src dst) (lzwEncode s.cfg (s.input src))
      (fun s out => s.completeBuffer dst out)) := rfl

theorem exec_lzwDec (src dst : BufId) (s : State) :
    exec (.lzwDec src dst) s = .next (s.runCommand (.lzwDec src dst) (lzwDecode s.cfg (s.input src))
      (fun s out => s.completeBuffer dst out)) := rfl

theorem exec_arcFrame (src dst : BufId) (s : State) :
    exec (.arcFrame src dst) s =
      .next (s.runCommand (.arcFrame src dst) (arcFrame s.cfg.bufCap (s.input src) s.descriptors)
        (fun s out => s.completeBuffer dst out)) := rfl

theorem exec_arcUnframe (src : BufId) (s : State) :
    exec (.arcUnframe src) s = .next (s.runCommand (.arcUnframe src) (arcUnframe s.cfg (s.input src))
      (fun s ds => s.completeRecords ds)) := rfl

end Sys2Proof.Machine
end

