-- ==== Sys2Proof/Laws/Outcomes.lean ====
section
/-! SUPPORT. What the pseudocode of each command can answer: an output within its bound, or a fault of one of the causes
60_exceptions.md R311 lists for the command. -/

namespace Sys2Proof.Machine

/-- `x` answers a value with `P`, or raises a fault whose cause is one of `cs`. -/
def Answers {α : Type} (x : Except CmdFault α) (P : α → Prop) (cs : List Cause) : Prop :=
  match x with
  | .ok a => P a
  | .error f => f.cause ∈ cs

theorem Answers.ok {α : Type} {a : α} {P : α → Prop} {cs : List Cause} (h : P a) :
    Answers (.ok a) P cs := h

theorem Answers.error {α : Type} {f : CmdFault} {P : α → Prop} {cs : List Cause} (h : f.cause ∈ cs) :
    Answers (.error f : Except CmdFault α) P cs := h

theorem Answers.bind {α β : Type} {x : Except CmdFault α} {f : α → Except CmdFault β} {P : α → Prop} {Q : β → Prop}
    {cs : List Cause} (hx : Answers x P cs) (hf : ∀ a, P a → Answers (f a) Q cs) : Answers (x >>= f) Q cs := by
  cases x with
  | ok a => exact hf a hx
  | error e => exact hx

theorem Answers.mono {α : Type} {x : Except CmdFault α} {P Q : α → Prop} {cs ds : List Cause} (hx : Answers x P cs)
    (hP : ∀ a, P a → Q a) (hcs : ∀ c ∈ cs, c ∈ ds) : Answers x Q ds := by
  cases x with
  | ok a => exact hP a hx
  | error e => exact hcs _ hx

/-! ### The writer -/

/-- The writer keeps its bounds and its capacity. -/
def Writer.Within (cap : Nat) (w : Writer) : Prop := w.Ok ∧ w.cap = cap

theorem Writer.opened_within (cap : Nat) : (Writer.opened cap).Within cap := ⟨Writer.opened_ok cap, rfl⟩

theorem Writer.writeCode_answers {cap : Nat} {w : Writer} (h : w.Within cap) (bits : List Bool) {cs : List Cause}
    (hc : .outOverflow ∈ cs) : Answers (w.writeCode bits) (Writer.Within cap) cs := by
  rcases Writer.writeCode_spec h.1 bits with ⟨_, w', he, hok, hcap, _⟩ | ⟨_, he⟩
  · rw [he]
    exact ⟨hok, hcap.trans h.2⟩
  · rw [he]
    exact hc

theorem Writer.finish_answers {cap : Nat} {w : Writer} (h : w.Within cap) {cs : List Cause}
    (hc : .outOverflow ∈ cs) : Answers w.finish (fun out => out.length ≤ cap) cs := by
  rw [Writer.finish_eq h.1]
  split
  · next hle =>
    rw [h.2] at hle
    exact Answers.ok (by rw [packBits_length]; exact hle)
  · exact hc

/-! ### The reader -/

/-- The reader reads this medium, and its cursor is inside it. -/
def Reader.On (medium : List Byte) (r : Reader) : Prop := r.medium = medium ∧ r.pos ≤ 8 * medium.length

theorem Reader.opened_on (medium : List Byte) : (Reader.opened medium).On medium := ⟨rfl, Nat.zero_le _⟩

theorem Reader.readBits_answers {medium : List Byte} {r : Reader} (h : r.On medium) (w : Nat) {cs : List Cause}
    (hc : .eos ∈ cs) :
    Answers (r.readBits w) (fun a => a.1 < 2 ^ w ∧ a.2.On medium ∧ a.2.pos = r.pos + w) cs := by
  rw [Reader.readBits_eq]
  split
  · next hw =>
    have hlen : (r.rest.take w).length = w := by simp [hw]
    have hlt := bitsNat_lt (r.rest.take w)
    rw [hlen] at hlt
    rw [Reader.rest, List.length_drop, mediumBits_length, h.1] at hw
    have := h.2
    exact Answers.ok ⟨hlt, ⟨h.1, by rw [Reader.skip_pos]; omega⟩, rfl⟩
  · exact hc

theorem Reader.readBit_answers {medium : List Byte} {r : Reader} (h : r.On medium) {cs : List Cause} (hc : .eos ∈ cs) :
    Answers r.readBit (fun a => a.2.On medium ∧ a.2.pos = r.pos + 1) cs :=
  (Reader.readBits_answers h 1 hc).bind fun _ ha => Answers.ok ha.2

theorem Reader.readChar_answers {medium : List Byte} {r : Reader} (h : r.On medium) {cs : List Cause} (hc : .eos ∈ cs) :
    Answers r.readChar (fun a => a.2.On medium ∧ a.2.pos = r.pos + 8) cs :=
  (Reader.readBits_answers h 8 hc).bind fun _ ha => Answers.ok ha.2

theorem Reader.readChars_answers {medium : List Byte} {r : Reader} (h : r.On medium) (k : Nat) {cs : List Cause}
    (hc : .eos ∈ cs) : Answers (r.readChars k) (fun a => a.2.On medium ∧ a.2.pos = r.pos + 8 * k) cs := by
  induction k generalizing r with
  | zero => exact Answers.ok ⟨h, rfl⟩
  | succ k ih =>
    refine (Reader.readChar_answers h hc).bind fun a ha => (ih ha.1).bind fun b hb => Answers.ok ⟨hb.1, ?_⟩
    rw [hb.2, ha.2]
    omega

theorem Reader.readBytes_answers {medium : List Byte} {r : Reader} (h : r.On medium) (k : Nat) {cs : List Cause}
    (hc : .eos ∈ cs) : Answers (r.readBytes k) (fun a => a.2.On medium ∧ a.2.pos = r.pos + 8 * k) cs := by
  unfold Reader.readBytes
  split
  · exact hc
  · exact Reader.readChars_answers h k hc

/-! ### Huffman -/

theorem huffEncode_answers (cap : Nat) (input : List Byte) :
    Answers (huffEncode cap input) (fun out => out.length ≤ cap) [.outOverflow] := by
  cases h : buildTrie (freqTable input) with
  | none =>
    unfold huffEncode
    rw [h]
    exact Writer.finish_answers (Writer.opened_within cap) (by simp)
  | some t =>
    rw [huffEncode_eq h]
    split
    · next hle => exact Answers.ok (by rw [packBits_length]; exact hle)
    · exact List.mem_singleton.2 rfl

theorem parseTrie_answers {medium : List Byte} (fuel cnt : Nat) {r : Reader} (h : r.On medium) {cs : List Cause}
    (he : .eos ∈ cs) (ht : .trieOverflow ∈ cs) : Answers (parseTrie fuel cnt r) (fun a => a.2.2.On medium) cs := by
  induction fuel generalizing cnt r with
  | zero => exact ht
  | succ fuel ih =>
    refine (Reader.readBit_answers h he).bind fun a ha => ?_
    dsimp only
    split
    · exact ht
    · split
      · exact (Reader.readChar_answers ha.1 he).bind fun b hb => Answers.ok hb.1
      · exact (ih _ ha.1).bind fun b hb => (ih _ hb).bind fun c hc => Answers.ok hc

theorem Trie.descend_answers {medium : List Byte} (t : Trie) {r : Reader} (h : r.On medium) {cs : List Cause}
    (he : .eos ∈ cs) : Answers (t.descend r) (fun a => a.2.On medium) cs := by
  induction t generalizing r with
  | leaf s => exact Answers.ok h
  | node left right ihl ihr =>
    refine (Reader.readBit_answers h he).bind fun a ha => ?_
    dsimp only
    split
    · exact ihr ha.1
    · exact ihl ha.1

theorem decodeSymbols_answers {medium : List Byte} {cap : Nat} (t : Trie) (len : Nat) {r : Reader} {w : Writer}
    (hr : r.On medium) (hw : w.Within cap) {cs : List Cause} (he : .eos ∈ cs) (ho : .outOverflow ∈ cs) :
    Answers (decodeSymbols t len r w) (Writer.Within cap) cs := by
  induction len generalizing r w with
  | zero => exact Answers.ok hw
  | succ len ih =>
    refine (t.descend_answers hr he).bind fun a ha => ?_
    dsimp only
    rw [Writer.writeByte_eq]
    exact (Writer.writeCode_answers hw _ ho).bind fun b hb => ih ha hb

theorem huffDecode_answers (cap : Nat) (medium : List Byte) :
    Answers (huffDecode cap medium) (fun out => out.length ≤ cap) [.eos, .badLength, .trieOverflow, .outOverflow] := by
  unfold huffDecode
  dsimp only
  split
  · exact Writer.finish_answers (Writer.opened_within cap) (by simp)
  · refine (parseTrie_answers _ _ (Reader.opened_on medium) (by simp) (by simp)).bind fun a ha => ?_
    refine (Reader.readBits_answers ha 32 (by simp)).bind fun b hb => ?_
    split
    · exact Answers.error (by simp)
    · exact (decodeSymbols_answers _ _ hb.2.1 (Writer.opened_within cap) (by simp) (by simp)).bind fun c hc =>
        Writer.finish_answers hc (by simp)

/-! ### LZW -/

theorem lzwEncodeLoop_answers {out : Nat} (width cap : Nat) (d : Dict) (cur : List Byte) (c : Nat) (input : List Byte)
    {w : Writer} (hw : w.Within out) {cs : List Cause} (ho : .outOverflow ∈ cs) :
    Answers (lzwEncodeLoop width cap d cur c input w) (Writer.Within out) cs := by
  induction input generalizing d cur c w with
  | nil =>
    rw [lzwEncodeLoop, Writer.writeBits_eq]
    exact Writer.writeCode_answers hw _ ho
  | cons b rest ih =>
    rw [lzwEncodeLoop]
    split
    · exact ih _ _ _ hw
    · rw [Writer.writeBits_eq]
      exact (Writer.writeCode_answers hw _ ho).bind fun w' hw' => ih _ _ _ hw'

theorem lzwEncode_answers (p : Params) (input : List Byte) :
    Answers (lzwEncode p input) (fun out => out.length ≤ p.bufCap) [.outOverflow] := by
  have hend : ∀ w : Writer, w.Within p.bufCap → Answers
      (w.writeBits Config.R p.W >>= fun w => w.finish) (fun out => out.length ≤ p.bufCap) [.outOverflow] := by
    intro w hw
    rw [Writer.writeBits_eq]
    exact (Writer.writeCode_answers hw _ (by simp)).bind fun w' hw' => Writer.finish_answers hw' (by simp)
  cases input with
  | nil => exact hend _ (Writer.opened_within _)
  | cons b rest =>
    exact (lzwEncodeLoop_answers p.W p.L Dict.seeded [b] b.toNat rest (Writer.opened_within p.bufCap)
      (by simp)).bind fun w hw => hend w hw

theorem lzwDecodeLoop_answers {medium : List Byte} {out : Nat} (width cap fuel : Nat) (d : Dict) (prev : List Byte)
    {r : Reader} {w : Writer} (hr : r.On medium) (hw : w.Within out) {cs : List Cause} (he : .eos ∈ cs)
    (hb : .badCodeword ∈ cs) (ho : .outOverflow ∈ cs) :
    Answers (lzwDecodeLoop width cap fuel d prev r w) (Writer.Within out) cs := by
  induction fuel generalizing d prev r w with
  | zero => exact he
  | succ fuel ih =>
    refine (Reader.readBits_answers hr width he).bind fun a ha => ?_
    dsimp only
    split
    · exact Answers.ok hw
    · split
      · exact hb
      · rw [Writer.writeString_eq]
        exact (Writer.writeCode_answers hw _ ho).bind fun w' hw' => ih _ _ ha.2.1 hw'

theorem lzwDecode_answers (p : Params) (medium : List Byte) :
    Answers (lzwDecode p medium) (fun out => out.length ≤ p.bufCap) [.eos, .badCodeword, .outOverflow] := by
  refine (Reader.readBits_answers (Reader.opened_on medium) p.W (by simp)).bind fun a ha => ?_
  dsimp only
  split
  · exact Writer.finish_answers (Writer.opened_within _) (by simp)
  · split
    · exact Answers.error (by simp)
    · rw [Writer.writeString_eq]
      refine (Writer.writeCode_answers (Writer.opened_within _) _ (by simp)).bind fun w hw => ?_
      exact (lzwDecodeLoop_answers _ _ _ _ _ ha.2.1 hw (by simp) (by simp) (by simp)).bind fun w' hw' =>
        Writer.finish_answers hw' (by simp)

/-! ### Archive -/

theorem arcFrame_answers (cap : Nat) (medium : List Byte) (ds : List Descriptor) :
    Answers (arcFrame cap medium ds) (fun out => out.length ≤ cap) [.outOverflow, .badRecord] := by
  cases h : firstBad medium.length 0 ds with
  | none =>
    rw [arcFrame_eq (firstBad_eq_none.1 h)]
    split
    · next hle => exact Answers.ok hle
    · exact Answers.error (by simp)
  | some i =>
    unfold arcFrame
    rw [h]
    exact Answers.error (by simp)

theorem readSeparator_answers {medium : List Byte} (check : Bool) {r : Reader} (h : r.On medium) {cs : List Cause}
    (he : .eos ∈ cs) (hs : check = true → .badSeparator ∈ cs) :
    Answers (readSeparator check r) (fun r' => r'.On medium ∧ r'.pos = r.pos + 8) cs := by
  refine (Reader.readChar_answers h he).bind fun a ha => ?_
  dsimp only
  split
  · next hv => exact hs (by simp_all)
  · exact Answers.ok ha

theorem readLength_answers {medium : List Byte} (w : Nat) {r : Reader} (h : r.On medium) {cs : List Cause}
    (he : .eos ∈ cs) (hb : .badLength ∈ cs) :
    Answers (readLength w r) (fun a => a.2.On medium ∧ a.2.pos = r.pos + w) cs := by
  refine (Reader.readBits_answers h w he).bind fun a ha => ?_
  dsimp only
  split
  · exact hb
  · exact Answers.ok ha.2

/-- A record read from a medium names bytes of it (43_archive.md R283). -/
theorem readRecord_answers {medium : List Byte} (check : Bool) {r : Reader} (h : r.On medium) {cs : List Cause}
    (he : .eos ∈ cs) (hb : .badLength ∈ cs) (hs : check = true → .badSeparator ∈ cs) :
    Answers (readRecord check r) (fun a => a.2.On medium ∧ r.pos < a.2.pos ∧ a.1.inMedium medium.length = true) cs := by
  refine (readLength_answers 32 h he hb).bind fun a ha => ?_
  refine (readSeparator_answers check ha.1 he hs).bind fun r1 h1 => ?_
  refine (Reader.readBytes_answers h1.1 a.1 he).bind fun b hb' => ?_
  refine (readSeparator_answers check hb'.1 he hs).bind fun r2 h2 => ?_
  refine (readLength_answers 64 h2.1 he hb).bind fun c hc => ?_
  refine (readSeparator_answers check hc.1 he hs).bind fun r3 h3 => ?_
  refine (Reader.readBytes_answers h3.1 c.1 he).bind fun e hE => ?_
  have h0 := hb'.1.2
  have h4 := hE.1.2
  refine Answers.ok ⟨hE.1, ?_, ?_⟩
  · show r.pos < e.2.pos
    rw [hE.2, h3.2, hc.2, h2.2, hb'.2, h1.2, ha.2]
    omega
  · rw [hb'.2] at h0
    rw [hE.2] at h4
    simp only [Descriptor.inMedium, Bool.and_eq_true, decide_eq_true_eq]
    omega

theorem readRecords_answers {medium : List Byte} (check : Bool) (room : Nat) {r : Reader} (h : r.On medium)
    {cs : List Cause} (he : .eos ∈ cs) (hb : .badLength ∈ cs) (hr : .recOverflow ∈ cs)
    (hs : check = true → .badSeparator ∈ cs) :
    Answers (readRecords check room r)
      (fun ds => ds.length ≤ room ∧ ∀ d ∈ ds, d.inMedium medium.length = true) cs := by
  induction room generalizing r with
  | zero =>
    rw [readRecords]
    split
    · exact Answers.ok ⟨Nat.le_refl _, by simp⟩
    · exact hr
  | succ room ih =>
    rw [readRecords]
    split
    · exact Answers.ok ⟨Nat.zero_le _, by simp⟩
    · refine (readRecord_answers check h he hb hs).bind fun a ha => (ih ha.1).bind fun ds hds => Answers.ok ⟨?_, ?_⟩
      · rw [List.length_cons]
        have := hds.1
        omega
      · intro d hd
        rcases List.mem_cons.1 hd with rfl | hd
        · exact ha.2.2
        · exact hds.2 d hd

/-- ARC_UNFRAME answers at most REC_CAP descriptors, each of bytes of the source medium, or faults; BAD_SEPARATOR "only
when SEP_CHECK" (60_exceptions.md R311). -/
theorem arcUnframe_answers (p : Params) (medium : List Byte) :
    Answers (arcUnframe p medium) (fun ds => ds.length ≤ p.recCap ∧ ∀ d ∈ ds, d.inMedium medium.length = true)
      ([.eos, .badLength, .recOverflow] ++ if p.sepCheck then [.badSeparator] else []) := by
  refine readRecords_answers _ _ (Reader.opened_on medium) (by simp) (by simp) (by simp) ?_
  intro hs
  rw [hs]
  simp

/-- A descriptor of bytes of a medium of less than 2^32 bytes fits the words of REC (43_archive.md R283). -/
theorem Descriptor.Fits.of_inMedium {n : Nat} {d : Descriptor} (h : d.inMedium n = true) (hn : n < 2 ^ 32) :
    d.Fits := by
  simp only [Descriptor.inMedium, Bool.and_eq_true, decide_eq_true_eq] at h
  refine ⟨?_, ?_, ?_, ?_⟩ <;> omega

end Sys2Proof.Machine
end

