-- ==== Sys2Proof/Laws/PerInstr.lean ====
section
/-! SUPPORT. Statements about the instruction as syntax, one lemma per constructor: the layout of its word
(30_encoding.md R100 to R105). -/

namespace Sys2Proof.Laws.EncodeLayout

/-- The OP number of a command, as the opcode map of 30_encoding.md R105 gives it. -/
def opcode : Instr → Nat
  | .huffEnc _ _ => 1
  | .huffDec _ _ => 2
  | .lzwEnc _ _ => 3
  | .lzwDec _ _ => 4
  | .arcFrame _ _ => 5
  | .arcUnframe _ => 6

/-- The word of a command has OP in bits 3:0 (R101) and zero in bits 31:6 (R104), and S and D name different buffers
exactly where the command is well-formed (R106 (c)); ARC_UNFRAME, always well-formed, has D = 0 (R106 (d)). -/
def Statement (i : Instr) : Prop :=
  (opField (encode i)).toNat = opcode i ∧ reservedField (encode i) = 0 ∧
    if opcode i = 6 then i.wellFormed = true ∧ (encode i).getLsbD 5 = false
    else (i.wellFormed = true ↔ srcField (encode i) ≠ dstField (encode i))

theorem huffEnc (src dst : BufId) : Statement (.huffEnc src dst) := by
  cases src <;> cases dst <;> unfold Statement <;> decide

theorem huffDec (src dst : BufId) : Statement (.huffDec src dst) := by
  cases src <;> cases dst <;> unfold Statement <;> decide

theorem lzwEnc (src dst : BufId) : Statement (.lzwEnc src dst) := by
  cases src <;> cases dst <;> unfold Statement <;> decide

theorem lzwDec (src dst : BufId) : Statement (.lzwDec src dst) := by
  cases src <;> cases dst <;> unfold Statement <;> decide

theorem arcFrame (src dst : BufId) : Statement (.arcFrame src dst) := by
  cases src <;> cases dst <;> unfold Statement <;> decide

theorem arcUnframe (src : BufId) : Statement (.arcUnframe src) := by
  cases src <;> unfold Statement <;> decide

end Sys2Proof.Laws.EncodeLayout
end

