-- ==== Sys2Proof/Laws/Units.lean ====
section
/-! SUPPORT. What the priority structure of the trie build (41_huffman.md R176), the dictionary (42_lzw.md R230 to R233)
and the reads of a cut stream (60_exceptions.md R314) can do. -/

namespace Sys2Proof.Machine

/-! ### The priority structure -/

theorem Pending.before_iff (x y : Pending) :
    x.before y = true ↔ x.wt < y.wt ∨ x.wt = y.wt ∧ x.idx < y.idx := by
  simp [Pending.before]

theorem Pending.before_trans {x y z : Pending} (h : x.before y = true) (h' : y.before z = true) :
    x.before z = true := by
  rw [Pending.before_iff] at *
  omega

theorem Pending.before_of_not {x y : Pending} (h : ¬ x.before y = true) (hne : x.idx ≠ y.idx) :
    y.before x = true := by
  rw [Pending.before_iff] at *
  omega

/-- Removing a node loses none. -/
theorem removeLeast_perm (x : Pending) (l : List Pending) :
    List.Perm (x :: l) ((removeLeast x l).1 :: (removeLeast x l).2) := by
  induction l generalizing x with
  | nil => exact List.Perm.refl _
  | cons y rest ih =>
    rw [removeLeast]
    split
    · exact ((ih y).cons x).trans (List.Perm.swap _ _ _)
    · exact (List.Perm.swap _ _ _).trans (((ih x).cons y).trans (List.Perm.swap _ _ _))

/-- The node removed is before every other, where the nodes have different indices (41_huffman.md R176). -/
theorem removeLeast_least (x : Pending) (l : List Pending)
    (h : ((x :: l).map Pending.idx).Nodup) : ∀ z ∈ (removeLeast x l).2, (removeLeast x l).1.before z = true := by
  induction l generalizing x with
  | nil => simp [removeLeast]
  | cons y rest ih =>
    have hxy : x.idx ≠ y.idx := by
      simp only [List.map_cons, List.nodup_cons, List.mem_cons, not_or] at h
      exact h.1.1
    have hy : ((y :: rest).map Pending.idx).Nodup := (List.nodup_cons.1 h).2
    have hx : ((x :: rest).map Pending.idx).Nodup := by
      simp only [List.map_cons, List.nodup_cons, List.mem_cons, not_or] at h ⊢
      exact ⟨h.1.2, h.2.2⟩
    have hmin : ∀ w, ((w :: rest).map Pending.idx).Nodup →
        (removeLeast w rest).1 = w ∨ (removeLeast w rest).1.before w = true := by
      intro w hw
      rcases List.mem_cons.1 ((removeLeast_perm w rest).mem_iff.1 List.mem_cons_self) with hm | hm
      · exact .inl hm.symm
      · exact .inr (ih w hw w hm)
    rw [removeLeast]
    split
    · next hb =>
      intro z hz
      rcases List.mem_cons.1 hz with rfl | hz
      · rcases hmin y hy with he | hlt
        · show (removeLeast y rest).1.before z = true
          rw [he]
          exact hb
        · exact Pending.before_trans hlt hb
      · exact ih y hy z hz
    · next hb =>
      have hxy' : x.before y = true := Pending.before_of_not hb (Ne.symm hxy)
      intro z hz
      rcases List.mem_cons.1 hz with rfl | hz
      · rcases hmin x hx with he | hlt
        · show (removeLeast x rest).1.before z = true
          rw [he]
          exact hxy'
        · exact Pending.before_trans hlt hxy'
      · exact ih x hx z hz

/-! ### The dictionary -/

theorem Dict.insert_of_full {d : Dict} {cap : Nat} (h : ¬ d.next < cap) (str : List Byte) : d.insert cap str = d :=
  if_neg h

theorem Dict.insert_of_lt {d : Dict} {cap : Nat} (h : d.next < cap) (str : List Byte) :
    d.insert cap str = { entries := (d.next, str) :: d.entries, next := d.next + 1 } :=
  if_pos h

/-- The codeword of a string after an insertion with room: the new codeword for the new string, else as before. -/
theorem Dict.codeword_insert {d : Dict} {cap : Nat} (h : d.next < cap) (str s : List Byte) :
    (d.insert cap str).codeword s = if str = s then some d.next else d.codeword s := by
  rw [Dict.insert_of_lt h]
  by_cases hs : str = s
  · simp [Dict.codeword, hs]
  · simp [Dict.codeword, hs]

/-- The one-byte strings are always defined (42_lzw.md R230). -/
theorem Dict.string_of_lt (d : Dict) {c : Nat} (h : c < Config.R) : d.string c = some [BitVec.ofNat 8 c] :=
  if_pos h

/-! ### The decoder's prefix -/

theorem Decoded.next_take (d : Decoded) (cap : Nat) (str : List Byte) :
    (d.take cap str).next = if d.next < cap then d.next + 1 else d.next := by
  unfold Decoded.take
  split
  · simp [Decoded.next]
    omega
  · rfl

/-- The reserved codeword R never resolves (42_lzw.md R230). -/
theorem Decoded.not_resolves_R (d : Decoded) (str : List Byte) : ¬ d.Resolves Config.R str := by
  rintro (⟨_, h⟩ | ⟨h, _⟩)
  · simp [Decoded.string] at h
  · simp only [Decoded.next] at h
    omega

/-- A prefix leaves what was written last as the previous string, never empty. -/
theorem DecodesTo.prev_ne_nil {cap : Nat} {cs : List Nat} {d : Decoded} (h : DecodesTo cap cs d) : d.prev ≠ [] := by
  suffices d.prev ≠ [] ∧ ∀ str ∈ d.table, str ≠ [] from this.1
  induction h with
  | first h => simp
  | @later cs d c str before resolves ih =>
    have hstr : str ≠ [] := by
      rcases resolves with ⟨_, h⟩ | ⟨_, rfl⟩
      · unfold Decoded.string at h
        split at h
        · cases h
          simp
        · split at h
          · exact ih.2 _ (List.mem_of_getElem? h)
          · cases h
      · simp [ih.1]
    refine ⟨hstr, ?_⟩
    unfold Decoded.take
    split
    · intro x hx
      rcases List.mem_append.1 hx with hx | hx
      · exact ih.2 x hx
      · rw [List.mem_singleton.1 hx]
        simp [ih.1]
    · exact ih.2

/-! ### The read that fails -/

theorem failingRead_fits {limit pos w : Nat} (h : pos + w ≤ limit) (rest : List Nat) :
    failingRead limit pos (w :: rest) = failingRead limit (pos + w) rest := if_pos h

theorem failingRead_stops {limit pos w : Nat} (h : limit < pos + w) (rest : List Nat) :
    failingRead limit pos (w :: rest) = pos := if_neg (Nat.not_le.2 h)

/-- Reads that all fit are passed. -/
theorem failingRead_append {limit pos : Nat} {ws : List Nat} (h : pos + ws.sum ≤ limit) (rest : List Nat) :
    failingRead limit pos (ws ++ rest) = failingRead limit (pos + ws.sum) rest := by
  induction ws generalizing pos with
  | nil => rfl
  | cons w ws ih =>
    rw [List.sum_cons] at h ⊢
    rw [List.cons_append, failingRead_fits (by omega), ih (by omega), Nat.add_assoc]

/-- The failing read starts no later than the end of the medium. -/
theorem failingRead_le {limit pos : Nat} (ws : List Nat) (h : pos ≤ limit) : failingRead limit pos ws ≤ limit := by
  induction ws generalizing pos with
  | nil => exact h
  | cons w ws ih =>
    rw [failingRead]
    split
    · next hw => exact ih hw
    · exact h

end Sys2Proof.Machine
end

