-- ==== Sys2Proof/Tests/Slice0.lean ====
section
/-! SUPPORT. Tests whose expected results come from the spec (95_test_vectors.md and the rules' own words), and for every
statement with hypotheses a witness that meets them together (one for each clause). -/

namespace Sys2Proof.Tests

open Sys2Proof Sys2Proof.Machine

/-! ### States for the tests -/

/-- Parameters for the tests: W = 9. -/
def params (bufCap recCap : Nat) (sepCheck : Bool) : Params := { W := 9, bufCap, recCap, sepCheck }

/-- The state after reset with these bytes in BUF0 and LEN0 set to their number. -/
def loaded (p : Params) (bytes : List Byte) : State :=
  { State.reset with
    cfg := p
    len0 := BitVec.ofNat 32 bytes.length
    buf0 := State.reset.buf0.writeAll 0 bytes }

/-- The same with these descriptors in REC and REC_COUNT set to their number. -/
def withRecords (s : State) (ds : List Descriptor) : State :=
  { s with recs := s.recs.writeDescs 0 ds, recCount := BitVec.ofNat 32 ds.length }

/-- The state with this command latched, the engine BUSY and the listed moves to come. -/
def busyWith (s : State) (i : Instr) (turns : List Turn) : State :=
  { s with cmd := encode i, phase := .busy, turns }

/-- The state a command leaves. -/
def after (i : Instr) (s : State) : State :=
  match exec i s with
  | .next t => t
  | .fault _ => s
  | .refused _ => s

theorem exec_after (i : Instr) (s : State) : exec i s = .next (after i s) := by
  cases i <;> rfl

/-! ### Well-formed commands (30_encoding.md R106 (c)) -/

theorem test_wellFormed_refuses_same_buffer_huffEnc : (Instr.huffEnc .buf0 .buf0).wellFormed = false := by decide
theorem test_wellFormed_refuses_same_buffer_huffDec : (Instr.huffDec .buf1 .buf1).wellFormed = false := by decide
theorem test_wellFormed_refuses_same_buffer_lzwEnc : (Instr.lzwEnc .buf0 .buf0).wellFormed = false := by decide
theorem test_wellFormed_refuses_same_buffer_lzwDec : (Instr.lzwDec .buf1 .buf1).wellFormed = false := by decide
theorem test_wellFormed_refuses_same_buffer_arcFrame : (Instr.arcFrame .buf0 .buf0).wellFormed = false := by decide
theorem test_wellFormed_accepts_different_buffers : (Instr.huffEnc .buf1 .buf0).wellFormed = true := by decide

/-! ### Decoding words written out from 30_encoding.md R100: bits 31:6 zero, D, S, OP -/

theorem test_decode_huffEnc : decode 0b00000000000000000000000000100001 = .ok (.huffEnc .buf0 .buf1) := by decide
theorem test_decode_huffDec : decode 0b00000000000000000000000000010010 = .ok (.huffDec .buf1 .buf0) := by decide
theorem test_decode_lzwEnc : decode 0b00000000000000000000000000100011 = .ok (.lzwEnc .buf0 .buf1) := by decide
theorem test_decode_lzwDec : decode 0b00000000000000000000000000010100 = .ok (.lzwDec .buf1 .buf0) := by decide
theorem test_decode_arcFrame : decode 0b00000000000000000000000000100101 = .ok (.arcFrame .buf0 .buf1) := by decide
theorem test_decode_arcUnframe : decode 0b00000000000000000000000000010110 = .ok (.arcUnframe .buf1) := by decide

/-- V-E4: bit 6 set. -/
theorem test_decode_reserved_bit : decode 0x00000061 = .error .reservedBits := by decide
/-- V-E1 and V-E5: opcodes 0, 7 and 15. -/
theorem test_decode_undefined_opcodes : decode 0x00000000 = .error .undefinedOpcode ∧
    decode 0x00000007 = .error .undefinedOpcode ∧ decode 0x0000000F = .error .undefinedOpcode := by decide
/-- V-E3: ARC_UNFRAME with D = 1. -/
theorem test_decode_arcUnframe_destination : decode 0x00000026 = .error .destinationBit := by decide
/-- The table's row HUFF_DEC with S = 1. -/
theorem test_decodeTableWord : decodeTableWord 32 0x12 = some (.huffDec .buf1 .buf0) := by decide

/-! ### The commands, on vectors of 95_test_vectors.md -/

/-- V-H6: HUFF_ENC of "ABC". -/
theorem test_huffEnc_three_symbols :
    (after (.huffEnc .buf0 .buf1) (loaded .reference [0x41, 0x42, 0x43])).input .buf1 =
      [0x50, 0xD4, 0x1A, 0x10, 0x00, 0x00, 0x00, 0x1D, 0x80] := by decide +kernel

/-- V-H15: HUFF_ENC of "AB" with BUF_CAP = 6 faults OUT_OVERFLOW (code 6), LEN[dst] = 0. -/
theorem test_huffEnc_overflow :
    (after (.huffEnc .buf0 .buf1) (loaded { Params.reference with bufCap := 6 } [0x41, 0x42])).statusWord = 0x00000604 ∧
    (after (.huffEnc .buf0 .buf1) (loaded { Params.reference with bufCap := 6 } [0x41, 0x42])).len1 = 0 := by
  decide +kernel

/-- V-H9: HUFF_DEC of the stream of "ABRACADABRA!" and one byte FF. -/
theorem test_huffDec_ignores_trailing_byte :
    (after (.huffDec .buf0 .buf1) (loaded .reference [0x50, 0x4A, 0x25, 0x09, 0x52, 0x48, 0x68, 0x60, 0x00, 0x00, 0x01,
      0x8B, 0x9E, 0x8B, 0x9C, 0xFF])).input .buf1 =
      [0x41, 0x42, 0x52, 0x41, 0x43, 0x41, 0x44, 0x41, 0x42, 0x52, 0x41, 0x21] := by decide +kernel

/-- V-H11: a negative length, BAD_LENGTH (code 3) at bit 41. -/
theorem test_huffDec_bad_length :
    (after (.huffDec .buf0 .buf1) (loaded .reference [0xB0, 0xC0, 0, 0, 0, 0])).statusWord = 0x00000304 ∧
    (after (.huffDec .buf0 .buf1) (loaded .reference [0xB0, 0xC0, 0, 0, 0, 0])).faultPos = 41 := by decide +kernel

/-- V-L3: LZW_ENC of "ABABABA". -/
theorem test_lzwEnc_longest_matches :
    (after (.lzwEnc .buf0 .buf1) (loaded .reference [0x41, 0x42, 0x41, 0x42, 0x41, 0x42, 0x41])).input .buf1 =
      [0x04, 0x10, 0x42, 0x10, 0x11, 0x03, 0x10, 0x00] := by decide +kernel

/-- V-L1: LZW_ENC of nothing is the terminator. -/
theorem test_lzwEnc_empty :
    (after (.lzwEnc .buf0 .buf1) (loaded .reference [])).input .buf1 = [0x10, 0x00] := by decide +kernel

/-- V-L15: LZW_DEC of V-L3 and one byte FF, through the special case of 42_lzw.md R242. -/
theorem test_lzwDec_special_case :
    (after (.lzwDec .buf0 .buf1) (loaded .reference [0x04, 0x10, 0x42, 0x10, 0x11, 0x03, 0x10, 0x00, 0xFF])).input .buf1 =
      [0x41, 0x42, 0x41, 0x42, 0x41, 0x42, 0x41] := by decide +kernel

/-- V-L12: a codeword above the next free one, BAD_CODEWORD (code 5) at bit 24. -/
theorem test_lzwDec_bad_codeword :
    (after (.lzwDec .buf0 .buf1) (loaded .reference [0x04, 0x11, 0x02, 0x10, 0x00])).statusWord = 0x00000504 ∧
    (after (.lzwDec .buf0 .buf1) (loaded .reference [0x04, 0x11, 0x02, 0x10, 0x00])).faultPos = 24 := by decide +kernel

/-- V-A3: ARC_FRAME of [("x", FF FF 00)]. -/
theorem test_arcFrame_one_record :
    (after (.arcFrame .buf0 .buf1) (withRecords (loaded .reference [0x78, 0xFF, 0xFF, 0x00]) [⟨0, 1, 1, 3⟩])).input .buf1 =
      [0, 0, 0, 1, 0xFF, 0x78, 0xFF, 0, 0, 0, 0, 0, 0, 0, 3, 0xFF, 0xFF, 0xFF, 0x00] := by decide +kernel

/-- V-A7: the second descriptor outside the medium, BAD_RECORD (code 9) with FAULT_POS = 1. -/
theorem test_arcFrame_bad_record :
    (after (.arcFrame .buf0 .buf1) (withRecords (loaded .reference [1, 2]) [⟨0, 1, 1, 1⟩, ⟨0, 0, 0, 3⟩])).statusWord =
      0x00000904 ∧
    (after (.arcFrame .buf0 .buf1) (withRecords (loaded .reference [1, 2]) [⟨0, 1, 1, 1⟩, ⟨0, 0, 0, 3⟩])).faultPos = 1 := by
  decide +kernel

/-- V-A3: ARC_UNFRAME of its stream. -/
theorem test_arcUnframe_one_record :
    (after (.arcUnframe .buf0) (loaded .reference [0, 0, 0, 1, 0xFF, 0x78, 0xFF, 0, 0, 0, 0, 0, 0, 0, 3, 0xFF, 0xFF, 0xFF,
      0x00])).descriptors = [⟨5, 1, 16, 3⟩] := by decide +kernel

/-- V-A13: a negative content length, BAD_LENGTH (code 3) at bit 112. -/
theorem test_arcUnframe_bad_length :
    (after (.arcUnframe .buf0) (loaded .reference [0, 0, 0, 0, 0xFF, 0xFF, 0x80, 0, 0, 0, 0, 0, 0, 0, 0xFF])).statusWord =
      0x00000304 ∧
    (after (.arcUnframe .buf0) (loaded .reference [0, 0, 0, 0, 0xFF, 0xFF, 0x80, 0, 0, 0, 0, 0, 0, 0, 0xFF])).faultPos =
      112 := by decide +kernel

/-! ### The host, on vectors of 95_test_vectors.md -/

/-- V-E2: an illegal word while IDLE. -/
theorem test_issue_illegal : (State.reset.hostWrite 0 .four 0x00000001).statusWord = 0x00000104 := by decide +kernel

/-- V-E12: writing 1 to DONE does not clear FAULT. -/
theorem test_status_w1c :
    ((State.reset.hostWrite 0 .four 0).hostWrite 4 .four 0x00000002).statusWord = 0x00000104 := by decide +kernel

/-- V-E15: CAP_BUF, CAP_REC, CFG and 0x1C. -/
theorem test_parameter_registers :
    (State.reset.hostRead 0x20 .four).reply = some (.word 0x00010000) ∧
    (State.reset.hostRead 0x24 .four).reply = some (.word 0x00000100) ∧
    (State.reset.hostRead 0x28 .four).reply = some (.word 0x0000000C) ∧
    (State.reset.hostRead 0x1C .four).reply = some (.word 0) := by decide +kernel

/-- V-E16 to V-E20: transactions that return BUSERR. -/
theorem test_bus_errors :
    (State.reset.hostRead 0x10000000 .four).reply = some .busErr ∧
    (State.reset.hostRead 0x00000004 .one).reply = some .busErr ∧
    (State.reset.hostRead 0x00000002 .four).reply = some .busErr ∧
    (State.reset.hostRead 0x10010000 .one).reply = some .busErr ∧
    (State.reset.hostRead 0x00011000 .four).reply = some .busErr := by decide +kernel

/-! ### Witnesses: states and operands that meet the hypotheses of the statements -/

/-- The hypotheses the statements about a command from BUF0 to BUF1 share. -/
abbrev Ready (s : State) : Prop :=
  s.cfg.Legal ∧ BufId.buf0 ≠ BufId.buf1 ∧ (s.len .buf0).toNat ≤ s.cfg.bufCap ∧ s.recCount.toNat ≤ s.cfg.recCap

/-- Small legal parameters. -/
def small : Params := params 8 1 true

/-- `IllegalCommandWords`, `IssueOfACommandWord`: each condition of 30_encoding.md R106 at a boundary, and legal words
beside them. -/
theorem witness_illegal_and_legal_words :
    State.reset.phase = .idle ∧
    [0x00000040, 0x00000000, 0x00000007, 0x0000000F, 0x00000001, 0x00000035, 0x00000026].all
      (fun v => State.reset.legalWord v = false) = true ∧
    ({ loaded small [] with len0 := 9 }).legalWord 0x21 = false ∧ ({ loaded small [] with len0 := 8 }).legalWord 0x21 = true ∧
    ({ loaded small [] with recCount := 2 }).legalWord 0x25 = false ∧
    ({ loaded small [] with recCount := 1 }).legalWord 0x25 = true ∧
    ({ loaded small [] with recCount := 2 }).legalWord 0x06 = true := by decide +kernel

/-- A BUSY state: HUFF_DEC of one zero byte, with BUF_CAP = 8. -/
def running (turns : List Turn) : State := busyWith (loaded small [0]) (.huffDec .buf0 .buf1) turns

/-- `StepRunsTheLatchedCommand`: with no move listed, with the engine's, and with a host write and a host read. -/
theorem witness_StepRunsTheLatchedCommand :
    (running []).phase = .busy ∧ decode (running []).cmd = .ok (.huffDec .buf0 .buf1) ∧ (running []).turns = [] ∧
    (running [.engine, .reset]).phase = .busy ∧ decode (running [.engine, .reset]).cmd = .ok (.huffDec .buf0 .buf1) ∧
    (running [.engine, .reset]).turns = .engine :: [.reset] ∧
    ({ State.reset with turns := [.host (.write 0 .four 0x21)] }).turns = .host (.write 0 .four 0x21) :: [] ∧
    (running [.host (.read 4 .four), .engine]).turns = .host (.read 4 .four) :: [.engine] := by decide +kernel

/-- `IdleBlockDoesNothing`. -/
theorem witness_IdleBlockDoesNothing : State.reset.phase = .idle ∧ State.reset.turns = [] := by decide

/-- A BUSY state meets the invariant. -/
theorem running_inv (turns : List Turn) : (running turns).Inv where
  params := show small.Legal by decide
  status := ⟨by simp [running, busyWith, loaded, State.reset], by simp [running, busyWith, loaded, State.reset],
    by simp [running, busyWith, loaded, State.reset], by simp [running, busyWith, loaded, State.reset],
    by simp [running, busyWith, loaded, State.reset]⟩
  latch := fun _ => by
    have hd : decode (encode (.huffDec .buf0 .buf1)) = .ok (.huffDec .buf0 .buf1) := by decide
    simp only [State.legalWord, running, busyWith, hd]
    rfl
  mem := ⟨show (running []).buf0.wf by decide, show (running []).buf1.wf by decide, show (running []).recs.wf by decide,
    show ∀ c ∈ (running []).buf0.cells, c.1 < small.bufCap by decide,
    show ∀ c ∈ (running []).buf1.cells, c.1 < small.bufCap by decide,
    show ∀ c ∈ (running []).recs.words, c.1 < 4 * small.recCap by decide,
    show (0 : Nat) < 3 by decide, show (1 : Nat) < 3 by decide, show (2 : Nat) < 3 by decide⟩

/-- `EveryStepKeepsTheInvariant`: the step that runs a command. -/
theorem witness_EveryStepKeepsTheInvariant :
    (running []).Inv ∧ ∃ t, step (running []) = .next t ∧ t.fault = true :=
  ⟨running_inv [], after (.huffDec .buf0 .buf1) (running []), by
    have h : step (running []) = exec (.huffDec .buf0 .buf1) (running []) := by
      have hd : decode (encode (.huffDec .buf0 .buf1)) = .ok (.huffDec .buf0 .buf1) := by decide
      simp [step, State.event, State.engineMove, State.latched, running, busyWith, hd]
    rw [h, exec_after], by decide +kernel⟩

/-- `WaitEndsAfterTheCommand`: no poll left, and two. -/
theorem witness_WaitEndsAfterTheCommand :
    ((running [.host (.wait 0)]).Inv ∧ (running [.host (.wait 0)]).phase = .busy ∧
      (running [.host (.wait 0)]).turns = .host (.wait 0) :: []) ∧
    ((running [.host (.wait 2), .host .check]).Inv ∧ (running [.host (.wait 2), .host .check]).phase = .busy ∧
      (running [.host (.wait 2), .host .check]).turns = .host (.wait 2) :: [.host .check]) :=
  ⟨⟨running_inv _, rfl, rfl⟩, ⟨running_inv _, rfl, rfl⟩⟩

/-- `ResetInputRestoresEveryRegister`: reset asserted while BUSY. -/
theorem witness_ResetInputRestoresEveryRegister : (running [.reset, .engine]).turns = .reset :: [.engine] := rfl

/-- `CheckStopsTheProgramOnAFault`: with FAULT 0, and with FAULT 1 and host moves to come. -/
theorem witness_CheckStopsTheProgramOnAFault :
    (running [.host .check]).turns = .host .check :: [] ∧ (running [.host .check]).fault = false ∧
    ({ State.reset with fault := true, cause := .eos, turns := [.host .check, .host (.wait 0), .engine] }).turns =
      .host .check :: [.host (.wait 0), .engine] := by decide

/-- `BusErrorExactlyWhereIllegal`: the first and last addresses of each region, and their neighbours. -/
theorem witness_BusErrorExactlyWhereIllegal :
    small.Legal ∧ LegalTransaction small 0x00000000 .four ∧ LegalTransaction small 0x000000FC .four ∧
    ¬ LegalTransaction small 0x00000100 .four ∧ ¬ LegalTransaction small 0x0000FFFC .four ∧
    LegalTransaction small 0x00010000 .four ∧ LegalTransaction small 0x0001000C .four ∧
    ¬ LegalTransaction small 0x00010010 .four ∧ ¬ LegalTransaction small 0x00010000 .two ∧
    LegalTransaction small 0x10000000 .one ∧ LegalTransaction small 0x10000007 .one ∧
    ¬ LegalTransaction small 0x10000008 .one ∧ LegalTransaction small 0x20000000 .one ∧
    LegalTransaction small 0x20000007 .one ∧ ¬ LegalTransaction small 0x20000008 .one ∧
    ¬ LegalTransaction small 0xFFFFFFFF .one ∧ ¬ LegalTransaction small 0x00000006 .four := by
  and_intros <;> first | decide | (unfold LegalTransaction; decide)

/-- `StatusWriteClearsOnlyDoneAndFault`: a state whose STATUS reads 0x0000_0304. -/
theorem witness_StatusWriteClearsOnlyDoneAndFault :
    ({ State.reset with fault := true, cause := .badLength, faultPos := 41 }).statusWord = 0x00000304 := by decide

/-- `WritableRegistersHoldWhatIsWritten`, `BufferBytesReadBack`, `RecordWordsReadBack`: an IDLE state, and the first and
last byte and word. -/
theorem witness_idle_access :
    (loaded small []).cfg.Legal ∧ (loaded small []).phase = .idle ∧ 0 < (loaded small []).cfg.bufCap ∧
    7 < (loaded small []).cfg.bufCap ∧ 0 < (loaded small []).cfg.recCap ∧ 3 < 4 := by decide

/-- `ParameterRegistersNeverChange`: legal parameters, reserved offsets at their bounds, a step. -/
theorem witness_ParameterRegistersNeverChange :
    State.reset.cfg.Legal ∧
    [0x2C#32, 0x30#32, 0xF8#32, 0xFC#32].all (fun a => 0x2C ≤ a.toNat && a.toNat ≤ 0xFC && a.toNat % 4 == 0) = true ∧
    step State.reset = .next State.reset := ⟨by decide, by decide, rfl⟩

/-- `HostAccessWhileBusy`: a BUSY state with legal parameters and a clean STATUS, and legal addresses at the bounds. -/
theorem witness_HostAccessWhileBusy :
    (running []).cfg.Legal ∧ (running []).phase = .busy ∧ (running []).StatusOk ∧
    LegalTransaction (running []).cfg 0x00010000 .four ∧ LegalTransaction (running []).cfg 0x20000007 .one ∧
    (0xFC#32).toNat < 0x100 ∧ (0xFC#32).toNat % 4 = 0 := by
  and_intros <;> first | decide | (unfold LegalTransaction; decide) | exact (running_inv []).status

/-- HUFF_DEC of one zero byte faults EOS, HUFF_ENC of "AB" with BUF_CAP = 8 completes: `InterruptLevel` (with IE set),
`CommandsEndWithDoneOrFault`, `FaultEntryOfACommand`, `FrameOfTheBufferCommands`. -/
theorem witness_buffer_command_faults_and_completes :
    let s := { loaded small [0] with ie := true }
    let u := loaded small [0x41, 0x42]
    s.cfg.Legal ∧ s.ie = true ∧ s.fault = false ∧ s.admits (.huffDec .buf0 .buf1) = true ∧
    s.commandFault (.huffDec .buf0 .buf1) = some ⟨.eos, 8⟩ ∧ u.commandFault (.huffEnc .buf0 .buf1) = none ∧
    (after (.huffDec .buf0 .buf1) s).done = false ∧ (after (.huffDec .buf0 .buf1) s).cause = .eos ∧
    outputOf (.huffDec .buf0 .buf1) = .buffer .buf1 ∧
    (after (.huffEnc .buf0 .buf1) u).done = true ∧ (after (.huffEnc .buf0 .buf1) u).len1 = 7 := by decide +kernel

/-- ARC_UNFRAME of one byte faults EOS, of one empty record completes: `FaultEntryOfACommand`, `FrameOfArcUnframe`. -/
theorem witness_arcUnframe_faults_and_completes :
    let p := params 15 1 true
    p.Legal ∧ (loaded p [0]).admits (.arcUnframe .buf0) = true ∧
    (loaded p [0]).commandFault (.arcUnframe .buf0) = some ⟨.eos, 0⟩ ∧
    (after (.arcUnframe .buf0) (loaded p [0])).done = false ∧ outputOf (.arcUnframe .buf0) = .records ∧
    (after (.arcUnframe .buf0) (loaded p (recordBytes [] []))).done = true ∧
    (after (.arcUnframe .buf0) (loaded p (recordBytes [] []))).recCount = 1 := by decide +kernel

/-- `InterruptLevel`: an illegal word with IE set, and DONE pending. -/
theorem witness_InterruptLevel :
    ({ State.reset with ie := true }).phase = .idle ∧ ({ State.reset with ie := true }).legalWord 0 = false ∧
    ({ State.reset with done := true }).done = true := by decide

/-- `UnadmittedCommandTakesIllegalCmd`: R106 (c), (e) and (f). -/
theorem witness_UnadmittedCommandTakesIllegalCmd :
    State.reset.admits (.huffEnc .buf0 .buf0) = false ∧
    ({ loaded small [] with len1 := 9 }).admits (.lzwDec .buf1 .buf0) = false ∧
    ({ loaded small [] with recCount := 2 }).admits (.arcFrame .buf0 .buf1) = false := by decide

/-- `CausesOfEachCommand`: each command admitted, and faulting. -/
theorem witness_CausesOfEachCommand :
    let one := params 1 1 true
    ((loaded one [0x41]).admits (.huffEnc .buf0 .buf1) = true ∧
      (after (.huffEnc .buf0 .buf1) (loaded one [0x41])).cause = .outOverflow) ∧
    ((loaded one [0]).admits (.huffDec .buf0 .buf1) = true ∧
      (after (.huffDec .buf0 .buf1) (loaded one [0])).cause = .eos) ∧
    ((loaded one []).admits (.lzwEnc .buf0 .buf1) = true ∧
      (after (.lzwEnc .buf0 .buf1) (loaded one [])).cause = .outOverflow) ∧
    ((loaded small [0xFF, 0xFF]).admits (.lzwDec .buf0 .buf1) = true ∧
      (after (.lzwDec .buf0 .buf1) (loaded small [0xFF, 0xFF])).cause = .badCodeword) ∧
    ((withRecords (loaded one []) [⟨0, 1, 0, 0⟩]).admits (.arcFrame .buf0 .buf1) = true ∧
      (after (.arcFrame .buf0 .buf1) (withRecords (loaded one []) [⟨0, 1, 0, 0⟩])).cause = .badRecord) ∧
    ((loaded small [0, 0, 0, 0, 0]).admits (.arcUnframe .buf0) = true ∧
      (after (.arcUnframe .buf0) (loaded small [0, 0, 0, 0, 0])).cause = .badSeparator ∧
      (loaded small [0, 0, 0, 0, 0]).cfg.sepCheck = true) := by decide +kernel

/-- `OutcomeDependsOnlyOnTheMedium`: two states that differ in BUF1, LEN1, CMD, the draws, and either all of REC (for
HUFF_ENC and ARC_UNFRAME) or its second descriptor (for ARC_FRAME of one). -/
theorem witness_OutcomeDependsOnlyOnTheMedium :
    let s := withRecords (loaded (params 30 2 true) [0x41, 0x42]) [⟨0, 1, 1, 1⟩]
    let u := { s with buf1 := { cells := [(0, 7)], fill := 5 }, len1 := 3, cmd := 9, draws := 6, recCount := 2 }
    let v := { s with buf1 := { cells := [(0, 7)], fill := 5 }, draws := 6, recs := s.recs.writeDesc 1 ⟨9, 9, 9, 9⟩ }
    s.cfg.Legal ∧ u.cfg = s.cfg ∧ readsRecords (.huffEnc .buf0 .buf1) = false ∧ readsRecords (.arcUnframe .buf0) = false ∧
    u.fault = s.fault ∧ u.cause = s.cause ∧ u.faultPos = s.faultPos ∧ u.len .buf0 = s.len .buf0 ∧
    (∀ a, a < 2 → u.byteAt .buf0 a = s.byteAt .buf0 a) ∧ s.admits (.arcUnframe .buf0) = true ∧ u ≠ s ∧
    v.recCount = s.recCount ∧ (∀ j, j < s.recCount.toNat → v.recs.readDesc j = s.recs.readDesc j) ∧
    (∀ a, a < 2 → v.byteAt .buf0 a = s.byteAt .buf0 a) ∧ v ≠ s := by decide +kernel

/-- `EmptyInputIsNotAFault`: no source byte, BUF_CAP of 2 and of 1, no descriptor. -/
theorem witness_EmptyInputIsNotAFault :
    Ready (loaded (params 2 1 true) []) ∧ Ready (loaded (params 1 1 true) []) ∧
    (loaded (params 2 1 true) []).len .buf0 = 0 ∧
    (loaded (params 1 1 true) []).len .buf0 = 0 ∧ (loaded (params 2 1 true) []).recCount = 0 ∧
    2 ≤ (params 2 1 true).bufCap ∧ (params 1 1 true).bufCap = 1 := by decide

/-- `ReadBitsTakesTheNextBits`: exactly the bits that remain, and one more. -/
theorem witness_ReadBitsTakesTheNextBits :
    7 ≤ 8 * (Reader.mk [0xB0] 1).medium.length - (Reader.mk [0xB0] 1).pos ∧
    8 * (Reader.mk [0xB0] 1).medium.length - (Reader.mk [0xB0] 1).pos < 8 := by decide

/-- `ReaderMirrorsWriter`: V-B17, and fields of 1 and 64 bits. -/
theorem witness_ReaderMirrorsWriter :
    (∀ f ∈ [(5, 3), (0x41, 8)], 1 ≤ f.2 ∧ f.2 ≤ 64) ∧
    (writeFields [(5, 3), (0x41, 8)] (Writer.opened 2)).bind Writer.finish = .ok [0xA8, 0x20] ∧
    (∀ f ∈ [(3, 1), (7, 64)], 1 ≤ f.2 ∧ f.2 ≤ 64) ∧
    (writeFields [(3, 1), (7, 64)] (Writer.opened 9)).bind Writer.finish = .ok [0x80, 0, 0, 0, 0, 0, 0, 3, 0x80] := by
  decide +kernel

/-- The trie of "AB" (V-H5). -/
def trieAB : Trie := .node (.leaf 0x41) (.leaf 0x42)

/-- `TrieBuildRemovesTheTwoLeast`, `TrieOfAMessage`, `CodesArePrefixFree`, `CodeLengthsFollowFrequencies`: messages of one, two and three symbols. -/
theorem witness_tries :
    ([0x61] : List Byte) ≠ [] ∧ buildTrie (freqTable [0x61]) = some (.leaf 0x61) ∧
    buildTrie (freqTable [0x41, 0x42]) = some trieAB ∧
    buildTrie (freqTable [0x41, 0x43, 0x42, 0x43]) = some (.node (.leaf 0x43) (.node (.leaf 0x41) (.leaf 0x42))) := by
  decide +kernel

/-- `HuffEncWritesTheStream`, `HuffmanStreamLength` (19 + 32 + 2 bits): "AB" takes 7 bytes, with BUF_CAP = 7 and with BUF_CAP = 6. -/
theorem witness_HuffEncWritesTheStream :
    Ready (loaded (params 7 1 true) [0x41, 0x42]) ∧ Ready (loaded (params 6 1 true) [0x41, 0x42]) ∧
    (loaded (params 7 1 true) [0x41, 0x42]).input .buf0 = [0x41, 0x42] ∧
    (loaded (params 6 1 true) [0x41, 0x42]).input .buf0 = [0x41, 0x42] ∧
    buildTrie (freqTable [0x41, 0x42]) = some trieAB ∧ ((huffBits trieAB [0x41, 0x42]).length + 7) / 8 = 7 := by
  decide +kernel

/-- `HuffEncOfOneDistinctSymbol`: one symbol, and BUF_CAP = 6 of them. -/
theorem witness_HuffEncOfOneDistinctSymbol :
    Ready (loaded (params 6 1 true) [0x61]) ∧ 6 ≤ (params 6 1 true).bufCap ∧ 5 + 1 ≤ (params 6 1 true).bufCap ∧
    (loaded (params 6 1 true) [0x61]).input .buf0 = List.replicate (0 + 1) 0x61 ∧
    (loaded (params 6 1 true) (List.replicate 6 0x61)).input .buf0 = List.replicate (5 + 1) 0x61 := by decide +kernel

/-- `HuffDecReadsTheStream`: the stream of "AB" with its padding; with BUF_CAP = 8, a leaf coded 8 and 9 times. -/
theorem witness_HuffDecReadsTheStream :
    Ready (loaded small [0x50, 0x68, 0x40, 0, 0, 0, 0x48]) ∧ Ready (loaded small [0xB0, 0x80, 0, 0, 4, 0]) ∧
    Ready (loaded small [0xB0, 0x80, 0, 0, 4, 0x80]) ∧ trieAB.nodes ≤ Config.nodeCap ∧
    (Trie.leaf 0x61).nodes ≤ Config.nodeCap ∧
    (∀ e ∈ [((0x41 : Byte), [false]), (0x42, [true])], e ∈ trieAB.codes []) ∧
    mediumBits ((loaded small [0x50, 0x68, 0x40, 0, 0, 0, 0x48]).input .buf0) =
      trieAB.bits ++ (natBits 2 32 ++ ([((0x41 : Byte), [false]), (0x42, [true])].flatMap (·.2) ++ [false, false, false])) ∧
    (∀ e ∈ List.replicate 9 ((0x61 : Byte), ([] : List Bool)), e ∈ (Trie.leaf 0x61).codes []) ∧
    mediumBits ((loaded small [0xB0, 0x80, 0, 0, 4, 0]).input .buf0) = (Trie.leaf 0x61).bits ++ (natBits 8 32 ++
      ((List.replicate 8 ((0x61 : Byte), ([] : List Bool))).flatMap (·.2) ++ List.replicate 7 false)) ∧
    mediumBits ((loaded small [0xB0, 0x80, 0, 0, 4, 0x80]).input .buf0) = (Trie.leaf 0x61).bits ++ (natBits 9 32 ++
      ((List.replicate 9 ((0x61 : Byte), ([] : List Bool))).flatMap (·.2) ++ List.replicate 7 false)) := by
  decide +kernel

/-- `HuffDecLengthField`: lengths 2^31, 2^32 − 1 and 0 (V-H10, V-H11). -/
theorem witness_HuffDecLengthField :
    Ready (loaded small [0xB0, 0xC0, 0, 0, 0, 0]) ∧ Ready (loaded small [0xB0, 0xFF, 0xFF, 0xFF, 0xFF, 0x80]) ∧
    Ready (loaded small [0xB0, 0x80, 0, 0, 0, 0]) ∧ (Trie.leaf 0x61).nodes ≤ Config.nodeCap ∧
    mediumBits ((loaded small [0xB0, 0xC0, 0, 0, 0, 0]).input .buf0) =
      (Trie.leaf 0x61).bits ++ (natBits (2 ^ 31) 32 ++ List.replicate 7 false) ∧
    mediumBits ((loaded small [0xB0, 0xFF, 0xFF, 0xFF, 0xFF, 0x80]).input .buf0) =
      (Trie.leaf 0x61).bits ++ (natBits (2 ^ 32 - 1) 32 ++ List.replicate 7 false) ∧
    mediumBits ((loaded small [0xB0, 0x80, 0, 0, 0, 0]).input .buf0) =
      (Trie.leaf 0x61).bits ++ (natBits 0 32 ++ List.replicate 7 false) := by decide +kernel

/-- `HuffDecIgnoresTrailingBytes`: the stream of "AB", and the same with one byte more. -/
theorem witness_HuffDecIgnoresTrailingBytes :
    let s := loaded small [0x50, 0x68, 0x40, 0, 0, 0, 0x48]
    let u := loaded small [0x50, 0x68, 0x40, 0, 0, 0, 0x48, 0xFF]
    s.cfg.Legal ∧ u.cfg = s.cfg ∧ 0 < (s.len .buf0).toNat ∧ u.input .buf0 = s.input .buf0 ++ [0xFF] ∧
    (u.len .buf0).toNat ≤ u.cfg.bufCap ∧ CompletesWith s (after (.huffDec .buf0 .buf1) s) .buf1 [0x41, 0x42] := by
  refine ⟨by decide, rfl, by decide, by decide +kernel, by decide, ?_⟩
  have hr : huffDecode (loaded small [0x50, 0x68, 0x40, 0, 0, 0, 0x48]).cfg.bufCap
      ((loaded small [0x50, 0x68, 0x40, 0, 0, 0, 0x48]).input .buf0) = .ok [0x41, 0x42] := by decide +kernel
  rw [after, exec_huffDec]
  dsimp only
  rw [State.runCommand_ok (by decide) hr]
  exact State.completeBuffer_completesWith _ _ (by decide)

/-- V-S7: where each cut of the stream of "ABRACADABRA!" makes the read fail. -/
theorem test_failingRead_huffman :
    [1, 7, 8, 11, 14].map (fun m => (buildTrie (freqTable [0x41, 0x42, 0x52, 0x41, 0x43, 0x41, 0x44, 0x41, 0x42, 0x52, 0x41,
      0x21])).map (fun t => failingRead (8 * m) 0 (huffReads t [0x41, 0x42, 0x52, 0x41, 0x43, 0x41, 0x44, 0x41, 0x42, 0x52,
      0x41, 0x21]))) = [some 2, some 51, some 59, some 59, some 112] := by decide +kernel

/-- V-A9, V-A12 and V-A10: the first record of V-A1 cut to 3, 5 and 24 bytes. -/
theorem test_failingRead_archive :
    [3, 5, 24].map (fun m => failingRead (8 * m) 0 (Framed.reads ⟨0xFF, 0xFF, 0xFF, [0x61, 0x2E, 0x74, 0x78, 0x74],
      [0x68, 0x65, 0x6C, 0x6C, 0x6F]⟩)) = [0, 40, 160] := by decide

/-- `HuffDecOfACutStreamFaults`: the 7 bytes of the stream of "AB" cut to 1 and to 6. -/
theorem witness_HuffDecOfACutStreamFaults :
    Ready (loaded small [0x50]) ∧ Ready (loaded small [0x50, 0x68, 0x40, 0, 0, 0]) ∧
    2 ≤ small.bufCap ∧ buildTrie (freqTable [0x41, 0x42]) = some trieAB ∧
    (packBits (huffBits trieAB [0x41, 0x42])).length = 7 ∧
    (loaded small [0x50]).input .buf0 = (packBits (huffBits trieAB [0x41, 0x42])).take 1 ∧
    (loaded small [0x50, 0x68, 0x40, 0, 0, 0]).input .buf0 = (packBits (huffBits trieAB [0x41, 0x42])).take 6 := by
  decide +kernel

/-- `HuffDecOfZeroBytesFaults`: 64, 63 and 1 bytes. -/
theorem witness_HuffDecOfZeroBytesFaults :
    Ready (loaded (params 64 1 true) (List.replicate 64 0)) ∧ Ready (loaded (params 64 1 true) [0]) ∧
    (loaded (params 64 1 true) (List.replicate 64 0)).input .buf0 = List.replicate 64 0 ∧
    (loaded (params 64 1 true) (List.replicate 63 0)).input .buf0 = List.replicate 63 0 ∧
    (loaded (params 64 1 true) [0]).input .buf0 = List.replicate 1 0 := by decide +kernel

/-- `HuffmanRoundTrip`, `LzwRoundTrip`, `ArchiveRoundTrip`: commands that complete. -/
theorem witness_round_trips :
    small.Legal ∧ (params 19 1 false).Legal ∧
    (after (.huffEnc .buf0 .buf1) (loaded small [0x41, 0x42])).done = true ∧
    (after (.lzwEnc .buf0 .buf1) (loaded small [0x41, 0x41, 0x41])).done = true ∧
    (after (.arcFrame .buf0 .buf1) (withRecords (loaded (params 19 1 false) [0x78, 0xFF, 0xFF, 0x00]) [⟨0, 1, 1, 3⟩])).done =
      true := by decide +kernel

/-- `DictionaryStateMachine`, `EmittedCodewordsAreInRange`: a dictionary with one entry, and a codeword emitted. -/
theorem witness_DictionaryStateMachine :
    Config.R + 2 ≤ 512 ∧ small.Legal ∧ 65 ∈ lzwCodewords small.L 2 Dict.seeded [0x41, 0x42] := by decide +kernel

/-- `LzwEncWritesTheLongestMatches`: no input at the bounds BUF_CAP = 2, where two bytes fit, and BUF_CAP = 1. -/
theorem witness_LzwEncWritesTheLongestMatches :
    Ready (loaded (params 2 1 true) []) ∧ Ready (loaded (params 1 1 true) []) ∧
    (loaded (params 2 1 true) []).input .buf0 = [] ∧ (loaded (params 1 1 true) []).input .buf0 = [] ∧
    ((codewordBits 9 (lzwStream (params 2 1 true) [])).length + 7) / 8 = 2 := by decide +kernel

/-- `LzwDecReadsTheStream`: messages of 8 and of 9 bytes with BUF_CAP = 8. -/
theorem witness_LzwDecReadsTheStream :
    Ready (loaded small (packBits (codewordBits 9 (lzwStream small (List.replicate 8 0x41))))) ∧
    Ready (loaded small (packBits (codewordBits 9 (lzwStream small (List.replicate 9 0x41))))) ∧
    mediumBits ((loaded small (packBits (codewordBits 9 (lzwStream small (List.replicate 8 0x41))))).input .buf0) =
      codewordBits 9 (lzwStream small (List.replicate 8 0x41)) ++ [false, false, false] ∧
    mediumBits ((loaded small (packBits (codewordBits 9 (lzwStream small (List.replicate 9 0x41))))).input .buf0) =
      codewordBits 9 (lzwStream small (List.replicate 9 0x41)) ++ [false, false, false] := by decide +kernel

/-- `LzwDecFirstCodeword`: R, R + 1 and 2^W − 1, each and seven bits of padding; and one byte only. -/
theorem witness_LzwDecFirstCodeword :
    Ready (loaded small [0x80, 0x00]) ∧ Ready (loaded small [0x80, 0x80]) ∧ Ready (loaded small [0xFF, 0x80]) ∧
    Ready (loaded small [0x80]) ∧ 8 * ((loaded small [0x80]).len .buf0).toNat < 9 ∧
    mediumBits ((loaded small [0x80, 0x00]).input .buf0) = natBits 256 9 ++ List.replicate 7 false ∧
    mediumBits ((loaded small [0x80, 0x80]).input .buf0) = natBits 257 9 ++ List.replicate 7 false ∧
    mediumBits ((loaded small [0xFF, 0x80]).input .buf0) = natBits 511 9 ++ List.replicate 7 false := by decide +kernel

/-- The codewords 65, 66, 257, 259 of V-L3 are a well-formed prefix, through a defined entry and the special case, and leave
"ABABABA" written and 257 = "AB", 258 = "BA", 259 = "ABA". -/
theorem witness_DecodesTo :
    DecodesTo 512 [0x41, 0x42, 257, 259]
      { table := [[0x41, 0x42], [0x42, 0x41], [0x41, 0x42, 0x41]], prev := [0x41, 0x42, 0x41],
        out := [0x41, 0x42, 0x41, 0x42, 0x41, 0x42, 0x41] } :=
  .later (cs := [0x41, 0x42, 257]) (str := [0x41, 0x42, 0x41])
    (.later (cs := [0x41, 0x42]) (str := [0x41, 0x42])
      (.later (cs := [0x41]) (str := [0x42]) (.first (by decide)) (.inl (by decide)))
      (.inl (by decide)))
    (.inr (by decide))

/-- `LzwDecAfterAnyPrefix` after that prefix, with BUF_CAP = 11: the terminator; a defined entry (258), the next free codeword
(260, whose string has 4 bytes and ends at BUF_CAP; with BUF_CAP = 10 it does not fit); the first and the last codeword above
it; four bits only. -/
theorem witness_LzwDecAfterAnyPrefix :
    let p := params 11 1 true
    let cs := [0x41, 0x42, 257, 259]
    let d : Decoded := { table := [[0x41, 0x42], [0x42, 0x41], [0x41, 0x42, 0x41]], prev := [0x41, 0x42, 0x41],
                         out := [0x41, 0x42, 0x41, 0x42, 0x41, 0x42, 0x41] }
    let stream := fun more => packBits (codewordBits 9 (cs ++ more))
    DecodesTo p.L cs d ∧ (params 10 1 true).L = p.L ∧ (∀ c ∈ cs, c < 2 ^ 9) ∧ d.out.length ≤ 10 ∧ d.next = 260 ∧
    d.string 258 = some [0x42, 0x41] ∧ d.prev ++ d.prev.take 1 = [0x41, 0x42, 0x41, 0x41] ∧
    (d.out ++ [0x41, 0x42, 0x41, 0x41]).length = 11 ∧
    Ready (loaded p (stream [258, 256])) ∧ Ready (loaded (params 10 1 true) (stream [260, 256])) ∧
    mediumBits ((loaded p (stream [256])).input .buf0) =
      codewordBits 9 cs ++ (natBits 256 9 ++ List.replicate 3 false) ∧
    mediumBits ((loaded p (stream [258, 256])).input .buf0) =
      codewordBits 9 cs ++ (natBits 258 9 ++ (natBits 256 9 ++ List.replicate 2 false)) ∧
    mediumBits ((loaded p (stream [260, 256])).input .buf0) =
      codewordBits 9 cs ++ (natBits 260 9 ++ (natBits 256 9 ++ List.replicate 2 false)) ∧
    mediumBits ((loaded p (stream [261])).input .buf0) =
      codewordBits 9 cs ++ (natBits 261 9 ++ List.replicate 3 false) ∧
    mediumBits ((loaded p (stream [511])).input .buf0) =
      codewordBits 9 cs ++ (natBits 511 9 ++ List.replicate 3 false) ∧
    mediumBits ((loaded p (stream [])).input .buf0) = codewordBits 9 cs ++ List.replicate 4 false :=
  ⟨witness_DecodesTo, by decide +kernel⟩

/-- `ArcFrameWritesTheRecords`: one empty record, with BUF_CAP = 15 and with BUF_CAP = 14. -/
theorem witness_ArcFrameWritesTheRecords :
    Ready (withRecords (loaded (params 15 1 true) []) [⟨0, 0, 0, 0⟩]) ∧
    Ready (withRecords (loaded (params 14 1 true) []) [⟨0, 0, 0, 0⟩]) ∧
    (withRecords (loaded (params 15 1 true) []) [⟨0, 0, 0, 0⟩]).descriptors = [⟨0, 0, 0, 0⟩] ∧
    (archiveBytes [([], [])]).length = 15 := by decide +kernel

/-- `ArcFrameChecksDescriptorsFirst`: descriptor 0 by its name, and descriptor 1 by its content, one byte outside. -/
theorem witness_ArcFrameChecksDescriptorsFirst :
    let s := withRecords (loaded (params 8 2 true) [1, 2]) [⟨1, 2, 0, 0⟩]
    let u := withRecords (loaded (params 8 2 true) [1, 2]) [⟨0, 2, 1, 1⟩, ⟨0, 0, 0, 3⟩]
    Ready s ∧ Ready u ∧ s.recCount.toNat = 1 ∧ s.recs.readDesc 0 = ⟨1, 2, 0, 0⟩ ∧ (s.len .buf0).toNat = 2 ∧
    u.recCount.toNat = 2 ∧ u.recs.readDesc 0 = ⟨0, 2, 1, 1⟩ ∧ u.recs.readDesc 1 = ⟨0, 0, 0, 3⟩ ∧
    (u.len .buf0).toNat = 2 := by decide +kernel

/-- An empty record with its separators. -/
def emptyRecord : Framed := { s1 := 0xFF, s2 := 0xFF, s3 := 0xFF, name := [], content := [] }

/-- `ArcUnframeReadsTheRecords`: REC_CAP = 1 with one and with two records, separators checked; and with another
separator where they are not. -/
theorem witness_ArcUnframeReadsTheRecords :
    Ready (loaded (params 30 1 true) (framedBytes [emptyRecord])) ∧
    Ready (loaded (params 30 1 true) (framedBytes [emptyRecord, emptyRecord])) ∧
    Ready (loaded (params 30 1 false) (framedBytes [{ emptyRecord with s2 := 0 }])) ∧
    (loaded (params 30 1 true) (framedBytes [emptyRecord])).input .buf0 = framedBytes [emptyRecord] ∧
    (loaded (params 30 1 true) (framedBytes [emptyRecord, emptyRecord])).input .buf0 =
      framedBytes [emptyRecord, emptyRecord] ∧
    emptyRecord.s1 = 0xFF ∧ emptyRecord.s2 = 0xFF ∧ emptyRecord.s3 = 0xFF ∧
    (loaded (params 30 1 false) (framedBytes [{ emptyRecord with s2 := 0 }])).input .buf0 =
      framedBytes [{ emptyRecord with s2 := 0 }] := by decide +kernel

/-- The state with one whole record and then these bytes in BUF0, REC_CAP = 2. -/
def afterOneRecord (sepCheck : Bool) (r : Framed) (bytes : List Byte) : State :=
  loaded (params 64 2 sepCheck) (framedBytes [r] ++ bytes)

/-- What may come before: no record, and one of any separators where they are not checked. -/
theorem witness_RecordsBefore :
    RecordsBefore (params 15 1 true) [] ∧ RecordsBefore (params 64 2 true) [emptyRecord] ∧
    RecordsBefore (params 64 2 false) [{ emptyRecord with s2 := 0 }] := by
  unfold RecordsBefore Framed.marked
  decide

/-- `ArcUnframeNegativeLengths`: both fields at both ends of the negative range, in the first and the second record, with
separators checked and not. -/
theorem witness_ArcUnframeNegativeLengths :
    Ready (loaded (params 15 1 true) (bigEndian (2 ^ 31) 4)) ∧
    (loaded (params 15 1 true) (bigEndian (2 ^ 31) 4)).input .buf0 = framedBytes [] ++ (bigEndian (2 ^ 31) 4 ++ []) ∧
    Ready (afterOneRecord true emptyRecord (bigEndian (2 ^ 32 - 1) 4)) ∧
    (afterOneRecord true emptyRecord (bigEndian (2 ^ 32 - 1) 4)).input .buf0 =
      framedBytes [emptyRecord] ++ (bigEndian (2 ^ 32 - 1) 4 ++ []) ∧
    Ready (afterOneRecord true emptyRecord ([0, 0, 0, 1, 0xFF, 0x78, 0xFF] ++ bigEndian (2 ^ 63) 8)) ∧
    (afterOneRecord true emptyRecord ([0, 0, 0, 1, 0xFF, 0x78, 0xFF] ++ bigEndian (2 ^ 63) 8)).input .buf0 =
      framedBytes [emptyRecord] ++
        (bigEndian ([0x78] : List Byte).length 4 ++ (0xFF :: ([0x78] ++ (0xFF :: (bigEndian (2 ^ 63) 8 ++ []))))) ∧
    Ready (afterOneRecord false { emptyRecord with s2 := 0 } ([0, 0, 0, 0, 1, 2] ++ bigEndian (2 ^ 64 - 1) 8)) ∧
    (afterOneRecord false { emptyRecord with s2 := 0 } ([0, 0, 0, 0, 1, 2] ++ bigEndian (2 ^ 64 - 1) 8)).input .buf0 =
      framedBytes [{ emptyRecord with s2 := 0 }] ++
        (bigEndian ([] : List Byte).length 4 ++ (1 :: ([] ++ (2 :: (bigEndian (2 ^ 64 - 1) 8 ++ []))))) := by
  decide +kernel

/-- `ArcUnframeChecksSeparators`: the first separator after name lengths 0 and 2^31 − 1, and the second and third (after
content lengths 0 and 2^63 − 1) of a second record. -/
theorem witness_ArcUnframeChecksSeparators :
    Ready (loaded small [0, 0, 0, 0, 0xFE]) ∧ Ready (loaded small [0x7F, 0xFF, 0xFF, 0xFF, 0x00]) ∧
    (loaded small []).cfg.sepCheck = true ∧ small.recCap = 1 ∧ (0xFE : Byte) ≠ 0xFF ∧ (0x00 : Byte) ≠ 0xFF ∧
    (loaded small [0, 0, 0, 0, 0xFE]).input .buf0 = framedBytes [] ++ (bigEndian 0 4 ++ (0xFE :: [])) ∧
    (loaded small [0x7F, 0xFF, 0xFF, 0xFF, 0x00]).input .buf0 =
      framedBytes [] ++ (bigEndian (2 ^ 31 - 1) 4 ++ (0x00 :: [])) ∧
    Ready (afterOneRecord true emptyRecord ([0, 0, 0, 1, 0xFF, 0x78, 0xFE])) ∧
    (afterOneRecord true emptyRecord ([0, 0, 0, 1, 0xFF, 0x78, 0xFE])).input .buf0 = framedBytes [emptyRecord] ++
      (bigEndian ([0x78] : List Byte).length 4 ++ (0xFF :: ([0x78] ++ (0xFE :: [])))) ∧
    (afterOneRecord true emptyRecord ([0, 0, 0, 0, 0xFF, 0xFF] ++ (bigEndian 0 8 ++ [0xFE]))).input .buf0 =
      framedBytes [emptyRecord] ++
        (bigEndian ([] : List Byte).length 4 ++ (0xFF :: ([] ++ (0xFF :: (bigEndian 0 8 ++ (0xFE :: [])))))) ∧
    (afterOneRecord true emptyRecord ([0, 0, 0, 0, 0xFF, 0xFF] ++ (bigEndian (2 ^ 63 - 1) 8 ++ [0xFE]))).input .buf0 =
      framedBytes [emptyRecord] ++
        (bigEndian ([] : List Byte).length 4 ++ (0xFF :: ([] ++ (0xFF :: (bigEndian (2 ^ 63 - 1) 8 ++ (0xFE :: [])))))) := by
  decide +kernel

/-- `ArcUnframeOfACutRecordFaults`: an empty record cut to 1 and to 14 of its 15 bytes, first and after another record, with
separators checked and not. -/
theorem witness_ArcUnframeOfACutRecordFaults :
    Ready (loaded (params 15 1 true) (emptyRecord.bytes.take 1)) ∧ emptyRecord.bytes.length = 15 ∧
    emptyRecord.s1 = 0xFF ∧ emptyRecord.s2 = 0xFF ∧ emptyRecord.s3 = 0xFF ∧
    (loaded (params 15 1 true) (emptyRecord.bytes.take 1)).input .buf0 = framedBytes [] ++ emptyRecord.bytes.take 1 ∧
    Ready (afterOneRecord false { emptyRecord with s2 := 0 } ({ emptyRecord with s1 := 1 }.bytes.take 14)) ∧
    (afterOneRecord false { emptyRecord with s2 := 0 } ({ emptyRecord with s1 := 1 }.bytes.take 14)).input .buf0 =
      framedBytes [{ emptyRecord with s2 := 0 }] ++ { emptyRecord with s1 := 1 }.bytes.take 14 := by decide +kernel
end Sys2Proof.Tests
end

section
/-! SUPPORT. The host registers and the invariant of the block (10_state.md): what a register reads and takes, what one
step can do, and that each of these keeps the parameters and `State.Inv`. -/

namespace Sys2Proof.Machine

/-! ### The register block on the bus (20_memory.md R71, R72) -/

/-- An aligned four-byte transaction below 0x100 reaches the register of its offset, whatever the parameters. -/
theorem target_register (p : Params) {addr : Word} (hblock : addr.toNat < 0x100) (haligned : addr.toNat % 4 = 0) :
    target p addr .four = some (.reg (regAt addr.toNat)) := by
  have hregion : region p addr.toNat = some (.reg (regAt addr.toNat)) := if_pos hblock
  simp [target, hregion, Target.width, Size.bytes, haligned]

theorem State.hostRead_register (s : State) {addr : Word} (hblock : addr.toNat < 0x100)
    (haligned : addr.toNat % 4 = 0) :
    s.hostRead addr .four = { s with reply := some (.word (s.readReg (regAt addr.toNat))) } := by
  rw [State.hostRead, target_register s.cfg hblock haligned]
  rfl

theorem State.hostWrite_register (s : State) {addr : Word} (v : Word) (hblock : addr.toNat < 0x100)
    (haligned : addr.toNat % 4 = 0) :
    s.hostWrite addr .four v = { s.writeReg (regAt addr.toNat) v with reply := some .ok } := by
  rw [State.hostWrite, target_register s.cfg hblock haligned]
  rfl

/-- The offsets that 10_state.md R45 reserves. -/
theorem regAt_reserved {off : Nat} (h : off = 0x1C ∨ 0x2C ≤ off) : regAt off = .reserved := by
  unfold regAt
  split <;> try omega
  rfl

/-! ### The words that STATUS, IRQ_EN and CFG read as -/

/-- STATUS bit by bit (10_state.md R33 to R37). -/
theorem State.statusWord_getLsbD (s : State) (i : Nat) :
    s.statusWord.getLsbD i =
      if i = 0 then s.busy else if i = 1 then s.done else if i = 2 then s.fault
      else if 8 ≤ i then s.cause.code.getLsbD (i - 8) else false := by
  simp only [State.statusWord, BitVec.getLsbD_append, BitVec.getLsbD_ofBool, BitVec.getLsbD_zero]
  match i with
  | 0 | 1 | 2 => simp
  | i + 3 =>
    by_cases h : i < 5
    · simp [h]
    · have hcode : s.cause.code.getLsbD (i - 5) = true → i - 5 < 4 := BitVec.lt_of_getLsbD
      simpa [h, Nat.le_of_not_lt h] using hcode

theorem State.statusWord_reserved (s : State) {i : Nat} (h : 3 ≤ i ∧ i < 8 ∨ 12 ≤ i) :
    s.statusWord.getLsbD i = false := by
  rw [State.statusWord_getLsbD, if_neg (by omega), if_neg (by omega), if_neg (by omega)]
  split
  · exact BitVec.getLsbD_of_ge _ _ (by omega)
  · rfl

theorem State.statusWord_reserved_low (s : State) : s.statusWord.extractLsb' 3 5 = 0 :=
  BitVec.eq_of_getLsbD_eq fun i hi => by
    simp [s.statusWord_reserved (i := 3 + i) (by omega)]

theorem State.statusWord_reserved_high (s : State) : s.statusWord.extractLsb' 12 20 = 0 :=
  BitVec.eq_of_getLsbD_eq fun i hi => by
    simp [s.statusWord_reserved (i := 12 + i) (by omega)]

theorem State.statusWord_cause (s : State) : s.statusWord.extractLsb' 8 4 = s.cause.code :=
  BitVec.eq_of_getLsbD_eq fun i hi => by
    simp [State.statusWord_getLsbD, hi, show 8 + i ≠ 1 by omega, show 8 + i ≠ 2 by omega]

theorem State.statusWord_eq_zero {s : State} (hbusy : s.busy = false) (hdone : s.done = false)
    (hfault : s.fault = false) (hcause : s.cause = .none) : s.statusWord = 0 := by
  rw [State.statusWord, hbusy, hdone, hfault, hcause]
  rfl

theorem State.irqEnWord_eq (s : State) : s.irqEnWord = if s.ie then 1 else 0 := by
  unfold State.irqEnWord
  cases s.ie <;> rfl

theorem State.cfgWord_eq (s : State) (h : s.cfg.W < 32) :
    s.cfgWord = BitVec.ofNat 32 (s.cfg.W + 256 * s.cfg.sepCheck.toNat) := by
  apply BitVec.eq_of_toNat_eq
  simp only [State.cfgWord, BitVec.toNat_append, BitVec.toNat_ofNat, BitVec.toNat_ofBool]
  rw [Nat.mod_eq_of_lt h, ← Nat.shiftLeft_add_eq_or_of_lt h]
  cases s.cfg.sepCheck <;> simp <;> omega

/-- A write of STATUS, field by field (10_state.md R34, R35, R37). -/
theorem State.writeStatus_eq (s : State) (v : Word) :
    s.writeStatus v = { s with
      done := s.done && !v.getLsbD 1
      fault := s.fault && !v.getLsbD 2
      cause := if v.getLsbD 2 then .none else s.cause
      faultPos := if v.getLsbD 2 then 0 else s.faultPos } := by
  unfold State.writeStatus
  cases v.getLsbD 1 <;> cases v.getLsbD 2 <;> simp [State.clearDone, State.clearFault]

theorem State.whileIdle_of_idle {s : State} (h : s.phase = .idle) (t : State) : s.whileIdle t = t := by
  rw [State.whileIdle, h]

theorem State.whileIdle_of_busy {s : State} (h : s.phase = .busy) (t : State) : s.whileIdle t = s := by
  rw [State.whileIdle, h]

/-! ### What the host reads from and writes to the registers -/

/-- Settles O13. -/
theorem registersReadTheirFields : Obligations.RegistersReadTheirFields := by
  unfold Obligations.RegistersReadTheirFields
  refine ⟨by decide, fun s => ⟨?cmd, ⟨s.statusWord, ?status, s.statusWord_getLsbD 0, s.statusWord_getLsbD 1,
    s.statusWord_getLsbD 2, s.statusWord_cause, s.statusWord_reserved_low, s.statusWord_reserved_high⟩,
    ?faultPos, ?irqEn, ?len0, ?len1, ?recCount⟩⟩
  case irqEn =>
    rw [← s.irqEnWord_eq, s.hostRead_register (by decide) (by decide)]
    rfl
  all_goals
    rw [s.hostRead_register (by decide) (by decide)]
    rfl

/-- Settles O14. -/
theorem statusWriteClearsOnlyDoneAndFault : Obligations.StatusWriteClearsOnlyDoneAndFault := by
  have hwrite : ∀ (s : State) (v : Word),
      s.hostWrite 0x00000004 .four v = { s.writeStatus v with reply := some .ok } :=
    fun s v => s.hostWrite_register v (by decide) (by decide)
  unfold Obligations.StatusWriteClearsOnlyDoneAndFault
  refine ⟨fun s v => ?_, fun s => ⟨s.statusWord_reserved_low, s.statusWord_reserved_high⟩, fun s hs => ?_⟩
  · rw [hwrite, State.writeStatus_eq]
  · have hbusy : s.busy = false := (s.statusWord_getLsbD 0).symm.trans (by rw [hs]; rfl)
    rw [hwrite, State.writeStatus_eq]
    exact ⟨State.statusWord_eq_zero hbusy (Bool.and_false _) (Bool.and_false _) rfl, rfl⟩

/-- Settles O15. -/
theorem writableRegistersHoldWhatIsWritten : Obligations.WritableRegistersHoldWhatIsWritten := by
  unfold Obligations.WritableRegistersHoldWhatIsWritten
  refine fun s v => ⟨s.hostWrite_register v (by decide) (by decide), fun hidle => ⟨?len0, ?len1, ?recCount⟩⟩
  all_goals
    rw [s.hostWrite_register v (by decide) (by decide)]
    exact congrArg (fun t : State => { t with reply := some .ok }) (State.whileIdle_of_idle hidle _)

/-! ### What a command leaves -/

/-- What `exec` of a command can answer: the command turned away, completed with an output that fits, or faulted with the
fault its pseudocode raises. -/
inductive State.Ended (s : State) (i : Instr) : State → Prop where
  | illegal (refused : s.admits i = false) : s.Ended i s.takeIllegal
  | buffer {dst : BufId} {out : List Byte} (admitted : s.admits i = true) (output : outputOf i = .buffer dst)
      (raises : s.commandFault i = none) (fits : out.length ≤ s.cfg.bufCap) : s.Ended i (s.completeBuffer dst out)
  | records {ds : List Descriptor} (admitted : s.admits i = true) (output : outputOf i = .records)
      (raises : s.commandFault i = none) (fits : ds.length ≤ s.cfg.recCap) : s.Ended i (s.completeRecords ds)
  | fault {f : CmdFault} (admitted : s.admits i = true) (raises : s.commandFault i = some f)
      (reported : f.cause ≠ .none) : s.Ended i (s.takeFault (outputOf i) f)

/-- The run of any pseudocode that answers within bounds ends the command, if its completion does. -/
theorem State.runCommand_ended {α : Type} {s : State} {i : Instr} {result : Except CmdFault α} {P : α → Prop}
    {cs : List Cause} {complete : State → α → State} (hfault : s.commandFault i = raised result)
    (hresult : Answers result P cs) (hcs : .none ∉ cs)
    (hcomplete : ∀ out, P out → s.admits i = true → s.commandFault i = none → s.Ended i (complete s out)) :
    s.Ended i (s.runCommand i result complete) := by
  rcases s.runCommand_cases i result complete with ⟨hno, ht⟩ | ⟨hyes, out, rfl, ht⟩ | ⟨hyes, f, rfl, ht⟩
  · exact ht ▸ .illegal hno
  · exact ht ▸ hcomplete out hresult hyes hfault
  · exact ht ▸ .fault hyes hfault fun hnone => hcs (hnone ▸ hresult)

/-- The same for OP 0x1 to 0x5, whose pseudocode answers at most BUF_CAP bytes. -/
theorem State.runCommand_buffer_ended {s : State} {i : Instr} {dst : BufId} {result : Except CmdFault (List Byte)}
    {cs : List Cause} (houtput : outputOf i = .buffer dst) (hfault : s.commandFault i = raised result)
    (hresult : Answers result (fun out => out.length ≤ s.cfg.bufCap) cs) (hcs : .none ∉ cs) :
    s.Ended i (s.runCommand i result (fun s out => s.completeBuffer dst out)) :=
  State.runCommand_ended hfault hresult hcs fun _ hfits hadmitted hok => .buffer hadmitted houtput hok hfits

/-- `exec` answers a next state that ends the command. -/
theorem exec_ended (s : State) (i : Instr) : ∃ t, exec i s = .next t ∧ s.Ended i t := by
  cases i with
  | huffEnc src dst =>
    exact ⟨_, exec_huffEnc src dst s, State.runCommand_buffer_ended rfl rfl (huffEncode_answers _ _) (by decide)⟩
  | huffDec src dst =>
    exact ⟨_, exec_huffDec src dst s, State.runCommand_buffer_ended rfl rfl (huffDecode_answers _ _) (by decide)⟩
  | lzwEnc src dst =>
    exact ⟨_, exec_lzwEnc src dst s, State.runCommand_buffer_ended rfl rfl (lzwEncode_answers _ _) (by decide)⟩
  | lzwDec src dst =>
    exact ⟨_, exec_lzwDec src dst s, State.runCommand_buffer_ended rfl rfl (lzwDecode_answers _ _) (by decide)⟩
  | arcFrame src dst =>
    exact ⟨_, exec_arcFrame src dst s, State.runCommand_buffer_ended rfl rfl (arcFrame_answers _ _ _) (by decide)⟩
  | arcUnframe src =>
    have hcauses : .none ∉ [.eos, .badLength, .recOverflow] ++ if s.cfg.sepCheck then [Cause.badSeparator] else [] := by
      cases s.cfg.sepCheck <;> decide
    exact ⟨_, exec_arcUnframe src s, State.runCommand_ended rfl (arcUnframe_answers _ _) hcauses
      fun _ ⟨hfits, _⟩ hadmitted hok => .records hadmitted rfl hok hfits⟩

theorem State.Ended.of_exec {s t : State} {i : Instr} (h : exec i s = .next t) : s.Ended i t := by
  obtain ⟨u, hu, hended⟩ := exec_ended s i
  cases h.symm.trans hu
  exact hended

/-! ### What a step does -/

/-- What one event of 20_memory.md R83 can make of a state: the idle engine does nothing, the busy one ends the latched
command, or finds no command latched (log 7); reset is asserted; the host reads or writes. WAIT and CHECK are reads of
STATUS (30_encoding.md R113, R114). -/
inductive State.Event (s : State) : State → Prop where
  | idle (phase : s.phase = .idle) : s.Event s
  | command {i : Instr} {t : State} (phase : s.phase = .busy) (latched : decode s.cmd = .ok i) (ended : s.Ended i t) :
      s.Event t
  | noCommand {e : DecodeError} (phase : s.phase = .busy) (latched : decode s.cmd = .error e) : s.Event s.takeIllegal
  | reset : s.Event s.applyReset
  | read (addr : Word) (size : Size) : s.Event (s.hostRead addr size)
  | write (addr : Word) (size : Size) (data : Word) : s.Event (s.hostWrite addr size data)

theorem State.Event.of_engineMove {s t : State} (h : s.engineMove = .next t) : s.Event t := by
  unfold State.engineMove at h
  split at h
  · next hidle =>
    cases h
    exact .idle hidle
  · next hbusy =>
    split at h
    · next i hi => exact .command hbusy hi (.of_exec h)
    · next e he =>
      cases h
      exact .noCommand hbusy he

/-- A move of the host is one transaction, after the list of the moves to come is set. -/
theorem State.hostMove_event (s : State) (op : HostOp) (rest : List Turn) :
    ∃ turns, ({ s with turns } : State).Event (s.hostMove op rest) := by
  cases op with
  | read addr size => exact ⟨_, .read addr size⟩
  | write addr size data => exact ⟨_, .write addr size data⟩
  | wait polls =>
    unfold State.hostMove
    dsimp only
    split <;> exact ⟨_, .read statusAddr .four⟩
  | check =>
    unfold State.hostMove
    dsimp only
    split <;> exact ⟨_, .read statusAddr .four⟩

/-- A step is one event, after the list of the moves to come is set. -/
theorem step_event {s t : State} (h : step s = .next t) : ∃ turns, ({ s with turns } : State).Event t := by
  unfold step State.event at h
  split at h
  · exact ⟨s.turns, .of_engineMove h⟩
  · exact ⟨_, .of_engineMove h⟩
  · cases h
    exact ⟨_, .reset⟩
  · split at h
    · exact ⟨s.turns, .of_engineMove h⟩
    · cases h
      exact s.hostMove_event _ _

/-! ### No event changes the parameters (10_state.md R42 to R44) -/

@[simp] theorem State.takeFault_cfg (s : State) (o : Output) (f : CmdFault) : (s.takeFault o f).cfg = s.cfg := by
  cases o <;> rfl

theorem State.Ended.cfg {s t : State} {i : Instr} (h : s.Ended i t) : t.cfg = s.cfg := by
  cases h with
  | illegal => rfl
  | buffer => rfl
  | records => rfl
  | fault => exact s.takeFault_cfg _ _

@[simp] theorem State.issue_cfg (s : State) (v : Word) : (s.issue v).cfg = s.cfg := by
  unfold State.issue
  split <;> rfl

theorem State.whileIdle_cfg {s t : State} (h : t.cfg = s.cfg) : (s.whileIdle t).cfg = s.cfg := by
  unfold State.whileIdle
  split
  · exact h
  · rfl

/-- A write of CMD is issue, guarded by the phase as the other writes are. -/
theorem State.writeCmd_eq (s : State) (v : Word) : s.writeCmd v = s.whileIdle (s.issue v) := rfl

theorem State.writeReg_cfg (s : State) (r : Reg) (v : Word) : (s.writeReg r v).cfg = s.cfg := by
  cases r with
  | cmd =>
    rw [State.writeReg, State.writeCmd_eq]
    exact State.whileIdle_cfg (s.issue_cfg v)
  | status => rw [State.writeReg, State.writeStatus_eq]
  | len k => exact State.whileIdle_cfg rfl
  | recCount => exact State.whileIdle_cfg rfl
  | _ => rfl

theorem State.writeTarget_cfg (s : State) (t : Target) (v : Word) : (s.writeTarget t v).cfg = s.cfg := by
  cases t with
  | reg r => exact s.writeReg_cfg r v
  | recWord a => exact State.whileIdle_cfg rfl
  | buf k a => exact State.whileIdle_cfg rfl

theorem State.hostWrite_cfg (s : State) (addr : Word) (size : Size) (data : Word) :
    (s.hostWrite addr size data).cfg = s.cfg := by
  unfold State.hostWrite
  split
  · exact s.writeTarget_cfg _ _
  · rfl

/-- A legal read uses up a free draw, or changes nothing. -/
theorem State.afterRead_cases (s : State) (t : Target) : s.afterRead t = s ∨ s.afterRead t = s.nextDraw := by
  cases t with
  | reg r => exact .inl rfl
  | recWord a => cases h : s.phase <;> simp [State.afterRead, h]
  | buf k a => cases h : s.phase <;> simp [State.afterRead, h]

/-- A read changes the last reply, and may use up a free draw. -/
theorem State.hostRead_cases (s : State) (addr : Word) (size : Size) :
    ∃ reply, s.hostRead addr size = { s with reply } ∨ s.hostRead addr size = { s.nextDraw with reply } := by
  unfold State.hostRead
  split
  · next t _ =>
    rcases s.afterRead_cases t with h | h
    · exact ⟨_, .inl (by rw [h])⟩
    · exact ⟨_, .inr (by rw [h])⟩
  · exact ⟨_, .inl rfl⟩

theorem State.hostRead_cfg (s : State) (addr : Word) (size : Size) : (s.hostRead addr size).cfg = s.cfg := by
  obtain ⟨reply, h | h⟩ := s.hostRead_cases addr size <;> rw [h]
  rfl

theorem State.Event.cfg {s t : State} (h : s.Event t) : t.cfg = s.cfg := by
  cases h with
  | idle => rfl
  | command _ _ ended => exact ended.cfg
  | noCommand => rfl
  | reset => rfl
  | read addr size => exact s.hostRead_cfg addr size
  | write addr size data => exact s.hostWrite_cfg addr size data

/-- Settles O16. -/
theorem parameterRegistersNeverChange : Obligations.ParameterRegistersNeverChange := by
  unfold Obligations.ParameterRegistersNeverChange
  refine ⟨fun s v hlegal => ⟨?bufCap, ?recCap, ?cfg, fun addr haddr => ?readOnly⟩, fun s v addr haddr => ?reserved,
    fun s t hstep => ?step⟩
  case bufCap | recCap =>
    rw [s.hostRead_register (by decide) (by decide)]
    rfl
  case cfg =>
    obtain ⟨-, hW, -⟩ := hlegal
    rw [← s.cfgWord_eq (by omega), s.hostRead_register (by decide) (by decide)]
    rfl
  case readOnly =>
    simp only [List.mem_cons, List.not_mem_nil, or_false] at haddr
    rcases haddr with rfl | rfl | rfl | rfl <;> exact s.hostWrite_register v (by decide) (by decide)
  case reserved =>
    have hreserved : addr.toNat < 0x100 ∧ addr.toNat % 4 = 0 ∧ regAt addr.toNat = .reserved := by
      rcases haddr with rfl | ⟨hlow, hhigh, haligned⟩
      · decide
      · exact ⟨by omega, haligned, regAt_reserved (.inr hlow)⟩
    obtain ⟨hblock, haligned, hreg⟩ := hreserved
    rw [s.hostRead_register hblock haligned, s.hostWrite_register v hblock haligned, hreg]
    exact ⟨rfl, rfl⟩
  case step =>
    obtain ⟨turns, hevent⟩ := step_event hstep
    exact hevent.cfg

/-! ### The memories (10_state.md R49, R50) -/

/-- A buffer in canonical form, within `cap` bytes, and filled by a draw below `draws`. -/
def Memory.OkIn (m : Memory) (cap draws : Nat) : Prop := m.wf ∧ (∀ c ∈ m.cells, c.1 < cap) ∧ m.fill < draws

/-- A record table in canonical form, within `cap` descriptors, and filled by a draw below `draws`. -/
def RecTable.OkIn (t : RecTable) (cap draws : Nat) : Prop := t.wf ∧ (∀ c ∈ t.words, c.1 < 4 * cap) ∧ t.fill < draws

theorem Memory.OkIn.mono {m : Memory} {cap d e : Nat} (h : m.OkIn cap d) (hde : d ≤ e) : m.OkIn cap e :=
  let ⟨hwf, hcap, hfill⟩ := h
  ⟨hwf, hcap, Nat.lt_of_lt_of_le hfill hde⟩

theorem RecTable.OkIn.mono {t : RecTable} {cap d e : Nat} (h : t.OkIn cap d) (hde : d ≤ e) : t.OkIn cap e :=
  let ⟨hwf, hcap, hfill⟩ := h
  ⟨hwf, hcap, Nat.lt_of_lt_of_le hfill hde⟩

theorem Memory.okIn_empty (cap : Nat) {fill draws : Nat} (h : fill < draws) :
    Memory.OkIn { cells := [], fill } cap draws :=
  ⟨.nil, by simp, h⟩

theorem RecTable.okIn_empty (cap : Nat) {fill draws : Nat} (h : fill < draws) :
    RecTable.OkIn { words := [], fill } cap draws :=
  ⟨.nil, by simp, h⟩

theorem Memory.OkIn.writeAll {m : Memory} {cap draws a : Nat} {bs : List Byte} (h : m.OkIn cap draws)
    (hfit : a + bs.length ≤ cap) : (m.writeAll a bs).OkIn cap draws := by
  obtain ⟨hwf, hcap, hfill⟩ := h
  exact ⟨Memory.wf_writeAll hwf a bs, Memory.cells_writeAll_lt hcap hfit, (m.writeAll_fill a bs).symm ▸ hfill⟩

theorem Memory.OkIn.write {m : Memory} {cap draws a : Nat} (h : m.OkIn cap draws) (ha : a < cap) (v : Byte) :
    (m.write a v).OkIn cap draws :=
  h.writeAll (bs := [v]) ha

theorem RecTable.OkIn.writeDescs {t : RecTable} {cap draws i : Nat} {ds : List Descriptor} (h : t.OkIn cap draws)
    (hfit : i + ds.length ≤ cap) : (t.writeDescs i ds).OkIn cap draws := by
  obtain ⟨hwf, hcap, hfill⟩ := h
  exact ⟨RecTable.wf_writeDescs hwf i ds, RecTable.words_writeDescs_lt hcap hfit, (t.writeDescs_fill i ds).symm ▸ hfill⟩

theorem RecTable.OkIn.writeWord {t : RecTable} {cap draws a : Nat} (h : t.OkIn cap draws) (ha : a < 4 * cap)
    (v : Word) : (t.writeWord a v).OkIn cap draws := by
  obtain ⟨hwf, hcap, hfill⟩ := h
  refine ⟨RecTable.wf_writeWord hwf a v, fun c hc => ?_, hfill⟩
  rcases mem_putCell hc with rfl | hc
  · exact ha
  · exact hcap c hc

/-- `State.MemOk` buffer by buffer. -/
theorem State.memOk_iff (s : State) :
    s.MemOk ↔ (∀ k, (s.mem k).OkIn s.cfg.bufCap s.draws) ∧ s.recs.OkIn s.cfg.recCap s.draws where
  mp h := ⟨fun
    | .buf0 => ⟨h.buf0_wf, h.buf0_cap, h.buf0_fill⟩
    | .buf1 => ⟨h.buf1_wf, h.buf1_cap, h.buf1_fill⟩, h.recs_wf, h.recs_cap, h.recs_fill⟩
  mpr h := by
    obtain ⟨hbufs, hwf, hcap, hfill⟩ := h
    obtain ⟨hwf0, hcap0, hfill0⟩ := hbufs .buf0
    obtain ⟨hwf1, hcap1, hfill1⟩ := hbufs .buf1
    exact ⟨hwf0, hwf1, hwf, hcap0, hcap1, hcap, hfill0, hfill1, hfill⟩

theorem State.MemOk.setMem {s : State} (h : s.MemOk) (k : BufId) {m : Memory} (hm : m.OkIn s.cfg.bufCap s.draws) :
    (s.setMem k m).MemOk := by
  obtain ⟨hbufs, hrecs⟩ := s.memOk_iff.1 h
  refine (State.memOk_iff _).2 ⟨fun j => ?_, hrecs⟩
  rw [State.mem_setMem]
  split
  · exact hm
  · exact hbufs j

theorem State.MemOk.setRecs {s : State} (h : s.MemOk) {t : RecTable} (ht : t.OkIn s.cfg.recCap s.draws) :
    ({ s with recs := t } : State).MemOk :=
  (State.memOk_iff _).2 ⟨(s.memOk_iff.1 h).1, ht⟩

theorem State.MemOk.nextDraw {s : State} (h : s.MemOk) : s.nextDraw.MemOk := by
  obtain ⟨hbufs, hrecs⟩ := s.memOk_iff.1 h
  exact (State.memOk_iff _).2 ⟨fun k => (hbufs k).mono (Nat.le_succ _), hrecs.mono (Nat.le_succ _)⟩

theorem State.MemOk.applyReset (s : State) : s.applyReset.MemOk :=
  (State.memOk_iff _).2 ⟨fun
    | .buf0 => Memory.okIn_empty _ (by simp)
    | .buf1 => Memory.okIn_empty _ (by simp), RecTable.okIn_empty _ (by simp)⟩

theorem State.MemOk.completeBuffer {s : State} (h : s.MemOk) (dst : BufId) {out : List Byte}
    (hfit : out.length ≤ s.cfg.bufCap) : (s.completeBuffer dst out).MemOk := by
  have hmem : ((s.mem dst).writeAll 0 out).OkIn s.cfg.bufCap s.draws :=
    ((s.memOk_iff.1 h).1 dst).writeAll (by rwa [Nat.zero_add])
  exact { h.setMem dst hmem with }

theorem State.MemOk.completeRecords {s : State} (h : s.MemOk) {ds : List Descriptor}
    (hfit : ds.length ≤ s.cfg.recCap) : (s.completeRecords ds).MemOk := by
  have hrecs : (s.recs.writeDescs 0 ds).OkIn s.cfg.recCap s.draws :=
    (s.memOk_iff.1 h).2.writeDescs (by rwa [Nat.zero_add])
  exact { h.setRecs hrecs with }

/-- Fault entry leaves the output empty, filled by the draw it takes. -/
theorem State.MemOk.takeFault {s : State} (h : s.MemOk) (o : Output) (f : CmdFault) : (s.takeFault o f).MemOk := by
  cases o with
  | buffer dst => exact { h.nextDraw.setMem dst (Memory.okIn_empty _ (Nat.lt_succ_self s.draws)) with }
  | records => exact { h.nextDraw.setRecs (RecTable.okIn_empty _ (Nat.lt_succ_self s.draws)) with }

/-! ### STATUS (10_state.md R34 to R38) -/

theorem State.StatusOk.fault_of_busy {s : State} (h : s.StatusOk) (hbusy : s.phase = .busy) : s.fault = false := by
  cases hfault : s.fault with
  | false => rfl
  | true => exact absurd (hbusy.symm.trans (h.idle_if_fault hfault)) (by decide)

theorem State.StatusOk.cause_of_no_fault {s : State} (h : s.StatusOk) (hfault : s.fault = false) : s.cause = .none := by
  by_contra hcause
  exact absurd (hfault.symm.trans (h.cause_iff.2 hcause)) (by decide)

/-- STATUS with FAULT, CAUSE and FAULT_POS clear, and DONE only while IDLE. -/
theorem State.StatusOk.of_clear {s : State} (hfault : s.fault = false) (hcause : s.cause = .none)
    (hpos : s.faultPos = 0) (hdone : s.done = true → s.phase = .idle) : s.StatusOk where
  not_both h := by simp [hfault] at h
  idle_if_done := hdone
  idle_if_fault h := by simp [hfault] at h
  cause_iff := by simp [hfault, hcause]
  pos_zero _ := hpos

theorem DoneFrom.statusOk {s t : State} (h : DoneFrom s t) (hs : s.StatusOk) (hfault : s.fault = false) :
    t.StatusOk :=
  .of_clear (h.fault.trans hfault) (h.cause.trans (hs.cause_of_no_fault hfault))
    (h.faultPos.trans (hs.pos_zero hfault)) fun _ => h.phase

theorem FaultedBy.statusOk {t : State} {f : CmdFault} (h : FaultedBy t f) (hf : f.cause ≠ .none) : t.StatusOk where
  not_both hboth := by simp [h.done] at hboth
  idle_if_done _ := h.phase
  idle_if_fault _ := h.phase
  cause_iff := by simp [h.fault, h.cause, hf]
  pos_zero hno := by simp [h.fault] at hno

theorem State.completeBuffer_doneFrom (s : State) (dst : BufId) (out : List Byte) :
    DoneFrom s (s.completeBuffer dst out) :=
  ⟨rfl, rfl, rfl, rfl, rfl⟩

theorem State.completeRecords_doneFrom (s : State) (ds : List Descriptor) : DoneFrom s (s.completeRecords ds) :=
  ⟨rfl, rfl, rfl, rfl, rfl⟩

theorem State.takeFault_faultedBy (s : State) (o : Output) (f : CmdFault) : FaultedBy (s.takeFault o f) f :=
  ⟨rfl, rfl, rfl, rfl, rfl⟩

theorem State.StatusOk.clearDone {s : State} (h : s.StatusOk) : s.clearDone.StatusOk :=
  { h with
    not_both := by simp
    idle_if_done := by simp }

theorem State.StatusOk.clearFault {s : State} (h : s.StatusOk) : s.clearFault.StatusOk :=
  .of_clear rfl rfl rfl h.idle_if_done

/-! ### The latched command (30_encoding.md R107) -/

theorem State.LatchOk.of_idle {s : State} (h : s.phase = .idle) : s.LatchOk :=
  fun hbusy => absurd (h.symm.trans hbusy) (by decide)

/-! ### Every event keeps the invariant

`{ h.status with }` and `{ h.mem with }` carry a part of the invariant over, as it stands, to a state that differs only in
fields the part does not name. -/

theorem State.Inv.withTurns {s : State} (h : s.Inv) (turns : List Turn) : ({ s with turns } : State).Inv where
  params := h.params
  status := { h.status with }
  latch := h.latch
  mem := { h.mem with }

theorem State.Inv.withReply {s : State} (h : s.Inv) (reply : Option Reply) : ({ s with reply } : State).Inv where
  params := h.params
  status := { h.status with }
  latch := h.latch
  mem := { h.mem with }

theorem State.Inv.nextDraw {s : State} (h : s.Inv) : s.nextDraw.Inv where
  params := h.params
  status := { h.status with }
  latch := h.latch
  mem := h.mem.nextDraw

theorem State.Inv.takeIllegal {s : State} (h : s.Inv) : s.takeIllegal.Inv where
  params := h.params
  status := s.takeIllegal_faultsIllegal.status.statusOk (by decide)
  latch := .of_idle rfl
  mem := { h.mem with }

theorem State.Inv.applyReset {s : State} (h : s.Inv) : s.applyReset.Inv where
  params := h.params
  status := .of_clear rfl rfl rfl fun _ => rfl
  latch := .of_idle rfl
  mem := .applyReset s

/-- A command that runs while BUSY starts with FAULT = 0, so it may complete. -/
theorem State.Ended.inv {s t : State} {i : Instr} (h : s.Ended i t) (hs : s.Inv) (hbusy : s.phase = .busy) : t.Inv := by
  have hfault : s.fault = false := hs.status.fault_of_busy hbusy
  cases h with
  | illegal => exact hs.takeIllegal
  | @buffer dst out _ _ _ fits =>
    exact ⟨hs.params, (s.completeBuffer_doneFrom dst out).statusOk hs.status hfault, .of_idle rfl,
      hs.mem.completeBuffer dst fits⟩
  | @records ds _ _ _ fits =>
    exact ⟨hs.params, (s.completeRecords_doneFrom ds).statusOk hs.status hfault, .of_idle rfl,
      hs.mem.completeRecords fits⟩
  | @fault f _ _ reported =>
    exact ⟨(s.takeFault_cfg _ f).symm ▸ hs.params, (s.takeFault_faultedBy _ f).statusOk reported, .of_idle rfl,
      hs.mem.takeFault _ f⟩

/-- Issue latches a legal word as the command, and faults an illegal one. -/
theorem State.Inv.issue {s : State} (h : s.Inv) (hidle : s.phase = .idle) (v : Word) : (s.issue v).Inv := by
  have hlatch : (s.latch v).Inv := ⟨h.params, .of_clear rfl rfl rfl (by simp), .of_idle hidle, { h.mem with }⟩
  unfold State.issue
  split
  · next hlegal => exact ⟨h.params, .of_clear rfl rfl rfl (by simp), fun _ => hlegal, { h.mem with }⟩
  · exact hlatch.takeIllegal

theorem State.Inv.whileIdle {s t : State} (h : s.Inv) (ht : s.phase = .idle → t.Inv) : (s.whileIdle t).Inv := by
  cases hphase : s.phase with
  | idle =>
    rw [State.whileIdle_of_idle hphase]
    exact ht hphase
  | busy =>
    rw [State.whileIdle_of_busy hphase]
    exact h

theorem State.Inv.writeStatus {s : State} (h : s.Inv) (v : Word) : (s.writeStatus v).Inv := by
  have hdone : (if v.getLsbD 1 then s.clearDone else s).Inv := by
    split
    · exact ⟨h.params, h.status.clearDone, h.latch, { h.mem with }⟩
    · exact h
  unfold State.writeStatus
  dsimp only
  split
  · exact ⟨hdone.params, hdone.status.clearFault, hdone.latch, { hdone.mem with }⟩
  · exact hdone

theorem State.Inv.writeReg {s : State} (h : s.Inv) (r : Reg) (v : Word) : (s.writeReg r v).Inv := by
  cases r with
  | cmd =>
    rw [State.writeReg, State.writeCmd_eq]
    exact h.whileIdle fun hidle => h.issue hidle v
  | status => exact h.writeStatus v
  | irqEn => exact ⟨h.params, { h.status with }, h.latch, { h.mem with }⟩
  | len k => exact h.whileIdle fun hidle => ⟨h.params, { h.status with }, .of_idle hidle, { h.mem with }⟩
  | recCount => exact h.whileIdle fun hidle => ⟨h.params, { h.status with }, .of_idle hidle, { h.mem with }⟩
  | _ => exact h

/-- The target lies inside its memory. -/
def Target.InRange (p : Params) : Target → Prop
  | .reg _ => True
  | .recWord a => a < 4 * p.recCap
  | .buf _ a => a < p.bufCap

theorem region_inRange {p : Params} {a : Nat} {t : Target} (h : region p a = some t) : t.InRange p := by
  unfold region at h
  split_ifs at h <;> cases h <;> simp only [Target.InRange] <;> omega

theorem target_inRange {p : Params} {addr : Word} {size : Size} {t : Target} (h : target p addr size = some t) :
    t.InRange p := by
  unfold target at h
  split at h
  · next hregion =>
    split at h
    · cases h
      exact region_inRange hregion
    · cases h
  · cases h

theorem State.Inv.writeTarget {s : State} (h : s.Inv) {t : Target} (ht : t.InRange s.cfg) (v : Word) :
    (s.writeTarget t v).Inv := by
  obtain ⟨hbufs, hrecs⟩ := s.memOk_iff.1 h.mem
  cases t with
  | reg r => exact h.writeReg r v
  | recWord a =>
    exact h.whileIdle fun hidle =>
      ⟨h.params, { h.status with }, .of_idle hidle, h.mem.setRecs (hrecs.writeWord ht v)⟩
  | buf k a =>
    exact h.whileIdle fun hidle =>
      ⟨h.params, { h.status with }, .of_idle hidle, h.mem.setMem k ((hbufs k).write ht _)⟩

theorem State.Inv.hostWrite {s : State} (h : s.Inv) (addr : Word) (size : Size) (data : Word) :
    (s.hostWrite addr size data).Inv := by
  unfold State.hostWrite
  split
  · next ht => exact (h.writeTarget (target_inRange ht) data).withReply _
  · exact h.withReply _

theorem State.Inv.hostRead {s : State} (h : s.Inv) (addr : Word) (size : Size) : (s.hostRead addr size).Inv := by
  obtain ⟨reply, ht | ht⟩ := s.hostRead_cases addr size <;> rw [ht]
  · exact h.withReply reply
  · exact h.nextDraw.withReply reply

theorem State.Event.inv {s t : State} (h : s.Event t) (hs : s.Inv) : t.Inv := by
  cases h with
  | idle => exact hs
  | command phase _ ended => exact ended.inv hs phase
  | noCommand => exact hs.takeIllegal
  | reset => exact hs.applyReset
  | read addr size => exact hs.hostRead addr size
  | write addr size data => exact hs.hostWrite addr size data

/-- Settles O9: a step is one event (`step_event`), and each event keeps the invariant. -/
theorem everyStepKeepsTheInvariant : Obligations.EveryStepKeepsTheInvariant := by
  unfold Obligations.EveryStepKeepsTheInvariant
  intro s t hs hstep
  obtain ⟨turns, hevent⟩ := step_event hstep
  exact hevent.inv (hs.withTurns turns)

end Sys2Proof.Machine
end

section
/-! SUPPORT. Host transactions (20_memory.md R71 to R75, R80): which target an address reaches, what a read and a write of
that target do while IDLE and while BUSY, and the statements about the host bus. -/

namespace Sys2Proof.Machine

/-! ### The address map (20_memory.md R71, R72) -/

/-- An aligned four-byte transaction inside REC reaches a word of it. -/
theorem target_recWord {p : Params} {addr : Word} (hlow : recBase ≤ addr.toNat)
    (hhigh : addr.toNat < recBase + 16 * p.recCap) (haligned : addr.toNat % 4 = 0) :
    target p addr .four = some (.recWord ((addr.toNat - recBase) / 4)) := by
  have hbase : recBase = 0x00010000 := rfl
  have hblock : ¬ addr.toNat < 0x100 := by omega
  have hregion : region p addr.toNat = some (.recWord ((addr.toNat - recBase) / 4)) := by
    rw [region, if_neg hblock, if_pos ⟨hlow, hhigh⟩]
  simp [target, hregion, Target.width, Size.bytes, haligned]

/-- A one-byte transaction inside BUFk reaches a byte of it: for legal parameters the regions before it end below its
base. -/
theorem target_buf {p : Params} (hp : p.Legal) {addr : Word} {k : BufId} (hlow : bufBase k ≤ addr.toNat)
    (hhigh : addr.toNat < bufBase k + p.bufCap) :
    target p addr .one = some (.buf k (addr.toNat - bufBase k)) := by
  obtain ⟨-, -, -, hbuf, -, hrec⟩ := hp
  have hregion : region p addr.toNat = some (.buf k (addr.toNat - bufBase k)) := by
    have hrecBase : recBase = 0x00010000 := rfl
    have hbase0 : bufBase .buf0 = 0x10000000 := rfl
    have hbase1 : bufBase .buf1 = 0x20000000 := rfl
    unfold region
    cases k with
    | buf0 => rw [if_neg (by omega), if_neg (by omega), if_pos (by omega)]
    | buf1 => rw [if_neg (by omega), if_neg (by omega), if_neg (by omega), if_pos (by omega)]
  simp [target, hregion, Target.width, Size.bytes, Nat.mod_one]

/-- Word j of descriptor i is at `recBase + 16i + 4j` (20_memory.md R74). -/
theorem target_recWord_addr {p : Params} (hp : p.Legal) {i j : Nat} (hi : i < p.recCap) (hj : j < 4) :
    target p (BitVec.ofNat 32 (0x00010000 + 16 * i + 4 * j)) .four = some (.recWord (4 * i + j)) := by
  obtain ⟨-, -, -, -, -, hrec⟩ := hp
  have haddr : (BitVec.ofNat 32 (0x00010000 + 16 * i + 4 * j)).toNat = recBase + 4 * (4 * i + j) := by
    rw [BitVec.toNat_ofNat, recBase]
    omega
  rw [target_recWord (by omega) (by omega) (by rw [haddr, recBase]; omega), haddr, Nat.add_sub_cancel_left,
    Nat.mul_div_cancel_left _ (by decide)]

/-- Byte a of BUFk is at `bufBase k + a` (20_memory.md R73). -/
theorem target_buf_addr {p : Params} (hp : p.Legal) (k : BufId) {a : Nat} (ha : a < p.bufCap) :
    target p (BitVec.ofNat 32 (bufBase k + a)) .one = some (.buf k a) := by
  have haddr : (BitVec.ofNat 32 (bufBase k + a)).toNat = bufBase k + a := by
    obtain ⟨-, -, -, hbuf, -⟩ := hp
    rw [BitVec.toNat_ofNat]
    cases k <;> rw [bufBase] <;> omega
  rw [target_buf hp (k := k) (by omega) (by omega), haddr, Nat.add_sub_cancel_left]

/-- Each target's access width and alignment are those of `LegalTransaction`. -/
theorem legalTransaction_of_target {p : Params} {addr : Word} {size : Size} {t : Target}
    (h : target p addr size = some t) : LegalTransaction p addr size := by
  unfold target at h
  split at h
  case h_2 => cases h
  case h_1 hregion =>
    split at h
    case isFalse => cases h
    case isTrue hfits =>
      obtain ⟨hwidth, haligned⟩ := hfits
      unfold region at hregion
      split_ifs at hregion with hblock hrecs hbuf0 hbuf1 <;> cases hregion <;> cases hwidth
      · exact .inl ⟨hblock, rfl, haligned⟩
      · exact .inr (.inl ⟨hrecs.1, hrecs.2, rfl, haligned⟩)
      · exact .inr (.inr (.inl ⟨hbuf0.1, hbuf0.2, rfl⟩))
      · exact .inr (.inr (.inr ⟨hbuf1.1, hbuf1.2, rfl⟩))

theorem exists_target_of_legalTransaction {p : Params} (hp : p.Legal) {addr : Word} {size : Size}
    (h : LegalTransaction p addr size) : ∃ t, target p addr size = some t := by
  rcases h with ⟨hblock, rfl, haligned⟩ | ⟨hlow, hhigh, rfl, haligned⟩ | ⟨hlow, hhigh, rfl⟩ | ⟨hlow, hhigh, rfl⟩
  · exact ⟨_, target_register p hblock haligned⟩
  · exact ⟨_, target_recWord hlow hhigh haligned⟩
  · exact ⟨_, target_buf hp (k := .buf0) hlow hhigh⟩
  · exact ⟨_, target_buf hp (k := .buf1) hlow hhigh⟩

/-- The map of R71 with the rule of R72 turns away exactly the transactions that are not legal. -/
theorem target_eq_none_iff {p : Params} (hp : p.Legal) (addr : Word) (size : Size) :
    target p addr size = none ↔ ¬ LegalTransaction p addr size := by
  constructor
  · intro hnone hlegal
    obtain ⟨t, ht⟩ := exists_target_of_legalTransaction hp hlegal
    cases hnone.symm.trans ht
  · intro hillegal
    cases ht : target p addr size with
    | none => rfl
    | some t => exact absurd (legalTransaction_of_target ht) hillegal

/-- Only the register block reaches a register. -/
theorem lt_of_target_reg {p : Params} {addr : Word} {size : Size} {r : Reg}
    (h : target p addr size = some (.reg r)) : addr.toNat < 0x100 := by
  by_contra hblock
  unfold target region at h
  rw [if_neg hblock] at h
  split_ifs at h <;> simp at h

/-! ### A transaction by its target (20_memory.md R72) -/

theorem State.hostRead_of_target {s : State} {addr : Word} {size : Size} {t : Target}
    (h : target s.cfg addr size = some t) :
    s.hostRead addr size = { s.afterRead t with reply := some (s.readTarget t) } := by
  rw [State.hostRead, h]

theorem State.hostWrite_of_target {s : State} {addr : Word} {size : Size} {t : Target}
    (h : target s.cfg addr size = some t) (data : Word) :
    s.hostWrite addr size data = { s.writeTarget t data with reply := some .ok } := by
  rw [State.hostWrite, h]

theorem State.hostRead_of_no_target {s : State} {addr : Word} {size : Size} (h : target s.cfg addr size = none) :
    s.hostRead addr size = { s with reply := some .busErr } := by
  rw [State.hostRead, h]

theorem State.hostWrite_of_no_target {s : State} {addr : Word} {size : Size} (h : target s.cfg addr size = none)
    (data : Word) : s.hostWrite addr size data = { s with reply := some .busErr } := by
  rw [State.hostWrite, h]

/-- A legal read returns a byte or a word, in either phase. -/
theorem State.readTarget_cases (s : State) (t : Target) :
    (∃ b, s.readTarget t = .byte b) ∨ ∃ w, s.readTarget t = .word w := by
  cases t with
  | reg r => exact .inr ⟨_, rfl⟩
  | recWord a => cases h : s.phase <;> simp [State.readTarget, h]
  | buf k a => cases h : s.phase <;> simp [State.readTarget, h]

theorem State.hostRead_reply_busErr_iff (s : State) (addr : Word) (size : Size) :
    (s.hostRead addr size).reply = some .busErr ↔ target s.cfg addr size = none := by
  cases ht : target s.cfg addr size with
  | none => simp [State.hostRead_of_no_target ht]
  | some t =>
    rw [State.hostRead_of_target ht]
    rcases s.readTarget_cases t with ⟨b, h⟩ | ⟨w, h⟩ <;> simp [h]

theorem State.hostWrite_reply_busErr_iff (s : State) (addr : Word) (size : Size) (data : Word) :
    (s.hostWrite addr size data).reply = some .busErr ↔ target s.cfg addr size = none := by
  cases ht : target s.cfg addr size with
  | none => simp [State.hostWrite_of_no_target ht]
  | some t => simp [State.hostWrite_of_target ht]

/-- Settles O11. -/
theorem busErrorExactlyWhereIllegal : Obligations.BusErrorExactlyWhereIllegal := by
  unfold Obligations.BusErrorExactlyWhereIllegal
  intro s addr size data hp
  rw [← target_eq_none_iff hp]
  exact ⟨s.hostRead_reply_busErr_iff addr size, s.hostWrite_reply_busErr_iff addr size data,
    fun hnone => ⟨State.hostRead_of_no_target hnone, State.hostWrite_of_no_target hnone data⟩⟩

/-! ### A read changes the model's own fields only (20_memory.md R80) -/

theorem SameBlock.of_own_fields (s : State) (draws : Nat) (reply : Option Reply) :
    SameBlock s { s with draws, reply } :=
  ⟨rfl, rfl, rfl, rfl, rfl, rfl, rfl, rfl, fun _ => ⟨rfl, rfl⟩, rfl, rfl, rfl⟩

theorem State.hostRead_sameBlock (s : State) (addr : Word) (size : Size) : SameBlock s (s.hostRead addr size) := by
  obtain ⟨reply, h | h⟩ := s.hostRead_cases addr size <;> rw [h]
  · exact .of_own_fields s s.draws reply
  · exact .of_own_fields s (s.draws + 1) reply

/-- Settles O12. -/
theorem hostReadsHaveNoSideEffect : Obligations.HostReadsHaveNoSideEffect :=
  State.hostRead_sameBlock

/-! ### The memories while IDLE (20_memory.md R73, R74) -/

theorem State.hostRead_buf_of_idle {s : State} (hidle : s.phase = .idle) {addr : Word} {size : Size} {k : BufId}
    {a : Nat} (h : target s.cfg addr size = some (.buf k a)) :
    s.hostRead addr size = { s with reply := some (.byte (s.byteAt k a)) } := by
  simp only [State.hostRead_of_target h, State.afterRead, State.readTarget, hidle]

theorem State.hostWrite_buf_of_idle {s : State} (hidle : s.phase = .idle) {addr : Word} {size : Size} {k : BufId}
    {a : Nat} (h : target s.cfg addr size = some (.buf k a)) (data : Word) :
    s.hostWrite addr size data =
      { s.setMem k ((s.mem k).write a (data.setWidth 8)) with reply := some .ok } := by
  rw [State.hostWrite_of_target h, State.writeTarget, State.whileIdle_of_idle hidle]

theorem State.hostRead_recWord_of_idle {s : State} (hidle : s.phase = .idle) {addr : Word} {size : Size} {a : Nat}
    (h : target s.cfg addr size = some (.recWord a)) :
    s.hostRead addr size = { s with reply := some (.word (s.recs.readWord a)) } := by
  simp only [State.hostRead_of_target h, State.afterRead, State.readTarget, hidle]

theorem State.hostWrite_recWord_of_idle {s : State} (hidle : s.phase = .idle) {addr : Word} {size : Size} {a : Nat}
    (h : target s.cfg addr size = some (.recWord a)) (data : Word) :
    s.hostWrite addr size data = { s with recs := s.recs.writeWord a data, reply := some .ok } := by
  rw [State.hostWrite_of_target h, State.writeTarget, State.whileIdle_of_idle hidle]

/-- A write of one byte of BUFk, read byte by byte. -/
theorem State.byteAt_setMem_write (s : State) (k j : BufId) (a b : Nat) (v : Byte) :
    (s.setMem k ((s.mem k).write a v)).byteAt j b = if k = j ∧ a = b then v else s.byteAt j b := by
  rw [State.byteAt_setMem, Memory.read_write]
  by_cases hk : k = j
  · subst hk
    simp [State.byteAt]
  · simp [hk]

/-- Settles O17: the read back has the same target as the write, in a state that is still IDLE. -/
theorem bufferBytesReadBack : Obligations.BufferBytesReadBack := by
  unfold Obligations.BufferBytesReadBack
  intro s k a v hp hidle ha
  have htarget : target s.cfg (BitVec.ofNat 32 (bufBase k + a)) .one = some (.buf k a) := target_buf_addr hp k ha
  have hbyte : (v.setWidth 32).setWidth 8 = v := by simp
  rw [State.hostWrite_buf_of_idle hidle htarget, hbyte]
  refine ⟨rfl, ?readBack, fun j b hne => ?others, ⟨rfl, fun _ => rfl⟩, ⟨rfl, rfl, rfl, rfl, rfl⟩, fun _ => rfl,
    rfl, rfl⟩
  case readBack =>
    rw [State.hostRead_buf_of_idle (by exact hidle) (by exact htarget)]
    exact congrArg (fun b => some (Reply.byte b)) ((s.byteAt_setMem_write k k a a v).trans (if_pos ⟨rfl, rfl⟩))
  case others =>
    refine (s.byteAt_setMem_write k j a b v).trans (if_neg fun ⟨hk, hb⟩ => ?_)
    exact hne.elim (fun h => h hk.symm) (fun h => h hb.symm)

/-- Settles O18: the read back has the same target as the write, in a state that is still IDLE. -/
theorem recordWordsReadBack : Obligations.RecordWordsReadBack := by
  unfold Obligations.RecordWordsReadBack
  intro s i j v hp hidle hi hj
  have htarget := target_recWord_addr hp hi hj
  dsimp only
  rw [State.hostWrite_recWord_of_idle hidle htarget]
  refine ⟨rfl, ?readBack, fun a hne => ?others, rfl, rfl, fun _ => ⟨rfl, fun _ => rfl⟩, ⟨rfl, rfl, rfl, rfl, rfl⟩,
    rfl, rfl⟩
  case readBack =>
    rw [State.hostRead_recWord_of_idle (by exact hidle) (by exact htarget), RecTable.readWord_writeWord, if_pos rfl]
  case others => rw [RecTable.readWord_writeWord, if_neg hne.symm]

/-! ### Host access while BUSY (20_memory.md R75) -/

/-- A legal write beyond the register block has no effect while BUSY. -/
theorem State.hostWrite_memory_of_busy {s : State} (hbusy : s.phase = .busy) {addr : Word} {size : Size} {t : Target}
    (h : target s.cfg addr size = some t) (hblock : 0x100 ≤ addr.toNat) (data : Word) :
    s.hostWrite addr size data = { s with reply := some .ok } := by
  rw [State.hostWrite_of_target h]
  cases t with
  | reg r => exact absurd (lt_of_target_reg h) (Nat.not_lt.2 hblock)
  | recWord a => rw [State.writeTarget, State.whileIdle_of_busy hbusy]
  | buf k a => rw [State.writeTarget, State.whileIdle_of_busy hbusy]

theorem State.StatusOk.done_of_busy {s : State} (h : s.StatusOk) (hbusy : s.phase = .busy) : s.done = false := by
  cases hdone : s.done with
  | false => rfl
  | true => exact absurd (hbusy.symm.trans (h.idle_if_done hdone)) (by decide)

theorem State.clearDone_of_not_done {s : State} (h : s.done = false) : s.clearDone = s := by
  rw [State.clearDone, ← h]

theorem State.StatusOk.clearFault_of_no_fault {s : State} (h : s.StatusOk) (hfault : s.fault = false) :
    s.clearFault = s := by
  rw [State.clearFault, ← h.cause_of_no_fault hfault, ← h.pos_zero hfault, ← hfault]

/-- While BUSY a write of STATUS has nothing to clear. -/
theorem State.StatusOk.writeStatus_of_busy {s : State} (h : s.StatusOk) (hbusy : s.phase = .busy) (v : Word) :
    s.writeStatus v = s := by
  simp only [State.writeStatus, State.clearDone_of_not_done (h.done_of_busy hbusy),
    h.clearFault_of_no_fault (h.fault_of_busy hbusy), ite_self]

/-- Settles O19. -/
theorem hostAccessWhileBusy : Obligations.HostAccessWhileBusy := by
  unfold Obligations.HostAccessWhileBusy
  refine fun s v hp hbusy => ⟨fun addr haddr => ?guarded, fun addr hblock size hlegal => ?memory,
    fun addr => s.hostRead_register, s.hostWrite_register v (by decide) (by decide),
    fun hstatus => ⟨hstatus.done_of_busy hbusy, hstatus.fault_of_busy hbusy, ?status⟩⟩
  case guarded =>
    simp only [List.mem_cons, List.not_mem_nil, or_false] at haddr
    rcases haddr with rfl | rfl | rfl | rfl
    all_goals
      rw [s.hostWrite_register v (by decide) (by decide)]
      exact congrArg (fun t : State => { t with reply := some .ok }) (State.whileIdle_of_busy hbusy _)
  case memory =>
    obtain ⟨t, ht⟩ := exists_target_of_legalTransaction hp hlegal
    refine ⟨State.hostWrite_memory_of_busy hbusy ht hblock v, s.hostRead_sameBlock addr size, ?_⟩
    simpa only [State.hostRead_of_target ht, Option.some.injEq] using s.readTarget_cases t
  case status =>
    rw [s.hostWrite_register v (by decide) (by decide)]
    exact congrArg (fun t : State => { t with reply := some .ok }) (hstatus.writeStatus_of_busy hbusy v)

end Sys2Proof.Machine
end

section
/-! SUPPORT. The trie of a message (41_huffman.md R170 to R178, R191): the frequency table, the merge loop as `TrieBuild`,
the leaves and the codes of the trie, and the order of its depths. -/

namespace Sys2Proof.Machine

/-! ### The frequency table (41_huffman.md R174) -/

theorem foldl_modify_length (input : List Byte) (freq : List Nat) :
    (input.foldl (fun freq b => freq.modify b.toNat (· + 1)) freq).length = freq.length := by
  induction input generalizing freq with
  | nil => rfl
  | cons b rest ih => rw [List.foldl_cons, ih, List.length_modify]

theorem foldl_modify_getElem? (input : List Byte) (freq : List Nat) (b : Byte) :
    (input.foldl (fun freq b => freq.modify b.toNat (· + 1)) freq)[b.toNat]? =
      freq[b.toNat]?.map (· + input.count b) := by
  induction input generalizing freq with
  | nil => simp
  | cons c rest ih =>
    rw [List.foldl_cons, ih, List.getElem?_modify, List.count_cons, Option.map_eq_map, Option.map_map]
    refine congrArg (Option.map · freq[b.toNat]?) (funext fun n => ?_)
    by_cases h : c = b
    · simp [h, Nat.add_assoc, Nat.add_comm 1]
    · have hne : c.toNat ≠ b.toNat := fun hv => h (BitVec.eq_of_toNat_eq hv)
      simp [h, hne]

theorem freqTable_length (input : List Byte) : (freqTable input).length = 256 := by
  rw [freqTable, foldl_modify_length, List.length_replicate]

theorem freqTable_getElem? (input : List Byte) (b : Byte) : (freqTable input)[b.toNat]? = some (input.count b) := by
  rw [freqTable, foldl_modify_getElem?, List.getElem?_replicate_of_lt b.isLt, Option.map_some, Nat.zero_add]

/-- Settles O31. -/
theorem frequencyTableCounts : Obligations.FrequencyTableCounts := by
  unfold Obligations.FrequencyTableCounts
  exact fun input => ⟨freqTable_length input, freqTable_getElem? input⟩

/-! ### The symbols that occur -/

/-- The 256 symbols in ascending order (00_scope.md R6). -/
def symbols : List Byte := (List.range Config.R).map (BitVec.ofNat 8)

/-- The symbols of a message, "in ascending symbol order" (41_huffman.md R176). -/
def occurring (input : List Byte) : List Byte := symbols.filter (fun b => 0 < input.count b)

theorem symbols_nodup : symbols.Nodup := by
  refine List.Nodup.map_on (fun v hv w hw h => ?_) List.nodup_range
  have hmod : v % 2 ^ 8 = w % 2 ^ 8 := by simpa using congrArg BitVec.toNat h
  rw [List.mem_range, Config.R] at hv hw
  omega

theorem mem_symbols (b : Byte) : b ∈ symbols :=
  List.mem_map.2 ⟨b.toNat, List.mem_range.2 b.isLt, BitVec.ofNat_toNat .. |>.trans (BitVec.setWidth_eq b)⟩

theorem mem_occurring {input : List Byte} {b : Byte} : b ∈ occurring input ↔ b ∈ input := by
  simp [occurring, mem_symbols, List.count_pos_iff]

theorem occurring_nodup (input : List Byte) : (occurring input).Nodup := symbols_nodup.filter _

theorem occurring_length_le (input : List Byte) : (occurring input).length ≤ 256 := by
  have hlen : symbols.length = 256 := by rw [symbols, List.length_map, List.length_range]
  exact hlen ▸ List.length_filter_le _ symbols

theorem freqTable_eq (input : List Byte) :
    freqTable input = (List.range' 0 256).map (fun v => input.count (BitVec.ofNat 8 v)) := by
  refine List.ext_getElem? fun v => ?_
  by_cases hv : v < 256
  · have hget := freqTable_getElem? input (BitVec.ofNat 8 v)
    rw [BitVec.toNat_ofNat, Nat.mod_eq_of_lt hv] at hget
    rw [hget, List.getElem?_map, List.getElem?_range' hv]
    simp
  · rw [List.getElem?_eq_none (by rw [freqTable_length]; omega), List.getElem?_eq_none (by simp; omega)]

/-! ### The leaves of the build (41_huffman.md R176) -/

/-- The leaf of a symbol and its index, with the symbol's count. -/
def leafOf (input : List Byte) (e : Byte × Nat) : Pending := ⟨input.count e.1, e.2, .leaf e.1⟩

theorem messageLeaves_eq (input : List Byte) :
    messageLeaves input = (occurring input).zipIdx.map (leafOf input) := rfl

theorem seedLeaves_counts (input : List Byte) (s cnt n : Nat) :
    seedLeaves s cnt ((List.range' s n).map (fun v => input.count (BitVec.ofNat 8 v))) =
      ((((List.range' s n).map (BitVec.ofNat 8)).filter (fun b => 0 < input.count b)).zipIdx cnt).map
        (leafOf input) := by
  induction n generalizing s cnt with
  | zero => rfl
  | succ n ih =>
    rw [List.range'_succ, List.map_cons, List.map_cons, seedLeaves, List.filter_cons]
    by_cases h : 0 < input.count (BitVec.ofNat 8 s)
    · rw [if_pos h, if_pos (by simpa using h), ih, List.zipIdx_cons, List.map_cons]
      rfl
    · rw [if_neg h, if_neg (by simpa using h), ih]

theorem seedLeaves_freqTable (input : List Byte) : seedLeaves 0 0 (freqTable input) = messageLeaves input := by
  rw [freqTable_eq, seedLeaves_counts, messageLeaves_eq, occurring, symbols, List.range_eq_range']

theorem messageLeaves_ne_nil {input : List Byte} (h : input ≠ []) : messageLeaves input ≠ [] := by
  obtain ⟨b, hb⟩ := List.exists_mem_of_ne_nil input h
  simpa [messageLeaves_eq] using List.ne_nil_of_mem (mem_occurring.2 hb)

/-! ### The merge loop removes the two least (41_huffman.md R176) -/

/-- The nodes of a priority structure have different indices, all already given out. -/
def Indexed (cnt : Nat) (pending : List Pending) : Prop :=
  (pending.map Pending.idx).Nodup ∧ ∀ x ∈ pending, x.idx < cnt

theorem Indexed.perm {cnt : Nat} {l m : List Pending} (h : Indexed cnt l) (hp : l.Perm m) : Indexed cnt m :=
  ⟨(hp.map _).nodup_iff.1 h.1, fun x hx => h.2 x (hp.mem_iff.2 hx)⟩

theorem Indexed.tail {cnt : Nat} {x : Pending} {l : List Pending} (h : Indexed cnt (x :: l)) : Indexed cnt l :=
  ⟨(List.nodup_cons.1 h.1).2, fun y hy => h.2 y (List.mem_cons_of_mem _ hy)⟩

/-- The node created next has an index of its own. -/
theorem Indexed.cons_next {cnt : Nat} {l : List Pending} (h : Indexed cnt l) (wt : Nat) (t : Trie) :
    Indexed (cnt + 1) (⟨wt, cnt, t⟩ :: l) := by
  refine ⟨List.nodup_cons.2 ⟨fun hmem => ?_, h.1⟩, fun x hx => ?_⟩
  · obtain ⟨y, hy, hidx⟩ := List.mem_map.1 hmem
    exact absurd (h.2 y hy) (by rw [hidx]; exact Nat.lt_irrefl cnt)
  · rcases List.mem_cons.1 hx with rfl | hx
    · exact Nat.lt_succ_self cnt
    · exact Nat.lt_succ_of_lt (h.2 x hx)

theorem Indexed.idx_ne {cnt : Nat} {x y : Pending} {l : List Pending} (h : Indexed cnt (x :: l)) (hy : y ∈ l) :
    y.idx ≠ x.idx := fun he =>
  (List.nodup_cons.1 h.1).1 (List.mem_map.2 ⟨y, hy, he⟩)

/-- The internal node over the two nodes removed, "first removed is the LEFT child". -/
abbrev merged (cnt : Nat) (a b : Pending) : Pending := ⟨a.wt + b.wt, cnt, .node a.trie b.trie⟩

/-- One merge takes the least node and the least of the others. -/
theorem mergeOnce_spec {cnt : Nat} {x y : Pending} {rest : List Pending} (h : Indexed cnt (x :: y :: rest)) :
    ∃ a b others, (x :: y :: rest).Perm (a :: b :: others) ∧ (∀ z ∈ b :: others, a.before z = true) ∧
      (∀ z ∈ others, b.before z = true) ∧ mergeOnce cnt x y rest = (merged cnt a b, others) := by
  unfold mergeOnce
  have hperm := removeLeast_perm x (y :: rest)
  have hleast := removeLeast_least x (y :: rest) h.1
  cases hr : removeLeast x (y :: rest) with
  | mk a others =>
    rw [hr] at hperm hleast
    cases others with
    | nil => exact absurd hperm.length_eq (by simp)
    | cons z others =>
      have hperm' := removeLeast_perm z others
      have hleast' := removeLeast_least z others (h.perm hperm).tail.1
      exact ⟨a, _, _, hperm.trans (hperm'.cons a), fun w hw => hleast w (hperm'.mem_iff.2 hw), hleast', rfl⟩

/-- The merge loop is the build of R176. -/
theorem mergeAll_build (fuel : Nat) {cnt : Nat} {x : Pending} {rest : List Pending} (h : Indexed cnt (x :: rest))
    (hfuel : rest.length = fuel) : TrieBuild cnt (x :: rest) (mergeAll fuel cnt x rest) := by
  induction fuel generalizing cnt x rest with
  | zero =>
    obtain rfl := List.length_eq_zero_iff.1 hfuel
    exact .root cnt x
  | succ fuel ih =>
    obtain ⟨y, rest, rfl⟩ := List.exists_cons_of_length_eq_add_one hfuel
    obtain ⟨a, b, others, hperm, hleast, hsecond, hmerge⟩ := mergeOnce_spec h
    have hlen : others.length = fuel := by
      have := hperm.length_eq
      simp only [List.length_cons] at this hfuel
      omega
    rw [mergeAll, hmerge]
    exact .merge hperm hleast hsecond (ih ((h.perm hperm).tail.tail.cons_next _ _) hlen)

theorem messageLeaves_indexed (input : List Byte) : Indexed (messageLeaves input).length (messageLeaves input) := by
  have hidx : (messageLeaves input).map Pending.idx = List.range' 0 (messageLeaves input).length := by
    rw [messageLeaves_eq, List.map_map, List.length_map, List.length_zipIdx, ← List.zipIdx_map_snd]
    rfl
  refine ⟨hidx ▸ List.nodup_range', fun x hx => ?_⟩
  have := List.mem_map_of_mem (f := Pending.idx) hx
  rw [hidx, List.mem_range'_1] at this
  omega

theorem buildTrie_eq_none {input : List Byte} (h : messageLeaves input = []) : buildTrie (freqTable input) = none := by
  rw [buildTrie, seedLeaves_freqTable, h]

/-- A message that is not empty has a trie, and it is built as R176 says. -/
theorem exists_buildTrie {input : List Byte} (h : input ≠ []) :
    ∃ t, buildTrie (freqTable input) = some t ∧ TrieBuild (messageLeaves input).length (messageLeaves input) t := by
  have hindexed := messageLeaves_indexed input
  rw [buildTrie, seedLeaves_freqTable]
  cases hl : messageLeaves input with
  | nil => exact absurd hl (messageLeaves_ne_nil h)
  | cons x rest =>
    rw [hl] at hindexed
    exact ⟨_, rfl, mergeAll_build rest.length hindexed rfl⟩

/-- The empty message has no trie (41_huffman.md R175). -/
theorem buildTrie_nil : buildTrie (freqTable []) = none :=
  buildTrie_eq_none (by simp [messageLeaves_eq, occurring])

theorem ne_nil_of_buildTrie {input : List Byte} {t : Trie} (h : buildTrie (freqTable input) = some t) :
    input ≠ [] := by
  rintro rfl
  cases buildTrie_nil.symm.trans h

/-- Settles O32. -/
theorem trieBuildRemovesTheTwoLeast : Obligations.TrieBuildRemovesTheTwoLeast := by
  unfold Obligations.TrieBuildRemovesTheTwoLeast
  intro input t ht
  obtain ⟨t', ht', hbuild⟩ := exists_buildTrie (ne_nil_of_buildTrie ht)
  cases ht.symm.trans ht'
  exact hbuild

/-! ### The leaves of the trie (41_huffman.md R170, R191 (b)) -/

/-- The build neither loses nor invents a leaf. -/
theorem TrieBuild.leaves_perm {cnt : Nat} {pending : List Pending} {t : Trie} (h : TrieBuild cnt pending t) :
    t.leaves.Perm (pending.flatMap (fun x => x.trie.leaves)) := by
  induction h with
  | root cnt x => simp
  | merge split _ _ _ ih =>
    refine ih.trans (List.Perm.trans ?_ (split.flatMap_right _).symm)
    simp [Trie.leaves]

theorem messageLeaves_leaves (input : List Byte) :
    (messageLeaves input).flatMap (fun x => x.trie.leaves) = occurring input := by
  rw [messageLeaves_eq, List.flatMap_map]
  exact (List.map_eq_flatMap ..).symm.trans (List.zipIdx_map_fst 0 _)

theorem leaves_perm_occurring {input : List Byte} {t : Trie} (h : buildTrie (freqTable input) = some t) :
    t.leaves.Perm (occurring input) :=
  messageLeaves_leaves input ▸ (trieBuildRemovesTheTwoLeast input t h).leaves_perm

theorem leaves_nodup {input : List Byte} {t : Trie} (h : buildTrie (freqTable input) = some t) : t.leaves.Nodup :=
  (leaves_perm_occurring h).nodup_iff.2 (occurring_nodup input)

theorem mem_leaves {input : List Byte} {t : Trie} (h : buildTrie (freqTable input) = some t) {b : Byte} :
    b ∈ t.leaves ↔ b ∈ input :=
  (leaves_perm_occurring h).mem_iff.trans mem_occurring

theorem leaves_length_le {input : List Byte} {t : Trie} (h : buildTrie (freqTable input) = some t) :
    t.leaves.length ≤ 256 :=
  (leaves_perm_occurring h).length_eq ▸ occurring_length_le input

/-- "no node has exactly one child": k leaves take 2k − 1 nodes. -/
theorem Trie.nodes_add_one (t : Trie) : t.nodes + 1 = 2 * t.leaves.length := by
  induction t with
  | leaf s => rfl
  | node l r ihl ihr =>
    rw [Trie.nodes, Trie.leaves, List.length_append]
    omega

theorem nodes_le_nodeCap {input : List Byte} {t : Trie} (h : buildTrie (freqTable input) = some t) :
    t.nodes ≤ Config.nodeCap := by
  have hnodes := t.nodes_add_one
  have hleaves := leaves_length_le h
  rw [Config.nodeCap]
  omega

/-- Settles O33. -/
theorem trieOfAMessage : Obligations.TrieOfAMessage := by
  unfold Obligations.TrieOfAMessage
  intro input hne
  obtain ⟨t, ht, -⟩ := exists_buildTrie hne
  exact ⟨t, ht, leaves_nodup ht, fun b => mem_leaves ht, t.nodes_add_one, nodes_le_nodeCap ht⟩

/-! ### The code table (41_huffman.md R172, R178) -/

/-- The codes of an internal node: 0 before those of the left child, 1 before those of the right. -/
theorem Trie.mem_codes_node {l r : Trie} {s : Byte} {code : List Bool} :
    (s, code) ∈ (Trie.node l r).codes [] ↔
      (∃ rest, code = false :: rest ∧ (s, rest) ∈ l.codes []) ∨
      (∃ rest, code = true :: rest ∧ (s, rest) ∈ r.codes []) := by
  have hsplit : (Trie.node l r).codes [] = l.codes ([false] ++ []) ++ r.codes ([true] ++ []) := rfl
  rw [hsplit, Trie.codes_append, Trie.codes_append]
  simp only [List.mem_append, List.mem_map, Prod.mk.injEq, Prod.exists, List.singleton_append]
  constructor
  · rintro (⟨_, rest, hmem, rfl, rfl⟩ | ⟨_, rest, hmem, rfl, rfl⟩)
    · exact .inl ⟨rest, rfl, hmem⟩
    · exact .inr ⟨rest, rfl, hmem⟩
  · rintro (⟨rest, rfl, hmem⟩ | ⟨rest, rfl, hmem⟩)
    · exact .inl ⟨s, rest, hmem, rfl, rfl⟩
    · exact .inr ⟨s, rest, hmem, rfl, rfl⟩

theorem Trie.codes_symbols (t : Trie) (p : List Bool) : (t.codes p).map Prod.fst = t.leaves := by
  induction t generalizing p with
  | leaf s => rfl
  | node l r ihl ihr => rw [Trie.codes, Trie.leaves, List.map_append, ihl, ihr]

/-- No code of the table begins another, "because leaves have no descendants" (41_huffman.md R178). -/
theorem Trie.codes_prefix_free {t : Trie} {a b : Byte} {c d : List Bool} (ha : (a, c) ∈ t.codes [])
    (hb : (b, d) ∈ t.codes []) (hprefix : c <+: d) : a = b := by
  induction t generalizing c d with
  | leaf s =>
    simp only [Trie.codes, List.mem_singleton, Prod.mk.injEq] at ha hb
    exact ha.1.trans hb.1.symm
  | node l r ihl ihr =>
    rw [Trie.mem_codes_node] at ha hb
    rcases ha with ⟨c, rfl, ha⟩ | ⟨c, rfl, ha⟩ <;> rcases hb with ⟨d, rfl, hb⟩ | ⟨d, rfl, hb⟩ <;>
      simp only [List.cons_prefix_cons, true_and, Bool.false_eq_true, Bool.true_eq_false, false_and] at hprefix
    · exact ihl ha hb hprefix
    · exact ihr ha hb hprefix

theorem Trie.code_length {t : Trie} {a : Byte} {c : List Bool} (h : (a, c) ∈ t.codes []) :
    c.length + 1 ≤ t.leaves.length := by
  have hpos : ∀ t : Trie, 1 ≤ t.leaves.length := fun t => by
    have := t.nodes_add_one
    omega
  induction t generalizing c with
  | leaf s =>
    simp only [Trie.codes, List.mem_singleton, Prod.mk.injEq] at h
    simp [h.2, Trie.leaves]
  | node l r ihl ihr =>
    have hl := hpos l
    have hr := hpos r
    rw [Trie.leaves, List.length_append]
    rcases Trie.mem_codes_node.1 h with ⟨c, rfl, hc⟩ | ⟨c, rfl, hc⟩
    · have := ihl hc
      rw [List.length_cons]
      omega
    · have := ihr hc
      rw [List.length_cons]
      omega

/-- A symbol of the table has the code the table lists for it. -/
theorem mem_codeOf {table : List (Byte × List Bool)} {a : Byte} (h : a ∈ table.map Prod.fst) :
    (a, codeOf table a) ∈ table := by
  induction table with
  | nil => simp at h
  | cons e table ih =>
    obtain ⟨s, code⟩ := e
    unfold codeOf at ih ⊢
    rw [List.lookup_cons]
    by_cases hs : a = s
    · simp [hs]
    · rw [List.map_cons, List.mem_cons] at h
      rw [beq_eq_false_iff_ne.2 hs]
      exact List.mem_cons_of_mem _ (ih (h.resolve_left hs))

theorem Trie.mem_codeOf {t : Trie} {a : Byte} (h : a ∈ t.leaves) : (a, codeOf (t.codes []) a) ∈ t.codes [] :=
  Machine.mem_codeOf (t.codes_symbols [] ▸ h)

/-- Where no two leaves share a symbol, the table lists one code of a symbol. -/
theorem Trie.codeOf_eq {t : Trie} (hnodup : t.leaves.Nodup) {a : Byte} {c : List Bool} (h : (a, c) ∈ t.codes []) :
    codeOf (t.codes []) a = c := by
  have ha : a ∈ t.leaves := t.codes_symbols [] ▸ List.mem_map_of_mem h
  have hinj := List.inj_on_of_nodup_map (f := Prod.fst) (l := t.codes []) (t.codes_symbols [] ▸ hnodup)
  exact congrArg Prod.snd (hinj (Trie.mem_codeOf ha) h rfl)

/-- Settles O34. -/
theorem codesArePrefixFree : Obligations.CodesArePrefixFree := by
  unfold Obligations.CodesArePrefixFree
  intro input t ht
  have hcode : ∀ a ∈ input, (a, codeOf (t.codes []) a) ∈ t.codes [] := fun a ha => Trie.mem_codeOf ((mem_leaves ht).2 ha)
  refine ⟨fun a b ha hb => Trie.codes_prefix_free (hcode a ha) (hcode b hb), fun a ha => ?_⟩
  have hlength := Trie.code_length (hcode a ha)
  have hleaves := leaves_length_le ht
  exact ⟨hcode a ha, hlength, by omega⟩

/-! ### The order of the depths (41_huffman.md R191 (c))

The nodes of a priority structure are subtrees of the trie built from it. Going back through the merges, two facts about
their depths hold at every moment: a node removed earlier is at least as deep (`order`), and a node whose parent cannot weigh
less than x is at most one level deeper than x (`close`). -/

/-- `depth` gives the depth in `t` of each node of the priority structure, by its index. -/
structure Depths (pending : List Pending) (t : Trie) (depth : Nat → Nat) : Prop where
  codes : ∀ x ∈ pending, ∀ s code, (s, code) ∈ x.trie.codes [] →
    ∃ whole, (s, whole) ∈ t.codes [] ∧ whole.length = code.length + depth x.idx
  order : ∀ x ∈ pending, ∀ y ∈ pending, x.before y = true → depth y.idx ≤ depth x.idx
  close : ∀ x ∈ pending, ∀ y ∈ pending, (∀ z ∈ pending, z.idx ≠ y.idx → x.wt ≤ y.wt + z.wt) →
    depth y.idx ≤ depth x.idx + 1

theorem Depths.perm {l m : List Pending} {t : Trie} {depth : Nat → Nat} (h : Depths l t depth) (hp : m.Perm l) :
    Depths m t depth where
  codes x hx := h.codes x (hp.mem_iff.1 hx)
  order x hx y hy := h.order x (hp.mem_iff.1 hx) y (hp.mem_iff.1 hy)
  close x hx y hy hz := h.close x (hp.mem_iff.1 hx) y (hp.mem_iff.1 hy) fun z hz' => hz z (hp.mem_iff.2 hz')

/-- The depths before a merge: the two nodes removed are one level below the internal node of index `cnt`. -/
def depthsBefore (cnt : Nat) (a b : Pending) (depth : Nat → Nat) (i : Nat) : Nat :=
  if i = a.idx ∨ i = b.idx then depth cnt + 1 else depth i

theorem Pending.before_wt {x y : Pending} (h : x.before y = true) : x.wt ≤ y.wt := by
  rw [Pending.before_iff] at h
  omega

theorem Pending.not_before_of_before {x y : Pending} (h : x.before y = true) : ¬ y.before x = true := by
  rw [Pending.before_iff] at *
  omega

/-- The depths of a priority structure from those after its merge. -/
theorem Depths.before_merge {cnt : Nat} {a b : Pending} {others : List Pending} {t : Trie} {depth : Nat → Nat}
    (h : Depths (merged cnt a b :: others) t depth) (hindexed : Indexed cnt (a :: b :: others))
    (hleast : ∀ z ∈ b :: others, a.before z = true) (hsecond : ∀ z ∈ others, b.before z = true) :
    Depths (a :: b :: others) t (depthsBefore cnt a b depth) := by
  have hnew : merged cnt a b ∈ merged cnt a b :: others := List.mem_cons_self
  have hold : ∀ {x}, x ∈ others → x ∈ merged cnt a b :: others := List.mem_cons_of_mem _
  have hne : ∀ x ∈ others, x.idx ≠ a.idx ∧ x.idx ≠ b.idx := fun x hx =>
    ⟨hindexed.idx_ne (List.mem_cons_of_mem _ hx), hindexed.tail.idx_ne hx⟩
  have hdepth : ∀ x ∈ others, depthsBefore cnt a b depth x.idx = depth x.idx := fun x hx =>
    if_neg (not_or.2 (hne x hx))
  have hremoved : ∀ x, x = a ∨ x = b → depthsBefore cnt a b depth x.idx = depth cnt + 1 := by
    rintro x (rfl | rfl)
    · exact if_pos (.inl rfl)
    · exact if_pos (.inr rfl)
  have hcases : ∀ {x}, x ∈ a :: b :: others → (x = a ∨ x = b) ∨ x ∈ others := fun hx => by
    simpa only [List.mem_cons, or_assoc] using hx
  have hbefore : ∀ {x y}, x = a ∨ x = b → y ∈ others → x.before y = true := by
    rintro x y (rfl | rfl) hy
    · exact hleast y (List.mem_cons_of_mem _ hy)
    · exact hsecond y hy
  have hbound : ∀ y ∈ others, depth y.idx ≤ depth cnt + 1 := by
    intro y hy
    refine h.close _ hnew y (hold hy) fun z hz _ => ?_
    rcases List.mem_cons.1 hz with rfl | hz
    · exact Nat.le_add_left _ _
    · exact Nat.add_le_add (Pending.before_wt (hbefore (.inl rfl) hy)) (Pending.before_wt (hbefore (.inr rfl) hz))
  constructor
  case codes =>
    intro x hx s code hcode
    have hchild : ∀ bit, (s, bit :: code) ∈ (merged cnt a b).trie.codes [] →
        ∃ whole, (s, whole) ∈ t.codes [] ∧ whole.length = code.length + (depth cnt + 1) := fun bit hmem => by
      obtain ⟨whole, hwhole, hlen⟩ := h.codes _ hnew s _ hmem
      exact ⟨whole, hwhole, by rw [hlen, List.length_cons]; exact Nat.add_right_comm _ 1 _⟩
    rcases hcases hx with hab | hx
    · rw [hremoved x hab]
      rcases hab with rfl | rfl
      · exact hchild false (Trie.mem_codes_node.2 (.inl ⟨code, rfl, hcode⟩))
      · exact hchild true (Trie.mem_codes_node.2 (.inr ⟨code, rfl, hcode⟩))
    · rw [hdepth x hx]
      exact h.codes x (hold hx) s code hcode
  case order =>
    intro x hx y hy hxy
    rcases hcases hx with hx | hx <;> rcases hcases hy with hy | hy
    · rw [hremoved x hx, hremoved y hy]
    · rw [hremoved x hx, hdepth y hy]
      exact hbound y hy
    · exact absurd hxy (Pending.not_before_of_before (hbefore hy hx))
    · rw [hdepth x hx, hdepth y hy]
      exact h.order x (hold hx) y (hold hy) hxy
  case close =>
    intro x hx y hy hz
    rcases hcases hx with hx | hx <;> rcases hcases hy with hy | hy
    · rw [hremoved x hx, hremoved y hy]
      exact Nat.le_succ _
    · rw [hremoved x hx, hdepth y hy]
      exact Nat.le_succ_of_le (hbound y hy)
    · rw [hremoved y hy, hdepth x hx]
      have hab : a.idx ≠ b.idx := (hindexed.idx_ne List.mem_cons_self).symm
      have hwt : x.wt ≤ a.wt + b.wt := by
        rcases hy with rfl | rfl
        · exact hz b (by simp) hab.symm
        · exact Nat.add_comm _ _ ▸ hz a (by simp) hab
      have hidx : x.idx < cnt := hindexed.2 x (by simp [hx])
      have hlt : x.before (merged cnt a b) = true := (Pending.before_iff _ _).2 (by simp only; omega)
      exact Nat.succ_le_succ (h.order x (hold hx) _ hnew hlt)
    · rw [hdepth x hx, hdepth y hy]
      refine h.close x (hold hx) y (hold hy) fun z hz' hzy => ?_
      rcases List.mem_cons.1 hz' with rfl | hz'
      · have := hz a (by simp) (hne y hy).1.symm
        simp only
        omega
      · exact hz z (by simp [hz']) hzy

theorem TrieBuild.exists_depths {cnt : Nat} {pending : List Pending} {t : Trie} (h : TrieBuild cnt pending t)
    (hindexed : Indexed cnt pending) : ∃ depth, Depths pending t depth := by
  induction h with
  | root cnt x =>
    refine ⟨fun _ => 0, fun y hy s code hcode => ?_, fun _ _ _ _ _ => Nat.le_refl 0, fun _ _ _ _ _ => Nat.zero_le 1⟩
    rw [List.mem_singleton.1 hy] at hcode
    exact ⟨code, hcode, rfl⟩
  | merge split least second _ ih =>
    have hsplit := hindexed.perm split
    obtain ⟨depth, hdepth⟩ := ih (hsplit.tail.tail.cons_next _ _)
    exact ⟨_, (hdepth.before_merge hsplit least second).perm split⟩

theorem exists_leaf {input : List Byte} {a : Byte} (h : a ∈ input) :
    ∃ i, (⟨input.count a, i, .leaf a⟩ : Pending) ∈ messageLeaves input := by
  obtain ⟨i, hi⟩ := List.mem_iff_getElem?.1 (mem_occurring.2 h)
  exact ⟨i, List.mem_map.2 ⟨(a, i), List.mk_mem_zipIdx_iff_getElem?.2 hi, rfl⟩⟩

/-- Settles O35: the leaf of the rarer symbol is removed first, so it is at least as deep. -/
theorem codeLengthsFollowFrequencies : Obligations.CodeLengthsFollowFrequencies := by
  unfold Obligations.CodeLengthsFollowFrequencies
  intro input t ht a b ha hb hcount
  obtain ⟨depth, hdepths⟩ := (trieBuildRemovesTheTwoLeast input t ht).exists_depths (messageLeaves_indexed input)
  have hcode : ∀ {s i}, (⟨input.count s, i, .leaf s⟩ : Pending) ∈ messageLeaves input →
      (codeOf (t.codes []) s).length = depth i := fun {s i} hleaf => by
    obtain ⟨whole, hmem, hlen⟩ := hdepths.codes _ hleaf s [] (by simp [Trie.codes])
    rw [Trie.codeOf_eq (leaves_nodup ht) hmem, hlen, List.length_nil, Nat.zero_add]
  obtain ⟨i, hi⟩ := exists_leaf ha
  obtain ⟨j, hj⟩ := exists_leaf hb
  rw [hcode hi, hcode hj]
  exact hdepths.order _ hj _ hi ((Pending.before_iff _ _).2 (.inl hcount))

end Sys2Proof.Machine
end

section
/-! SUPPORT. HUFF_ENC and HUFF_DEC as commands: what they leave, by what their pseudocode answers (30_encoding.md R110,
60_exceptions.md R313), and the statements about HUFF_ENC (41_huffman.md R173 to R182). -/

namespace Sys2Proof.Machine

/-! ### A Huffman command by the answer of its pseudocode -/

theorem Answers.of_ok {α : Type} {x : Except CmdFault α} {P : α → Prop} {cs : List Cause} (h : Answers x P cs) {a : α}
    (hx : x = .ok a) : P a := by
  subst hx
  exact h

theorem huffEncode_length_le {cap : Nat} {input out : List Byte} (h : huffEncode cap input = .ok out) :
    out.length ≤ cap :=
  (huffEncode_answers cap input).of_ok h

theorem huffDecode_length_le {cap : Nat} {medium out : List Byte} (h : huffDecode cap medium = .ok out) :
    out.length ≤ cap :=
  (huffDecode_answers cap medium).of_ok h

theorem State.admits_huffEnc {s : State} {src dst : BufId} (hne : src ≠ dst)
    (hlen : (s.len src).toNat ≤ s.cfg.bufCap) : s.admits (.huffEnc src dst) = true :=
  (s.admits_iff _).2 ⟨decide_eq_true hne, hlen, nofun⟩

theorem State.admits_huffDec {s : State} {src dst : BufId} (hne : src ≠ dst)
    (hlen : (s.len src).toNat ≤ s.cfg.bufCap) : s.admits (.huffDec src dst) = true :=
  (s.admits_iff _).2 ⟨decide_eq_true hne, hlen, nofun⟩

/-- An output within BUF_CAP is complete in a state with legal parameters: its length fits LEN. -/
theorem State.completeBuffer_completesWith_of_legal {s : State} (hp : s.cfg.Legal) (dst : BufId) {out : List Byte}
    (hfit : out.length ≤ s.cfg.bufCap) : CompletesWith s (s.completeBuffer dst out) dst out := by
  obtain ⟨-, -, -, hcap, -⟩ := hp
  exact s.completeBuffer_completesWith dst (by omega)

theorem exec_huffEnc_completes {s : State} {src dst : BufId} (hp : s.cfg.Legal) (hne : src ≠ dst)
    (hlen : (s.len src).toNat ≤ s.cfg.bufCap) {out : List Byte}
    (hout : huffEncode s.cfg.bufCap (s.input src) = .ok out) :
    ∃ u, exec (.huffEnc src dst) s = .next u ∧ CompletesWith s u dst out := by
  rw [exec_huffEnc, State.runCommand_ok (State.admits_huffEnc hne hlen) hout]
  exact ⟨_, rfl, State.completeBuffer_completesWith_of_legal hp dst (huffEncode_length_le hout)⟩

theorem exec_huffEnc_faults {s : State} {src dst : BufId} (hne : src ≠ dst)
    (hlen : (s.len src).toNat ≤ s.cfg.bufCap) {f : CmdFault}
    (hfault : huffEncode s.cfg.bufCap (s.input src) = .error f) :
    ∃ u, exec (.huffEnc src dst) s = .next u ∧ FaultsBuffer s u dst f := by
  rw [exec_huffEnc, State.runCommand_error (State.admits_huffEnc hne hlen) hfault]
  exact ⟨_, rfl, s.takeFault_faultsBuffer dst f⟩

theorem exec_huffDec_completes {s : State} {src dst : BufId} (hp : s.cfg.Legal) (hne : src ≠ dst)
    (hlen : (s.len src).toNat ≤ s.cfg.bufCap) {out : List Byte}
    (hout : huffDecode s.cfg.bufCap (s.input src) = .ok out) :
    ∃ u, exec (.huffDec src dst) s = .next u ∧ CompletesWith s u dst out := by
  rw [exec_huffDec, State.runCommand_ok (State.admits_huffDec hne hlen) hout]
  exact ⟨_, rfl, State.completeBuffer_completesWith_of_legal hp dst (huffDecode_length_le hout)⟩

theorem exec_huffDec_faults {s : State} {src dst : BufId} (hne : src ≠ dst)
    (hlen : (s.len src).toNat ≤ s.cfg.bufCap) {f : CmdFault}
    (hfault : huffDecode s.cfg.bufCap (s.input src) = .error f) :
    ∃ u, exec (.huffDec src dst) s = .next u ∧ FaultsBuffer s u dst f := by
  rw [exec_huffDec, State.runCommand_error (State.admits_huffDec hne hlen) hfault]
  exact ⟨_, rfl, s.takeFault_faultsBuffer dst f⟩

/-- DONE is set only by completion: the command was admitted and its pseudocode answered an output. -/
theorem State.runCommand_done {α : Type} {s : State} {i : Instr} {result : Except CmdFault α}
    {complete : State → α → State} (hdone : (s.runCommand i result complete).done = true) :
    s.admits i = true ∧ ∃ out, result = .ok out ∧ s.runCommand i result complete = complete s out := by
  rcases s.runCommand_cases i result complete with ⟨-, ht⟩ | ⟨hyes, out, hout, ht⟩ | ⟨-, f, -, ht⟩
  · rw [ht, State.takeIllegal_done] at hdone
    cases hdone
  · exact ⟨hyes, out, hout, ht⟩
  · rw [ht] at hdone
    cases hdone.symm.trans (s.takeFault_faultedBy (outputOf i) f).done

/-- The output of a completed command is the medium of the next one. -/
theorem CompletesWith.input {s t : State} {dst : BufId} {out : List Byte} (h : CompletesWith s t dst out) :
    t.input dst = out := by
  refine List.ext_getElem? fun a => ?_
  rw [State.input_getElem?, h.len, h.bytes]
  split
  · next ha => rw [List.getElem?_eq_getElem ha, Option.getD_some]
  · next ha => rw [List.getElem?_eq_none (Nat.le_of_not_lt ha)]

/-! ### The stream of a message (41_huffman.md R179 to R182) -/

/-- Settles O37. -/
theorem huffEncWritesTheStream : Obligations.HuffEncWritesTheStream := by
  unfold Obligations.HuffEncWritesTheStream
  intro s src dst t hp hne hlen ht
  exact ⟨fun hfits => exec_huffEnc_completes hp hne hlen ((huffEncode_eq ht).trans (if_pos hfits)),
    fun hover => exec_huffEnc_faults hne hlen ((huffEncode_eq ht).trans (if_neg (Nat.not_le.2 hover)))⟩

/-- "9 per leaf, 1 per internal node" (41_huffman.md R179). -/
theorem Trie.bits_length (t : Trie) : t.bits.length + 1 = 10 * t.leaves.length := by
  induction t with
  | leaf s => rw [Trie.bits, List.length_cons, byteBits_length, Trie.leaves, List.length_singleton]
  | node l r ihl ihr =>
    rw [Trie.bits, Trie.leaves, List.length_cons, List.length_append, List.length_append]
    omega

/-- A sum over a message, taken symbol by symbol with the symbols' counts. -/
theorem sum_map_eq_sum_counts (input : List Byte) (f : Byte → Nat) :
    (input.map f).sum = (symbols.map (fun b => input.count b * f b)).sum := by
  rw [Finset.sum_list_map_count, ← List.sum_toFinset _ symbols_nodup]
  refine Finset.sum_subset (fun b _ => List.mem_toFinset.2 (mem_symbols b)) fun b _ hb => ?_
  rw [List.count_eq_zero_of_not_mem (mt List.mem_toFinset.2 hb), zero_smul]

theorem payloadBits_length (t : Trie) (input : List Byte) :
    (payloadBits t input).length =
      (symbols.map (fun b => input.count b * (codeOf (t.codes []) b).length)).sum := by
  rw [payloadBits, List.length_flatMap]
  exact sum_map_eq_sum_counts input _

theorem occurring_length (input : List Byte) :
    (occurring input).length =
      ((List.range 256).filter (fun v => decide (0 < input.count (BitVec.ofNat 8 v)))).length := by
  rw [occurring, symbols, List.filter_map, List.length_map]
  rfl

/-- The T of 41_huffman.md R182, with k the number of leaves. -/
theorem huffBits_length (t : Trie) (input : List Byte) :
    (huffBits t input).length = (10 * t.leaves.length - 1) + 32 +
      (symbols.map (fun b => input.count b * (codeOf (t.codes []) b).length)).sum := by
  have hbits := t.bits_length
  rw [huffBits, List.length_append, List.length_append, natBits_length, payloadBits_length]
  omega

/-- Settles O36: T is the length of the stream, whose bytes and overflow `HuffEncWritesTheStream` gives. -/
theorem huffmanStreamLength : Obligations.HuffmanStreamLength := by
  unfold Obligations.HuffmanStreamLength
  intro s src dst t hp hne hlen ht freq code k T
  have hk : t.leaves.length = k := (leaves_perm_occurring ht).length_eq.trans (occurring_length _)
  have hT : (huffBits t (s.input src)).length = T := by
    rw [huffBits_length, hk, symbols, List.map_map]
    rfl
  obtain ⟨hfits, hover⟩ := huffEncWritesTheStream s src dst t hp hne hlen ht
  rw [hT] at hfits hover
  refine ⟨?_, fun hle => ?_, hover⟩
  · have hbits := t.bits_length
    omega
  · obtain ⟨u, hu, hdone⟩ := hfits hle
    refine ⟨u, hu, hdone.status.done, ?_, ?_⟩
    · rw [hdone.len, packBits_length, hT]
    · rw [hdone.input, mediumBits_packBits, hT, ← hT, List.drop_left]

/-! ### One distinct symbol (41_huffman.md R177) -/

/-- A trie with one leaf is that leaf. -/
theorem Trie.eq_leaf {t : Trie} {b : Byte} (h : t.leaves = [b]) : t = .leaf b := by
  cases t with
  | leaf s => exact congrArg Trie.leaf (List.singleton_inj.1 h)
  | node l r =>
    have hl := l.nodes_add_one
    have hr := r.nodes_add_one
    have hlen := congrArg List.length h
    rw [Trie.leaves, List.length_append, List.length_singleton] at hlen
    omega

theorem buildTrie_replicate (n : Nat) (b : Byte) :
    buildTrie (freqTable (List.replicate (n + 1) b)) = some (.leaf b) := by
  obtain ⟨t, ht, -⟩ := exists_buildTrie (input := List.replicate (n + 1) b) (by simp)
  have hmem : ∀ c, c ∈ t.leaves ↔ c ∈ [b] := fun c => by simp [mem_leaves ht]
  have hperm : t.leaves.Perm [b] := (List.perm_ext_iff_of_nodup (leaves_nodup ht) (List.nodup_singleton b)).2 hmem
  rw [ht, Trie.eq_leaf (List.perm_singleton.1 hperm)]

theorem codeOf_leaf (b : Byte) : codeOf ((Trie.leaf b).codes []) b = [] := by
  simp [codeOf, Trie.codes]

theorem huffBits_replicate (n : Nat) (b : Byte) :
    huffBits (.leaf b) (List.replicate n b) = true :: (byteBits b ++ natBits n 32) := by
  have hpayload : payloadBits (.leaf b) (List.replicate n b) = [] :=
    List.flatMap_eq_nil_iff.2 fun c hc => by rw [List.eq_of_mem_replicate hc, codeOf_leaf]
  rw [huffBits, hpayload, Trie.bits, List.length_replicate, List.append_nil, List.cons_append]

/-- Settles O38. -/
theorem huffEncOfOneDistinctSymbol : Obligations.HuffEncOfOneDistinctSymbol := by
  unfold Obligations.HuffEncOfOneDistinctSymbol
  intro s src dst b n hp hne hroom hn hinput
  have ht : buildTrie (freqTable (s.input src)) = some (.leaf b) := hinput ▸ buildTrie_replicate n b
  have hbits : huffBits (.leaf b) (s.input src) = true :: (byteBits b ++ natBits (n + 1) 32) :=
    hinput ▸ huffBits_replicate (n + 1) b
  have hlen : (s.len src).toNat = n + 1 := by rw [← s.input_length, hinput, List.length_replicate]
  refine ⟨ht, codeOf_leaf b, ?_⟩
  rw [← hbits]
  refine (huffEncWritesTheStream s src dst _ hp hne (hlen ▸ hn) ht).1 ?_
  rw [hbits, List.length_cons, List.length_append, byteBits_length, natBits_length]
  omega

end Sys2Proof.Machine
end

section
/-! SUPPORT. HUFF_DEC (41_huffman.md R183 to R191): what it answers on a whole stream, on a stream with bytes after it, on a
cut stream and on zero bytes, and the round trip. -/

namespace Sys2Proof.Machine

/-! ### The parts of HUFF_DEC (41_huffman.md R183) -/

/-- What HUFF_DEC does after the trie: the length field and the symbols. -/
def decodeMessage (cap : Nat) (t : Trie) (rd : Reader) : Except CmdFault (List Byte) := do
  let (v, rd) ← rd.readInt
  if sint 32 v < 0 then .error ⟨.badLength, rd.pos⟩
  else do
    let wr ← decodeSymbols t (sint 32 v).toNat rd (Writer.opened cap)
    wr.finish

/-- HUFF_DEC of a source that is not empty parses the trie first. -/
theorem huffDecode_eq_bind {medium : List Byte} (h : medium ≠ []) (cap : Nat) :
    huffDecode cap medium =
      parseTrie (Config.nodeCap + 1) 0 (Reader.opened medium) >>= fun a => decodeMessage cap a.1 a.2.2 := by
  have hlen : ¬ 0 = 8 * medium.length := fun h0 => h (List.length_eq_zero_iff.1 (by omega))
  exact if_neg (by simpa [Reader.isEmpty, Reader.opened] using hlen)

/-- "If the stream is empty, produce empty output" (41_huffman.md R184). -/
theorem huffDecode_nil (cap : Nat) : huffDecode cap [] = .ok [] := rfl

theorem huffDecode_of_trie {medium : List Byte} {t : Trie} {more : List Bool}
    (h : mediumBits medium = t.bits ++ more) (hcap : t.nodes ≤ Config.nodeCap) (cap : Nat) :
    huffDecode cap medium = decodeMessage cap t ((Reader.opened medium).skip t.bits.length) := by
  have hne : medium ≠ [] := by
    rintro rfl
    cases t <;> simp [Trie.bits] at h
  have hparse := parseTrie_of_rest t (fuel := Config.nodeCap + 1) (cnt := 0) (r := Reader.opened medium) h
    (by omega) (by omega)
  rw [huffDecode_eq_bind hne, hparse]
  rfl

theorem skip_trie_rest {medium : List Byte} {t : Trie} {more : List Bool} (h : mediumBits medium = t.bits ++ more) :
    ((Reader.opened medium).skip t.bits.length).rest = more := by
  rw [Reader.rest_skip, Reader.opened_rest, h, List.drop_left]

theorem skip_trie_pos (medium : List Byte) (t : Trie) :
    ((Reader.opened medium).skip t.bits.length).pos = t.bits.length := Nat.zero_add _

/-! ### The length field (41_huffman.md R186) -/

theorem sint_of_lt {v : Nat} (h : v < 2 ^ 31) : sint 32 v = v := if_pos h

theorem sint_neg {v : Nat} (h : 2 ^ 31 ≤ v) (h' : v < 2 ^ 32) : sint 32 v < 0 := by
  rw [sint, if_neg (Nat.not_lt.2 h)]
  omega

theorem decodeMessage_of_length {r : Reader} {v : Nat} {more : List Bool} (h : r.rest = natBits v 32 ++ more)
    (hv : v < 2 ^ 31) (cap : Nat) (t : Trie) :
    decodeMessage cap t r = (decodeSymbols t v (r.skip 32) (Writer.opened cap)).bind Writer.finish := by
  rw [decodeMessage, Reader.readInt, Reader.readBits_of_rest h, Nat.mod_eq_of_lt (by omega)]
  show (if sint 32 v < 0 then _ else (decodeSymbols t (sint 32 v).toNat (r.skip 32) (Writer.opened cap)).bind _) = _
  rw [sint_of_lt hv, if_neg (by omega), Int.toNat_natCast]

theorem decodeMessage_of_negative {r : Reader} {v : Nat} {more : List Bool} (h : r.rest = natBits v 32 ++ more)
    (hv : 2 ^ 31 ≤ v) (hv' : v < 2 ^ 32) (cap : Nat) (t : Trie) :
    decodeMessage cap t r = .error ⟨.badLength, r.pos + 32⟩ := by
  rw [decodeMessage, Reader.readInt, Reader.readBits_of_rest h, Nat.mod_eq_of_lt hv']
  exact if_pos (sint_neg hv hv')

/-- Settles O40. -/
theorem huffDecLengthField : Obligations.HuffDecLengthField := by
  unfold Obligations.HuffDecLengthField
  intro s src dst t v more hp hne hlen hcap hbits
  have hdecode := huffDecode_of_trie hbits hcap s.cfg.bufCap
  have hrest := skip_trie_rest hbits
  refine ⟨fun hv hv' => exec_huffDec_faults hne hlen ?_, fun hv => exec_huffDec_completes hp hne hlen ?_⟩
  · rw [hdecode, decodeMessage_of_negative hrest hv hv', skip_trie_pos]
  · rw [hdecode, decodeMessage_of_length hrest (by omega), hv]
    rfl

/-! ### A whole stream (41_huffman.md R187) -/

/-- Codes of the table are decoded to their symbols. -/
theorem decodeSymbols_of_rest {t : Trie} {coded : List (Byte × List Bool)} {more : List Bool} {r : Reader}
    (hcoded : ∀ e ∈ coded, e ∈ t.codes []) (h : r.rest = coded.flatMap (·.2) ++ more) (w : Writer) :
    decodeSymbols t coded.length r w = w.writeCode (mediumBits (coded.map (·.1))) := by
  induction coded generalizing r w with
  | nil => rfl
  | cons e coded ih =>
    rw [List.flatMap_cons, List.append_assoc] at h
    have hrest : (r.skip e.2.length).rest = coded.flatMap (·.2) ++ more := by
      rw [Reader.rest_skip, h, List.drop_left]
    rw [List.length_cons, decodeSymbols, Trie.descend_of_code (hcoded e List.mem_cons_self) h, List.map_cons,
      mediumBits_cons, Writer.writeCode_append, ← Writer.writeByte_eq]
    show w.writeByte e.1 >>= (fun w => decodeSymbols t coded.length (r.skip e.2.length) w) = _
    exact congrArg (w.writeByte e.1 >>= ·) (funext (ih (fun x hx => hcoded x (List.mem_cons_of_mem _ hx)) hrest))

/-- Whole bytes written from a freshly opened writer come out as they are, where they fit. -/
theorem Writer.run_bytes (cap : Nat) (out : List Byte) :
    ((Writer.opened cap).writeCode (mediumBits out)).bind Writer.finish =
      if out.length ≤ cap then .ok out else .error ⟨.outOverflow, 0⟩ := by
  have hpack : packBits (mediumBits out) = out := by simpa using packBits_mediumBits out []
  have hlen : (8 * out.length + 7) / 8 = out.length := by omega
  rw [Writer.run_eq, hpack, mediumBits_length, hlen]

theorem huffDecode_of_codes {medium : List Byte} {t : Trie} {coded : List (Byte × List Bool)} {more : List Bool}
    (hcap : t.nodes ≤ Config.nodeCap) (hcoded : ∀ e ∈ coded, e ∈ t.codes []) (hlen : coded.length < 2 ^ 31)
    (h : mediumBits medium = t.bits ++ (natBits coded.length 32 ++ (coded.flatMap (·.2) ++ more))) (cap : Nat) :
    huffDecode cap medium =
      if coded.length ≤ cap then .ok (coded.map (·.1)) else .error ⟨.outOverflow, 0⟩ := by
  have hrest := skip_trie_rest h
  have hcodes : (((Reader.opened medium).skip t.bits.length).skip 32).rest = coded.flatMap (·.2) ++ more := by
    rw [Reader.rest_skip, hrest]
    exact List.drop_left' (natBits_length _ _)
  rw [huffDecode_of_trie h hcap, decodeMessage_of_length hrest hlen, decodeSymbols_of_rest hcoded hcodes,
    Writer.run_bytes, List.length_map]

/-- Settles O39. -/
theorem huffDecReadsTheStream : Obligations.HuffDecReadsTheStream := by
  unfold Obligations.HuffDecReadsTheStream
  intro s src dst t coded more hp hne hlen hcap hcoded hcount hbits
  have hdecode := huffDecode_of_codes hcap hcoded hcount hbits s.cfg.bufCap
  exact ⟨fun hfits => exec_huffDec_completes hp hne hlen (hdecode.trans (if_pos hfits)),
    fun hover => exec_huffDec_faults hne hlen (hdecode.trans (if_neg (Nat.not_le.2 hover)))⟩

/-! ### The round trip (41_huffman.md R191 (a)) -/

/-- The symbols of a message with their codes. -/
def messageCodes (t : Trie) (input : List Byte) : List (Byte × List Bool) :=
  input.map fun b => (b, codeOf (t.codes []) b)

theorem messageCodes_length (t : Trie) (input : List Byte) : (messageCodes t input).length = input.length :=
  List.length_map _

theorem messageCodes_symbols (t : Trie) (input : List Byte) : (messageCodes t input).map (·.1) = input := by
  rw [messageCodes, List.map_map]
  exact List.map_id input

theorem huffBits_eq_codes (t : Trie) (input : List Byte) :
    huffBits t input =
      t.bits ++ (natBits (messageCodes t input).length 32 ++ (messageCodes t input).flatMap (·.2)) := by
  rw [messageCodes_length, messageCodes, List.flatMap_map]
  rfl

theorem messageCodes_mem {input : List Byte} {t : Trie} (h : buildTrie (freqTable input) = some t) :
    ∀ e ∈ messageCodes t input, e ∈ t.codes [] := by
  intro e he
  obtain ⟨b, hb, rfl⟩ := List.mem_map.1 he
  exact Trie.mem_codeOf ((mem_leaves h).2 hb)

/-- HUFF_DEC of the stream HUFF_ENC wrote. -/
theorem huffDecode_huffEncode {cap : Nat} {input out : List Byte} (hinput : input.length ≤ cap) (hcap : cap < 2 ^ 31)
    (h : huffEncode cap input = .ok out) : huffDecode cap out = .ok input := by
  by_cases hnil : input = []
  · subst hnil
    rw [huffEncode, buildTrie_nil] at h
    cases h
    exact huffDecode_nil cap
  · obtain ⟨t, ht, -⟩ := exists_buildTrie hnil
    rw [huffEncode_eq ht] at h
    split at h
    · cases h
      obtain ⟨padding, hbits⟩ : ∃ padding, mediumBits (packBits (huffBits t input)) = huffBits t input ++ padding :=
        ⟨_, mediumBits_packBits _⟩
      conv_rhs at hbits => rw [huffBits_eq_codes, List.append_assoc, List.append_assoc]
      rw [huffDecode_of_codes (nodes_le_nodeCap ht) (messageCodes_mem ht) (by rw [messageCodes_length]; omega) hbits,
        messageCodes_symbols, messageCodes_length, if_pos hinput]
    · cases h

/-- Settles O44. -/
theorem huffmanRoundTrip : Obligations.HuffmanRoundTrip := by
  unfold Obligations.HuffmanRoundTrip
  intro s t src dst hp hne hexec hdone
  cases (exec_huffEnc src dst s).symm.trans hexec
  obtain ⟨hadmits, out, hout, ht⟩ := State.runCommand_done hdone
  obtain ⟨-, hlen, -⟩ := (s.admits_iff _).1 hadmits
  have hfit := huffEncode_length_le hout
  have hcompletes := State.completeBuffer_completesWith_of_legal hp dst hfit
  rw [ht]
  have hcfg := hcompletes.outside.cfg
  have hdecode : huffDecode (s.completeBuffer dst out).cfg.bufCap ((s.completeBuffer dst out).input dst) =
      .ok (s.input src) := by
    obtain ⟨-, -, -, hcap, -⟩ := hp
    rw [hcompletes.input, hcfg]
    exact huffDecode_huffEncode (by rwa [State.input_length]) (by omega) hout
  exact exec_huffDec_completes (hcfg ▸ hp) hne.symm (by rwa [hcompletes.len, hcfg]) hdecode

/-! ### Bytes after the stream (41_huffman.md R188) -/

/-- The reader on a medium with `extra` bytes after it. -/
def Reader.extend (extra : List Byte) (r : Reader) : Reader := { r with medium := r.medium ++ extra }

theorem Reader.extend_rest (extra : List Byte) (r : Reader) :
    (r.extend extra).rest = r.rest ++ (mediumBits extra).drop (r.pos - (mediumBits r.medium).length) := by
  rw [Reader.rest, Reader.rest, Reader.extend, mediumBits_append, List.drop_append]

/-- Where `x` answers a value, `y` answers its image. -/
def Follows {α β : Type} (φ : α → β) (x : Except CmdFault α) (y : Except CmdFault β) : Prop :=
  ∀ a, x = .ok a → y = .ok (φ a)

theorem Follows.ok {α β : Type} {φ : α → β} {a : α} {b : β} (h : φ a = b) : Follows φ (.ok a) (.ok b) := by
  rintro _ ⟨⟩
  rw [h]

theorem Follows.error {α β : Type} {φ : α → β} {f : CmdFault} {y : Except CmdFault β} : Follows φ (.error f) y :=
  nofun

theorem Follows.refl {α : Type} (x : Except CmdFault α) : Follows id x x := fun _ h => h

theorem Follows.bind {α β γ δ : Type} {φ : α → β} {ψ : γ → δ} {x : Except CmdFault α} {y : Except CmdFault β}
    {f : α → Except CmdFault γ} {g : β → Except CmdFault δ} (h : Follows φ x y) (hfg : ∀ a, Follows ψ (f a) (g (φ a))) :
    Follows ψ (x >>= f) (y >>= g) := by
  cases x with
  | error e => exact Follows.error
  | ok a =>
    rw [h a rfl]
    exact hfg a

theorem Reader.readBits_follows (extra : List Byte) (r : Reader) (w : Nat) :
    Follows (Prod.map id (Reader.extend extra)) (r.readBits w) ((r.extend extra).readBits w) := by
  rw [Reader.readBits_eq, Reader.readBits_eq, Reader.extend_rest]
  by_cases h : w ≤ r.rest.length
  · rw [if_pos h, if_pos (by rw [List.length_append]; omega), List.take_append_of_le_length h]
    exact Follows.ok rfl
  · rw [if_neg h]
    exact Follows.error

theorem Reader.readBit_follows (extra : List Byte) (r : Reader) :
    Follows (Prod.map id (Reader.extend extra)) r.readBit (r.extend extra).readBit :=
  (r.readBits_follows extra 1).bind fun _ => Follows.ok rfl

theorem Reader.readChar_follows (extra : List Byte) (r : Reader) :
    Follows (Prod.map id (Reader.extend extra)) r.readChar (r.extend extra).readChar :=
  (r.readBits_follows extra 8).bind fun _ => Follows.ok rfl

theorem parseTrie_follows (extra : List Byte) (fuel cnt : Nat) (r : Reader) :
    Follows (Prod.map id (Prod.map id (Reader.extend extra))) (parseTrie fuel cnt r)
      (parseTrie fuel cnt (r.extend extra)) := by
  induction fuel generalizing cnt r with
  | zero => exact Follows.error
  | succ fuel ih =>
    refine (r.readBit_follows extra).bind fun ⟨tag, r⟩ => ?_
    dsimp only [Prod.map, id]
    split
    · exact Follows.error
    · split
      · exact (r.readChar_follows extra).bind fun _ => Follows.ok rfl
      · exact (ih _ r).bind fun ⟨_, cnt, r⟩ => (ih cnt r).bind fun _ => Follows.ok rfl

theorem Trie.descend_follows (extra : List Byte) (t : Trie) (r : Reader) :
    Follows (Prod.map id (Reader.extend extra)) (t.descend r) (t.descend (r.extend extra)) := by
  induction t generalizing r with
  | leaf s => exact Follows.ok rfl
  | node left right ihl ihr =>
    refine (r.readBit_follows extra).bind fun ⟨bit, r⟩ => ?_
    cases bit with
    | false => exact ihl r
    | true => exact ihr r

theorem decodeSymbols_follows (extra : List Byte) (t : Trie) (len : Nat) (r : Reader) (w : Writer) :
    Follows id (decodeSymbols t len r w) (decodeSymbols t len (r.extend extra) w) := by
  induction len generalizing r w with
  | zero => exact Follows.ok rfl
  | succ len ih => exact (t.descend_follows extra r).bind fun ⟨s, r⟩ => (Follows.refl (w.writeByte s)).bind fun w => ih r w

theorem decodeMessage_follows (extra : List Byte) (cap : Nat) (t : Trie) (r : Reader) :
    Follows id (decodeMessage cap t r) (decodeMessage cap t (r.extend extra)) := by
  refine (r.readBits_follows extra 32).bind fun ⟨v, r⟩ => ?_
  dsimp only [Prod.map, id]
  split
  · exact Follows.error
  · exact (decodeSymbols_follows extra t _ r _).bind fun w => Follows.refl w.finish

theorem huffDecode_append {cap : Nat} {medium out : List Byte} (hne : medium ≠ []) (h : huffDecode cap medium = .ok out)
    (extra : List Byte) : huffDecode cap (medium ++ extra) = .ok out := by
  rw [huffDecode_eq_bind hne] at h
  rw [huffDecode_eq_bind (List.append_ne_nil_of_left_ne_nil hne extra)]
  exact (parseTrie_follows extra _ 0 (Reader.opened medium)).bind (ψ := id) (g := fun a => decodeMessage cap a.1 a.2.2)
    (fun a => decodeMessage_follows extra cap a.1 a.2.2) out h

/-- Settles O41. -/
theorem huffDecIgnoresTrailingBytes : Obligations.HuffDecIgnoresTrailingBytes := by
  unfold Obligations.HuffDecIgnoresTrailingBytes
  intro s u s' src dst extra out hp hcfg hne hpos hinput hlen hexec hcompletes
  cases (exec_huffDec src dst s).symm.trans hexec
  obtain ⟨-, out', hout, ht⟩ := State.runCommand_done hcompletes.status.done
  rw [ht] at hcompletes
  have hsame : out = out' := hcompletes.input.symm.trans
    (State.completeBuffer_completesWith_of_legal hp dst (huffDecode_length_le hout)).input
  have hmedium : s.input src ≠ [] := List.ne_nil_of_length_pos (by rwa [State.input_length])
  refine exec_huffDec_completes (hcfg ▸ hp) hne hlen ?_
  rw [hinput, hcfg, hsame]
  exact huffDecode_append hmedium hout extra

end Sys2Proof.Machine
end

section
/-! SUPPORT. The faults of HUFF_DEC on a stream that is no whole one (41_huffman.md R185, R189): the stream of a message cut
short, and zero bytes. -/

namespace Sys2Proof.Machine

/-! ### A medium that ends inside the bits due -/

/-- The reader's medium ends at bit `limit`, inside the bits that are due from its cursor on. -/
structure Reader.CutIn (r : Reader) (limit : Nat) (bits : List Bool) : Prop where
  begins : r.rest <+: bits
  shorter : r.rest.length < bits.length
  ends : r.pos + r.rest.length = limit

theorem Reader.CutIn.limit_lt {r : Reader} {limit : Nat} {bits : List Bool} (h : r.CutIn limit bits) :
    limit < r.pos + bits.length := by
  have hshorter := h.shorter
  have hends := h.ends
  omega

/-- The medium ends in the first part of the bits, or the first part is there and it ends in the second. -/
theorem Reader.CutIn.append {r : Reader} {limit : Nat} {l m : List Bool} (h : r.CutIn limit (l ++ m)) :
    r.CutIn limit l ∨ ∃ more, r.rest = l ++ more ∧ r.pos + l.length ≤ limit ∧ (r.skip l.length).CutIn limit m := by
  obtain ⟨hbegins, hshorter, hends⟩ := h
  by_cases hlen : r.rest.length < l.length
  · exact .inl ⟨List.prefix_of_prefix_length_le hbegins (List.prefix_append l m) (Nat.le_of_lt hlen), hlen, hends⟩
  · obtain ⟨more, hmore⟩ := List.prefix_of_prefix_length_le (List.prefix_append l m) hbegins (Nat.le_of_not_lt hlen)
    have hskip : (r.skip l.length).rest = more := by rw [Reader.rest_skip, ← hmore, List.drop_left]
    rw [← hmore] at hbegins hshorter hends
    rw [List.length_append, List.length_append] at hshorter
    rw [List.length_append] at hends
    refine .inr ⟨more, hmore.symm, by omega, ?_, ?_, ?_⟩
    · rw [hskip]
      exact (List.prefix_append_right_inj l).1 hbegins
    · rw [hskip]
      omega
    · rw [hskip, Reader.skip_pos]
      omega

/-- The medium ends before a bit that is due, or the bit is there and it ends in those after it. -/
theorem Reader.CutIn.cons {r : Reader} {limit : Nat} {b : Bool} {m : List Bool} (h : r.CutIn limit (b :: m)) :
    r.rest = [] ∧ r.pos = limit ∨ ∃ more, r.rest = b :: more ∧ r.pos + 1 ≤ limit ∧ (r.skip 1).CutIn limit m := by
  rcases Reader.CutIn.append (l := [b]) h with ⟨-, hshorter, hends⟩ | hthere
  · have hempty : r.rest = [] := List.length_eq_zero_iff.1 (Nat.lt_one_iff.1 hshorter)
    exact .inl ⟨hempty, by rwa [hempty] at hends⟩
  · exact .inr hthere

/-- A field cut short faults EOS where its read starts (40_bitstream.md R137). -/
theorem Reader.readBits_of_short {r : Reader} {w : Nat} (h : r.rest.length < w) :
    r.readBits w = .error ⟨.eos, r.pos⟩ := by
  rw [Reader.readBits_eq, if_neg (Nat.not_le.2 h)]

theorem Reader.readChar_of_short {r : Reader} (h : r.rest.length < 8) : r.readChar = .error ⟨.eos, r.pos⟩ := by
  rw [Reader.readChar, Reader.readBits_of_short h]
  rfl

/-! ### The read that fails -/

/-- Where the medium ends inside the first reads, the later ones are not reached. -/
theorem failingRead_append_of_lt {limit pos : Nat} {ws : List Nat} (h : limit < pos + ws.sum) (rest : List Nat) :
    failingRead limit pos (ws ++ rest) = failingRead limit pos ws := by
  induction ws generalizing pos with
  | nil =>
    cases rest with
    | nil => rfl
    | cons w rest => exact failingRead_stops (by simp only [List.sum_nil] at h; omega) rest
  | cons w ws ih =>
    rw [List.sum_cons] at h
    rw [List.cons_append, failingRead, failingRead, ih (by omega)]

/-- Of reads of single bits the one at the end of the medium fails. -/
theorem failingRead_replicate_one {limit pos n : Nat} (hpos : pos ≤ limit) (hn : limit < pos + n) :
    failingRead limit pos (List.replicate n 1) = limit := by
  induction n generalizing pos with
  | zero => omega
  | succ n ih =>
    rw [List.replicate_succ]
    by_cases h : pos + 1 ≤ limit
    · rw [failingRead_fits h, ih h (by omega)]
    · rw [failingRead_stops (by omega)]
      omega

theorem Trie.reads_sum (t : Trie) : t.reads.sum = t.bits.length := by
  induction t with
  | leaf s => rw [Trie.reads, Trie.bits, List.length_cons, byteBits_length]; rfl
  | node l r ihl ihr =>
    rw [Trie.reads, Trie.bits, List.sum_cons, List.sum_append, ihl, ihr, List.length_cons, List.length_append,
      Nat.add_comm]

/-! ### The trie cut short (41_huffman.md R185, R189) -/

theorem parseTrie_of_empty {fuel cnt : Nat} {r : Reader} (h : r.rest = []) :
    parseTrie (fuel + 1) cnt r = .error ⟨.eos, r.pos⟩ := by
  rw [parseTrie, Reader.readBit_of_empty h]
  rfl

/-- After the tag bit of an internal node the parser goes on with the two subtrees. -/
theorem parseTrie_of_false {fuel cnt : Nat} {r : Reader} {more : List Bool} (h : r.rest = false :: more)
    (hcnt : cnt ≠ Config.nodeCap) :
    parseTrie (fuel + 1) cnt r =
      parseTrie fuel (cnt + 1) (r.skip 1) >>= fun a => parseTrie fuel a.2.1 a.2.2 >>= fun b =>
        .ok (.node a.1 b.1, b.2.1, b.2.2) := by
  rw [parseTrie, Reader.readBit_of_rest h]
  exact if_neg hcnt

theorem parseTrie_of_true {fuel cnt : Nat} {r : Reader} {more : List Bool} (h : r.rest = true :: more)
    (hcnt : cnt ≠ Config.nodeCap) :
    parseTrie (fuel + 1) cnt r = (r.skip 1).readChar >>= fun a => .ok (.leaf a.1, cnt + 1, a.2) := by
  rw [parseTrie, Reader.readBit_of_rest h]
  exact if_neg hcnt

theorem parseTrie_of_cut (t : Trie) {fuel cnt limit : Nat} {r : Reader} (h : r.CutIn limit t.bits)
    (hcap : cnt + t.nodes ≤ Config.nodeCap) (hfuel : t.nodes ≤ fuel) :
    parseTrie fuel cnt r = .error ⟨.eos, failingRead limit r.pos t.reads⟩ := by
  induction t generalizing fuel cnt r with
  | leaf s =>
    rw [Trie.nodes] at hcap hfuel
    rw [Trie.bits] at h
    obtain ⟨fuel, rfl⟩ := Nat.exists_eq_add_of_le' hfuel
    rcases h.cons with ⟨hempty, rfl⟩ | ⟨more, hrest, hfits, hsymbol⟩
    · rw [parseTrie_of_empty hempty, Trie.reads, failingRead_stops (Nat.lt_succ_self _)]
    · have hshort := hsymbol.shorter
      have hlt := hsymbol.limit_lt
      rw [byteBits_length] at hshort hlt
      rw [Reader.skip_pos] at hlt
      rw [parseTrie_of_true hrest (by omega), Reader.readChar_of_short hshort, Trie.reads, failingRead_fits hfits,
        failingRead_stops hlt]
      rfl
  | node left right ihl ihr =>
    rw [Trie.nodes] at hcap hfuel
    rw [Trie.bits] at h
    have hleft := left.nodes_pos
    have hright := right.nodes_pos
    obtain ⟨fuel, rfl⟩ := Nat.exists_eq_add_of_le' (Nat.le_trans (by omega : 1 ≤ 1 + left.nodes + right.nodes) hfuel)
    rcases h.cons with ⟨hempty, rfl⟩ | ⟨more, hrest, hfits, hchildren⟩
    · rw [parseTrie_of_empty hempty, Trie.reads, failingRead_stops (Nat.lt_succ_self _)]
    · rw [parseTrie_of_false hrest (by omega), Trie.reads, failingRead_fits hfits]
      rcases hchildren.append with hcut | ⟨more, hwhole, hfits', hcut⟩
      · have hlt := hcut.limit_lt
        rw [ihl hcut (by omega) (by omega), failingRead_append_of_lt (by rwa [Trie.reads_sum])]
        rfl
      · have hread := ihr (fuel := fuel) (cnt := cnt + 1 + left.nodes) hcut (by omega) (by omega)
        rw [parseTrie_of_rest left hwhole (by omega) (by omega),
          failingRead_append (by rw [Trie.reads_sum]; exact hfits'), Trie.reads_sum]
        simp only [bind, Except.bind, hread]
        rfl

/-! ### The codes cut short (41_huffman.md R187, R189) -/

theorem Trie.descend_of_cut {t : Trie} {s : Byte} {code : List Bool} {limit : Nat} {r : Reader}
    (hcode : (s, code) ∈ t.codes []) (h : r.CutIn limit code) : t.descend r = .error ⟨.eos, limit⟩ := by
  induction t generalizing r code with
  | leaf s' =>
    simp only [Trie.codes, List.mem_singleton, Prod.mk.injEq] at hcode
    exact absurd h.shorter (by simp [hcode.2])
  | node left right ihl ihr =>
    rw [Trie.descend]
    rcases Trie.mem_codes_node.1 hcode with ⟨rest, rfl, hchild⟩ | ⟨rest, rfl, hchild⟩
    · rcases h.cons with ⟨hempty, rfl⟩ | ⟨more, hrest, -, hcut⟩
      · rw [Reader.readBit_of_empty hempty]
        rfl
      · rw [Reader.readBit_of_rest hrest]
        exact ihl hchild hcut
    · rcases h.cons with ⟨hempty, rfl⟩ | ⟨more, hrest, -, hcut⟩
      · rw [Reader.readBit_of_empty hempty]
        rfl
      · rw [Reader.readBit_of_rest hrest]
        exact ihr hchild hcut

/-- The symbols before the cut are written, where there is room for all of them, and then EOS ends the decoding. -/
theorem decodeSymbols_of_cut {t : Trie} {coded : List (Byte × List Bool)} {limit : Nat} {r : Reader} {w : Writer}
    (hcoded : ∀ e ∈ coded, e ∈ t.codes []) (h : r.CutIn limit (coded.flatMap (·.2))) (hw : w.Ok)
    (hroom : w.written.length + 8 * coded.length ≤ 8 * w.cap) :
    decodeSymbols t coded.length r w = .error ⟨.eos, limit⟩ := by
  induction coded generalizing r w with
  | nil => exact absurd h.shorter (Nat.not_lt_zero _)
  | cons e coded ih =>
    have he := hcoded e List.mem_cons_self
    rw [List.length_cons] at hroom
    rw [List.length_cons, decodeSymbols]
    rcases h.append with hcut | ⟨more, hrest, -, hcut⟩
    · rw [Trie.descend_of_cut he hcut]
      rfl
    · rw [Trie.descend_of_code he hrest]
      show w.writeByte e.1 >>= (fun w => decodeSymbols t coded.length (r.skip e.2.length) w) = _
      rw [Writer.writeByte_eq]
      rcases Writer.writeCode_spec hw (byteBits e.1) with ⟨-, w', hwrite, hw', hcap, hwritten⟩ | ⟨hover, -⟩
      · rw [hwrite]
        refine ih (fun x hx => hcoded x (List.mem_cons_of_mem _ hx)) hcut hw' ?_
        rw [hwritten, hcap, List.length_append, byteBits_length]
        omega
      · rw [byteBits_length] at hover
        omega

theorem decodeMessage_of_cut {t : Trie} {coded : List (Byte × List Bool)} {cap limit : Nat} {r : Reader}
    (hcoded : ∀ e ∈ coded, e ∈ t.codes []) (hroom : coded.length ≤ cap) (hlen : coded.length < 2 ^ 31)
    (h : r.CutIn limit (natBits coded.length 32 ++ coded.flatMap (·.2))) :
    decodeMessage cap t r =
      .error ⟨.eos, failingRead limit r.pos (32 :: List.replicate (coded.flatMap (·.2)).length 1)⟩ := by
  rcases h.append with hcut | ⟨more, hrest, hfits, hcut⟩
  · have hlt := hcut.limit_lt
    have hshort := hcut.shorter
    rw [natBits_length] at hlt hshort
    rw [failingRead_stops hlt, decodeMessage, Reader.readInt, Reader.readBits_of_short hshort]
    rfl
  · have hlt := hcut.limit_lt
    rw [natBits_length] at hfits hcut hlt
    rw [decodeMessage_of_length hrest hlen, decodeSymbols_of_cut hcoded hcut (Writer.opened_ok cap)
      (by rw [Writer.opened_written, Writer.opened_cap, List.length_nil]; omega), failingRead_fits hfits,
      failingRead_replicate_one hfits hlt]
    rfl

/-! ### The whole stream cut short -/

theorem huffDecode_of_cut {cap : Nat} {input medium : List Byte} {t : Trie} (ht : buildTrie (freqTable input) = some t)
    (hroom : input.length ≤ cap) (hcap : cap < 2 ^ 31) (hne : medium ≠ [])
    (h : (Reader.opened medium).CutIn (8 * medium.length) (huffBits t input)) :
    huffDecode cap medium = .error ⟨.eos, failingRead (8 * medium.length) 0 (huffReads t input)⟩ := by
  have hnodes := nodes_le_nodeCap ht
  have hpayload : (payloadBits t input).length = ((messageCodes t input).flatMap (·.2)).length := by
    rw [messageCodes, List.flatMap_map]
    rfl
  rw [huffBits_eq_codes] at h
  rw [huffReads, hpayload]
  have hpos : (Reader.opened medium).pos = 0 := rfl
  rcases h.append with hcut | ⟨more, hrest, hfits, hcut⟩
  · have hlt := hcut.limit_lt
    rw [← Trie.reads_sum, hpos] at hlt
    rw [huffDecode_eq_bind hne, parseTrie_of_cut t hcut (by omega) (by omega), failingRead_append_of_lt hlt]
    rfl
  · rw [Reader.opened_rest] at hrest
    rw [hpos] at hfits
    rw [huffDecode_of_trie hrest hnodes, decodeMessage_of_cut (messageCodes_mem ht)
      (by rwa [messageCodes_length]) (by rw [messageCodes_length]; omega) hcut,
      failingRead_append (by rw [Trie.reads_sum]; exact hfits), Trie.reads_sum]
    rfl

theorem mediumBits_take_prefix (m : List Byte) (n : Nat) : mediumBits (m.take n) <+: mediumBits m :=
  ⟨mediumBits (m.drop n), by rw [← mediumBits_append, List.take_append_drop]⟩

/-- The first bytes of a packed sequence, not all, end inside the sequence. -/
theorem opened_take_packBits_cutIn {bits : List Bool} {m : Nat} (h : m < (packBits bits).length) :
    (Reader.opened ((packBits bits).take m)).CutIn (8 * ((packBits bits).take m).length) bits := by
  have hbegins := mediumBits_take_prefix (packBits bits) m
  have hlen : (mediumBits ((packBits bits).take m)).length < bits.length := by
    rw [packBits_length] at h
    rw [mediumBits_length, List.length_take, packBits_length]
    omega
  rw [mediumBits_packBits] at hbegins
  exact ⟨List.prefix_of_prefix_length_le hbegins (List.prefix_append bits _) (Nat.le_of_lt hlen), hlen,
    (Nat.zero_add _).trans (mediumBits_length _)⟩

/-- Settles O42. -/
theorem huffDecOfACutStreamFaults : Obligations.HuffDecOfACutStreamFaults := by
  unfold Obligations.HuffDecOfACutStreamFaults
  intro s src dst input t m hp hne hlen hroom ht hm hcut hinput
  have hlength : (s.input src).length = m := by rw [hinput, List.length_take, Nat.min_eq_left (Nat.le_of_lt hcut)]
  have hcutIn := opened_take_packBits_cutIn hcut
  rw [← hinput, hlength] at hcutIn
  have hmedium : s.input src ≠ [] := List.ne_nil_of_length_pos (by omega)
  obtain ⟨-, -, -, hcap, -⟩ := hp
  refine exec_huffDec_faults hne hlen ?_
  rw [huffDecode_of_cut ht hroom (by omega) hmedium (by rwa [hlength]), hlength]

/-! ### Zero bytes (41_huffman.md R185) -/

theorem mediumBits_replicate_zero (n : Nat) : mediumBits (List.replicate n 0) = List.replicate (8 * n) false := by
  induction n with
  | zero => rfl
  | succ n ih =>
    rw [List.replicate_succ, mediumBits_cons, ih, Nat.mul_succ, Nat.add_comm, List.replicate_add]
    rfl

/-- On zero bits every node is an internal one: the node store overflows, or the bits end first. -/
theorem parseTrie_of_zeros (fuel : Nat) {cnt k : Nat} {r : Reader} (h : r.rest = List.replicate k false)
    (hcnt : cnt + fuel = Config.nodeCap) :
    parseTrie (fuel + 1) cnt r =
      if k ≤ fuel then .error ⟨.eos, r.pos + k⟩ else .error ⟨.trieOverflow, r.pos + (fuel + 1)⟩ := by
  induction fuel generalizing cnt k r with
  | zero =>
    cases k with
    | zero => exact parseTrie_of_empty h
    | succ k =>
      rw [List.replicate_succ] at h
      rw [parseTrie, Reader.readBit_of_rest h]
      exact if_pos hcnt
  | succ fuel ih =>
    cases k with
    | zero => exact parseTrie_of_empty h
    | succ k =>
      rw [List.replicate_succ] at h
      have hrest : (r.skip 1).rest = List.replicate k false := by rw [Reader.rest_skip, h]; rfl
      rw [parseTrie_of_false h (by omega), ih hrest (by omega), Reader.skip_pos]
      by_cases hk : k ≤ fuel
      · rw [if_pos hk, if_pos (Nat.succ_le_succ hk), Nat.add_assoc, Nat.add_comm 1]
        rfl
      · rw [if_neg hk, if_neg (by omega), Nat.add_assoc, Nat.add_comm 1]
        rfl

theorem huffDecode_zeros (cap : Nat) {n : Nat} (hn : 1 ≤ n) :
    huffDecode cap (List.replicate n 0) =
      if 8 * n ≤ Config.nodeCap then .error ⟨.eos, 8 * n⟩ else .error ⟨.trieOverflow, 512⟩ := by
  have hne : List.replicate n (0 : Byte) ≠ [] := List.ne_nil_of_length_pos (by rwa [List.length_replicate])
  have hpos : (Reader.opened (List.replicate n 0)).pos + 8 * n = 8 * n := Nat.zero_add _
  rw [huffDecode_eq_bind hne, parseTrie_of_zeros Config.nodeCap (r := Reader.opened _) (mediumBits_replicate_zero n)
    (Nat.zero_add _), hpos]
  split <;> rfl

/-- Settles O43. -/
theorem huffDecOfZeroBytesFaults : Obligations.HuffDecOfZeroBytesFaults := by
  unfold Obligations.HuffDecOfZeroBytesFaults
  intro s src dst n hp hne hn hinput
  have hlen : (s.len src).toNat ≤ s.cfg.bufCap := by rwa [← s.input_length, hinput, List.length_replicate]
  refine ⟨fun hlong => exec_huffDec_faults hne hlen ?_, fun hpos hshort => exec_huffDec_faults hne hlen ?_⟩
  · rw [hinput, huffDecode_zeros _ (by omega), Config.nodeCap, if_neg (by omega)]
  · rw [hinput, huffDecode_zeros _ hpos, Config.nodeCap, if_pos (by omega)]

end Sys2Proof.Machine
end

section
/-! SUPPORT. The LZW dictionary (42_lzw.md R230 to R233) and the codewords of the longest matches (R235, R236): what an
insertion does to the strings and codewords, which codeword a dictionary string has, and one round of `lzwCodewords`. -/

namespace Sys2Proof.Machine

/-! ### Strings and codewords (42_lzw.md R230 to R232) -/

theorem Dict.seeded_string (c : Nat) :
    Dict.seeded.string c = if c < Config.R then some [BitVec.ofNat 8 c] else none := rfl

/-- The string of a codeword after an insertion with room: the new string for the new codeword, else as before. -/
theorem Dict.string_insert {d : Dict} {cap : Nat} (hR : Config.R < d.next) (h : d.next < cap) (str : List Byte) (c : Nat) :
    (d.insert cap str).string c = if c = d.next then some str else d.string c := by
  rw [Dict.insert_of_lt h, Dict.string, Dict.string, findCell]
  by_cases hc : c = d.next
  · rw [if_pos hc, if_pos hc.symm, if_neg (by omega)]
  · rw [if_neg hc, if_neg (Ne.symm hc)]

/-- Where a string found after an insertion comes from. -/
theorem Dict.string_insert_cases {d : Dict} {cap c : Nat} {str s : List Byte} (hR : Config.R < d.next)
    (h : (d.insert cap str).string c = some s) : c = d.next ∧ str = s ∨ d.string c = some s := by
  by_cases hroom : d.next < cap
  · rw [Dict.string_insert hR hroom] at h
    split at h
    · next hc => exact .inl ⟨hc, Option.some.inj h⟩
    · exact .inr h
  · rw [Dict.insert_of_full hroom] at h
    exact .inr h

theorem Dict.next_insert_of_lt {d : Dict} {cap : Nat} (h : d.next < cap) (str : List Byte) :
    (d.insert cap str).next = d.next + 1 := by
  rw [Dict.insert_of_lt h]

theorem Dict.seeded_ok {cap : Nat} (h : Config.R + 1 ≤ cap) : Dict.seeded.Ok cap where
  next_ge := Nat.le_refl _
  next_le := h
  defined c := by
    have hnone : ¬ (Config.R < c ∧ c < Dict.seeded.next) := by
      rintro ⟨hlo, hhi⟩
      exact absurd hhi (Nat.not_lt.2 hlo)
    rw [Dict.seeded_string]
    split <;> simp_all

/-- An insertion keeps "the defined codewords are exactly [0, R) and [R + 1, next)" (10_state.md R55). -/
theorem Dict.Ok.insert {d : Dict} {cap : Nat} (hd : d.Ok cap) (str : List Byte) : (d.insert cap str).Ok cap := by
  by_cases hroom : d.next < cap
  · have hge := hd.next_ge
    have hnext := Dict.next_insert_of_lt hroom str
    refine ⟨by omega, by omega, fun c => ?_⟩
    rw [Dict.string_insert hge hroom, hnext]
    split
    · next hc => simp only [Option.isSome_some, true_iff]; omega
    · next hc => rw [hd.defined]; omega
  · rwa [Dict.insert_of_full hroom]

/-- A defined codeword is below `next` and is not R. -/
theorem Dict.Ok.of_string {d : Dict} {cap c : Nat} {str : List Byte} (hd : d.Ok cap) (h : d.string c = some str) :
    c < d.next ∧ c ≠ Config.R := by
  have hge := hd.next_ge
  have hdefined := (hd.defined c).1 (by rw [h]; rfl)
  omega

theorem Dict.state_insert {d : Dict} {cap : Nat} (hR : Config.R < d.next) (h : d.next < cap) (str : List Byte) :
    (d.insert cap str).state cap = .growing ∨ (d.insert cap str).state cap = .full := by
  unfold Dict.state
  rw [Dict.next_insert_of_lt h]
  by_cases hfull : d.next + 1 = cap
  · exact .inr (if_pos hfull)
  · rw [if_neg hfull, if_neg (by omega)]
    exact .inl rfl

theorem Dict.next_eq_of_full {d : Dict} {cap : Nat} (h : d.state cap = .full) : d.next = cap := by
  unfold Dict.state at h
  split at h
  · assumption
  · split at h <;> cases h

/-- Settles O45. -/
theorem dictionaryStateMachine : Obligations.DictionaryStateMachine := by
  unfold Obligations.DictionaryStateMachine
  intro cap hcap
  refine ⟨Dict.seeded_ok (by omega), ?_, fun d str hd => ⟨hd.insert str, fun hroom => ?_, fun hfull => ?_⟩⟩
  · have hne : ¬ Dict.seeded.next = cap := fun h => absurd hcap (by rw [← h]; decide)
    rw [Dict.state, if_neg hne]
    rfl
  · refine ⟨Dict.next_insert_of_lt hroom str, ?_, fun c hc => ?_, Dict.state_insert hd.next_ge hroom str⟩
    · rw [Dict.string_insert hd.next_ge hroom, if_pos rfl]
    · rw [Dict.string_insert hd.next_ge hroom, if_neg hc]
  · have hnext := Dict.next_eq_of_full hfull
    exact Dict.insert_of_full (by omega) str

/-! ### The codeword of a dictionary string -/

theorem Dict.has_singleton (d : Dict) (b : Byte) : d.has [b] = true := rfl

theorem Dict.codeOf_singleton (d : Dict) (b : Byte) : d.codeOf [b] = b.toNat := rfl

/-- A string longer than one byte is in the dictionary exactly where it has an inserted codeword. -/
theorem Dict.has_concat (d : Dict) {s : List Byte} (hs : s ≠ []) (b : Byte) :
    d.has (s ++ [b]) = (d.codeword (s ++ [b])).isSome := by
  have hlen : ((s ++ [b]).length == 1) = false := by simpa using hs
  rw [Dict.has, hlen, Bool.false_or]

theorem Dict.codeOf_of_codeword {d : Dict} {s : List Byte} {c : Nat} (hlen : s.length ≠ 1) (h : d.codeword s = some c) :
    d.codeOf s = c := by
  unfold Dict.codeOf
  split
  · exact absurd rfl hlen
  · rw [h, Option.getD_some]

/-- A dictionary whose defined codewords are as 10_state.md R55 says, and in which a codeword looked up by its string is the
codeword of that string. -/
structure Dict.Sound (d : Dict) (cap : Nat) : Prop where
  ok : d.Ok cap
  string_of_codeword : ∀ s c, d.codeword s = some c → d.string c = some s

theorem Dict.seeded_sound {cap : Nat} (h : Config.R + 1 ≤ cap) : Dict.seeded.Sound cap :=
  ⟨Dict.seeded_ok h, nofun⟩

theorem Dict.Sound.insert {d : Dict} {cap : Nat} (hd : d.Sound cap) (str : List Byte) : (d.insert cap str).Sound cap := by
  refine ⟨hd.ok.insert str, fun s c hc => ?_⟩
  by_cases hroom : d.next < cap
  · rw [Dict.codeword_insert hroom] at hc
    rw [Dict.string_insert hd.ok.next_ge hroom]
    split at hc
    · next hs =>
      cases hc
      rw [if_pos rfl, hs]
    · have hold := hd.string_of_codeword s c hc
      rwa [if_neg (Nat.ne_of_lt (hd.ok.of_string hold).1)]
  · rw [Dict.insert_of_full hroom] at hc ⊢
    exact hd.string_of_codeword s c hc

/-- The codeword emitted for a dictionary string names that string. -/
theorem Dict.Sound.string_codeOf {d : Dict} {cap : Nat} (hd : d.Sound cap) {s : List Byte} (hs : d.has s = true) :
    d.string (d.codeOf s) = some s := by
  by_cases hlen : s.length = 1
  · obtain ⟨b, rfl⟩ := List.length_eq_one_iff.1 hlen
    rw [Dict.codeOf_singleton, d.string_of_lt b.isLt, BitVec.ofNat_toNat, BitVec.setWidth_eq]
  · obtain ⟨c, hc⟩ : ∃ c, d.codeword s = some c := by
      simpa [Dict.has, hlen, Option.isSome_iff_exists] using hs
    rw [Dict.codeOf_of_codeword hlen hc]
    exact hd.string_of_codeword s c hc

/-! ### The longest match (42_lzw.md R235) -/

/-- The longest match is the greatest length at which the input starts with a dictionary string, 0 if it never does. -/
theorem longestMatch_eq_iff {d : Dict} {input : List Byte} {t : Nat} :
    longestMatch d input = t ↔
      (t = 0 ∨ t ≤ input.length ∧ d.has (input.take t) = true) ∧
        ∀ u ≤ input.length, d.has (input.take u) = true → u ≤ t := by
  have hmax := List.max?_eq_some_iff (a := t)
    (xs := 0 :: (List.range (input.length + 1)).filter (fun t => d.has (input.take t)))
  rw [List.max?_cons', Option.some.injEq] at hmax
  rw [longestMatch, hmax]
  simp

/-- There always is a match, "because every one-byte string is in the dictionary" (42_lzw.md R235). -/
theorem exists_longestMatch (d : Dict) {input : List Byte} (h : input ≠ []) :
    ∃ m rem, input = m ++ rem ∧ m ≠ [] ∧ d.has m = true ∧ longestMatch d input = m.length := by
  obtain ⟨hmatch, hgreatest⟩ := longestMatch_eq_iff.1 (rfl : longestMatch d input = _)
  have hone : 1 ≤ longestMatch d input := by
    obtain ⟨b, rest, rfl⟩ := List.exists_cons_of_ne_nil h
    exact hgreatest 1 (by simp) rfl
  obtain ⟨hle, hhas⟩ := hmatch.resolve_left (by omega)
  have hlen : (input.take (longestMatch d input)).length = longestMatch d input := by
    rw [List.length_take, Nat.min_eq_left hle]
  exact ⟨_, _, (List.take_append_drop _ input).symm, List.ne_nil_of_length_pos (by omega), hhas, hlen.symm⟩

/-! ### The codewords of the longest matches (42_lzw.md R234, R236) -/

@[simp] theorem lzwCodewords_nil (cap fuel : Nat) (d : Dict) : lzwCodewords cap fuel d [] = [] := by
  cases fuel <;> rfl

/-- One round: the codeword of the match, the match and the next byte inserted, and the rest. After the last match it makes
no difference what is inserted. -/
theorem lzwCodewords_of_longestMatch (cap fuel : Nat) {d : Dict} {m rem : List Byte} (hm : m ≠ [])
    (h : longestMatch d (m ++ rem) = m.length) :
    lzwCodewords cap (fuel + 1) d (m ++ rem) =
      d.codeOf m :: lzwCodewords cap fuel (d.insert cap (m ++ rem.take 1)) rem := by
  obtain ⟨b, rest, rfl⟩ := List.exists_cons_of_ne_nil hm
  rw [List.cons_append, lzwCodewords, ← List.cons_append, h, List.take_left, List.drop_left, List.take_add, List.take_left,
    List.drop_left]
  cases rem with
  | nil => simp
  | cons x rem => rw [if_pos (by simp)]

/-- One round of the loop on an input that is not empty. -/
theorem lzwCodewords_round (cap fuel : Nat) (d : Dict) {input : List Byte} (h : input ≠ []) :
    ∃ m rem, input = m ++ rem ∧ m ≠ [] ∧ d.has m = true ∧
      lzwCodewords cap (fuel + 1) d input =
        d.codeOf m :: lzwCodewords cap fuel (d.insert cap (m ++ rem.take 1)) rem := by
  obtain ⟨m, rem, rfl, hm, hhas, hlongest⟩ := exists_longestMatch d h
  exact ⟨m, rem, rfl, hm, hhas, lzwCodewords_of_longestMatch cap fuel hm hlongest⟩

theorem lzwCodewords_in_range {cap : Nat} (fuel : Nat) {d : Dict} (hd : d.Sound cap) (input : List Byte) :
    ∀ c ∈ lzwCodewords cap fuel d input, c < cap ∧ c ≠ Config.R := by
  induction fuel generalizing d input with
  | zero => exact nofun
  | succ fuel ih =>
    by_cases hnil : input = []
    · rw [hnil, lzwCodewords_nil]
      exact nofun
    · obtain ⟨m, rem, -, -, hhas, hround⟩ := lzwCodewords_round cap fuel d hnil
      rw [hround]
      refine List.forall_mem_cons.2 ⟨?_, ih (hd.insert _) rem⟩
      obtain ⟨hlt, hne⟩ := hd.ok.of_string (hd.string_codeOf hhas)
      exact ⟨Nat.lt_of_lt_of_le hlt hd.ok.next_le, hne⟩

/-- Legal parameters leave room above R: L = 2^W with W ≥ 9 (00_scope.md R7). -/
theorem Params.R_lt_L {p : Params} (hp : p.Legal) : Config.R + 1 < p.L :=
  have hpow : 2 ^ 9 ≤ p.L := Nat.pow_le_pow_right Nat.two_pos hp.1
  Nat.lt_of_lt_of_le (by decide) hpow

/-- Settles O46. -/
theorem emittedCodewordsAreInRange : Obligations.EmittedCodewordsAreInRange := by
  unfold Obligations.EmittedCodewordsAreInRange
  intro p input hp
  exact lzwCodewords_in_range input.length (Dict.seeded_sound (Params.R_lt_L hp).le) input

end Sys2Proof.Machine
end

section
/-! SUPPORT. LZW_ENC (42_lzw.md R234 to R238): the walk of the encoder finds the longest matches, so that what LZW_ENC writes
are the codewords of the literal loop and the terminator. -/

namespace Sys2Proof.Machine

/-! ### The walk finds the longest match (42_lzw.md R233, R235) -/

/-- With a string the dictionary holds the string without its last byte (42_lzw.md R233). -/
def Dict.PrefixClosed (d : Dict) : Prop := ∀ s b, s ≠ [] → d.has (s ++ [b]) = true → d.has s = true

theorem Dict.seeded_prefixClosed : Dict.seeded.PrefixClosed := by
  intro s b hs h
  rw [Dict.has_concat _ hs] at h
  cases h

theorem Dict.has_insert {d : Dict} {cap : Nat} (h : d.next < cap) (str s : List Byte) :
    (d.insert cap str).has s = true ↔ s = str ∨ d.has s = true := by
  unfold Dict.has
  rw [Dict.codeword_insert h]
  by_cases hs : str = s
  · simp [hs]
  · simp [hs, Ne.symm hs]

/-- "Every inserted string is an existing dictionary string plus one byte" (42_lzw.md R233). -/
theorem Dict.PrefixClosed.insert {d : Dict} (hd : d.PrefixClosed) {s : List Byte} (hs : d.has s = true) (cap : Nat)
    (b : Byte) : (d.insert cap (s ++ [b])).PrefixClosed := by
  by_cases hroom : d.next < cap
  · intro u x hu h
    rw [Dict.has_insert hroom] at h ⊢
    rcases h with heq | hold
    · rw [(List.append_inj' heq rfl).1]
      exact .inr hs
    · exact .inr (hd u x hu hold)
  · rwa [Dict.insert_of_full hroom]

theorem Dict.PrefixClosed.has_of_has_append {d : Dict} (hd : d.PrefixClosed) {s : List Byte} (hs : s ≠ []) (t : List Byte)
    (h : d.has (s ++ t) = true) : d.has s = true := by
  induction t using List.reverseRecOn with
  | nil => rwa [List.append_nil] at h
  | append_singleton t b ih =>
    rw [← List.append_assoc] at h
    exact ih (hd _ b (List.append_ne_nil_of_left_ne_nil hs t) h)

/-- A dictionary string that the next byte does not extend is the longest match. -/
theorem longestMatch_of_not_extended {d : Dict} (hd : d.PrefixClosed) {m rem : List Byte} (hhas : d.has m = true)
    (hstop : ∀ b ∈ rem.head?, ¬ d.has (m ++ [b]) = true) : longestMatch d (m ++ rem) = m.length := by
  refine longestMatch_eq_iff.2 ⟨.inr ⟨by simp, by rwa [List.take_left]⟩, fun u hu hlonger => ?_⟩
  by_contra hlt
  cases rem with
  | nil => simp at hu; omega
  | cons b rest =>
    obtain ⟨k, rfl⟩ : ∃ k, u = m.length + (k + 1) := ⟨u - m.length - 1, by omega⟩
    rw [List.take_length_add_append, List.take_succ_cons, List.append_cons] at hlonger
    exact hstop b rfl (hd.has_of_has_append (by simp) _ hlonger)

/-! ### What LZW_ENC writes (42_lzw.md R234 to R238) -/

theorem codewordBits_cons (w c : Nat) (cs : List Nat) : codewordBits w (c :: cs) = natBits c w ++ codewordBits w cs := rfl

theorem codewordBits_append (w : Nat) (cs ds : List Nat) :
    codewordBits w (cs ++ ds) = codewordBits w cs ++ codewordBits w ds := List.flatMap_append

theorem codewordBits_singleton (w c : Nat) : codewordBits w [c] = natBits c w := List.append_nil _

/-- The encoder's walk from the match `cur` writes the codewords of the loop of R234 from where `cur` starts. -/
theorem lzwEncodeLoop_eq (width cap : Nat) {d : Dict} (hd : d.PrefixClosed) {cur : List Byte} (hne : cur ≠ [])
    (hhas : d.has cur = true) (input : List Byte) {fuel : Nat} (hfuel : input.length < fuel) (w : Writer) :
    lzwEncodeLoop width cap d cur (d.codeOf cur) input w =
      w.writeCode (codewordBits width (lzwCodewords cap fuel d (cur ++ input))) := by
  induction input generalizing d cur fuel w with
  | nil =>
    obtain ⟨fuel, rfl⟩ := Nat.exists_eq_add_one.2 hfuel
    have hlongest := longestMatch_of_not_extended hd (rem := []) hhas nofun
    rw [lzwEncodeLoop, Writer.writeBits_eq, lzwCodewords_of_longestMatch cap fuel hne hlongest, lzwCodewords_nil,
      codewordBits_singleton]
  | cons b rest ih =>
    have hextended := d.has_concat hne b
    rw [lzwEncodeLoop]
    split
    · next c hc =>
      rw [hc] at hextended
      have hcode : d.codeOf (cur ++ [b]) = c := Dict.codeOf_of_codeword (by simpa using hne) hc
      rw [← hcode, ih hd (by simp) hextended (Nat.lt_of_succ_lt hfuel), ← List.append_cons]
    · next hc =>
      rw [hc] at hextended
      obtain ⟨fuel, rfl⟩ := Nat.exists_eq_add_one.2 (Nat.zero_lt_of_lt hfuel)
      have hlongest := longestMatch_of_not_extended hd (rem := b :: rest) hhas (by simp [hextended])
      rw [lzwCodewords_of_longestMatch cap fuel hne hlongest, codewordBits_cons, Writer.writeCode_append,
        Writer.writeBits_eq]
      exact congrArg (w.writeCode (natBits (d.codeOf cur) width) >>= ·) (funext fun w' =>
        ih (hd.insert hhas cap b) (List.cons_ne_nil b []) (Dict.has_singleton _ b) (Nat.lt_of_succ_lt_succ hfuel) w')

/-- LZW_ENC as a run of the writer: the codewords of the longest matches, then the terminator. -/
theorem lzwEncode_eq_bind (p : Params) (input : List Byte) :
    lzwEncode p input =
      ((Writer.opened p.bufCap).writeCode (codewordBits p.W (lzwCodewords p.L input.length Dict.seeded input)) >>= fun w =>
        w.writeCode (natBits Config.R p.W) >>= Writer.finish) := by
  simp only [← Writer.writeBits_eq]
  cases input with
  | nil => rfl
  | cons b rest =>
    have hloop := lzwEncodeLoop_eq p.W p.L Dict.seeded_prefixClosed (List.cons_ne_nil b []) (Dict.has_singleton _ b) rest
      (Nat.lt_succ_self rest.length) (Writer.opened p.bufCap)
    exact congrArg (· >>= fun w => w.writeBits Config.R p.W >>= Writer.finish) hloop

/-- LZW_ENC writes the stream of 42_lzw.md R237, or faults OUT_OVERFLOW exactly where it does not fit (R238). -/
theorem lzwEncode_eq (p : Params) (input : List Byte) :
    lzwEncode p input =
      if ((codewordBits p.W (lzwStream p input)).length + 7) / 8 ≤ p.bufCap
      then .ok (packBits (codewordBits p.W (lzwStream p input))) else .error ⟨.outOverflow, 0⟩ := by
  rw [← Writer.run_eq, lzwEncode_eq_bind, lzwStream, codewordBits_append, codewordBits_singleton, Writer.writeCode_append]
  cases (Writer.opened p.bufCap).writeCode (codewordBits p.W (lzwCodewords p.L input.length Dict.seeded input)) <;> rfl

theorem lzwEncode_length_le {p : Params} {input out : List Byte} (h : lzwEncode p input = .ok out) :
    out.length ≤ p.bufCap :=
  (lzwEncode_answers p input).of_ok h

theorem State.admits_lzwEnc {s : State} {src dst : BufId} (hne : src ≠ dst)
    (hlen : (s.len src).toNat ≤ s.cfg.bufCap) : s.admits (.lzwEnc src dst) = true :=
  (s.admits_iff _).2 ⟨decide_eq_true hne, hlen, nofun⟩

theorem exec_lzwEnc_completes {s : State} {src dst : BufId} (hp : s.cfg.Legal) (hne : src ≠ dst)
    (hlen : (s.len src).toNat ≤ s.cfg.bufCap) {out : List Byte} (hout : lzwEncode s.cfg (s.input src) = .ok out) :
    ∃ u, exec (.lzwEnc src dst) s = .next u ∧ CompletesWith s u dst out := by
  rw [exec_lzwEnc, State.runCommand_ok (State.admits_lzwEnc hne hlen) hout]
  exact ⟨_, rfl, State.completeBuffer_completesWith_of_legal hp dst (lzwEncode_length_le hout)⟩

theorem exec_lzwEnc_faults {s : State} {src dst : BufId} (hne : src ≠ dst) (hlen : (s.len src).toNat ≤ s.cfg.bufCap)
    {f : CmdFault} (hfault : lzwEncode s.cfg (s.input src) = .error f) :
    ∃ u, exec (.lzwEnc src dst) s = .next u ∧ FaultsBuffer s u dst f := by
  rw [exec_lzwEnc, State.runCommand_error (State.admits_lzwEnc hne hlen) hfault]
  exact ⟨_, rfl, s.takeFault_faultsBuffer dst f⟩

/-- Settles O47. -/
theorem lzwEncWritesTheLongestMatches : Obligations.LzwEncWritesTheLongestMatches := by
  unfold Obligations.LzwEncWritesTheLongestMatches
  intro s src dst hp hne hlen
  have hencode := lzwEncode_eq s.cfg (s.input src)
  exact ⟨fun hfits => exec_lzwEnc_completes hp hne hlen (hencode.trans (if_pos hfits)),
    fun hover => exec_lzwEnc_faults hne hlen (hencode.trans (if_neg (Nat.not_le.2 hover)))⟩

end Sys2Proof.Machine
end

section
/-! SUPPORT. LZW_DEC (42_lzw.md R239 to R245): its dictionary, one round of its loop, and what it answers at the first
codeword and after any codewords that decode one after the other. -/

namespace Sys2Proof.Machine

/-! ### The decoder's dictionary (42_lzw.md R239, R242, R243) -/

/-- The dictionary `d` defines what the codewords read so far have defined. -/
structure Decoded.Holds (p : Decoded) (d : Dict) : Prop where
  next_eq : d.next = p.next
  string_eq : ∀ c, d.string c = p.string c

theorem Decoded.R_lt_next (p : Decoded) : Config.R < p.next := Nat.lt_of_lt_of_le (Nat.lt_succ_self _) (Nat.le_add_right _ _)

theorem getElem?_concat_of_ne {α : Type} (l : List α) (x : α) {i : Nat} (h : i ≠ l.length) :
    (l ++ [x])[i]? = l[i]? := by
  rcases Nat.lt_or_gt_of_ne h with hlt | hgt
  · exact List.getElem?_append_left hlt
  · rw [List.getElem?_eq_none hgt.le, List.getElem?_eq_none (by simpa using hgt)]

/-- The strings after one more codeword where there is room: the inserted string for the new codeword, else as before. -/
theorem Decoded.string_take {p : Decoded} {cap : Nat} (h : p.next < cap) (str : List Byte) (c : Nat) :
    (p.take cap str).string c = if c = p.next then some (p.prev ++ str.take 1) else p.string c := by
  have htable : (p.take cap str).table = p.table ++ [p.prev ++ str.take 1] := if_pos h
  unfold Decoded.string
  rw [htable]
  by_cases hc : c = p.next
  · have hR := p.R_lt_next
    have hidx : c - (Config.R + 1) = p.table.length := by rw [hc, Decoded.next, Nat.add_sub_cancel_left]
    rw [if_pos hc, if_neg (by omega), if_pos (by omega), hidx, List.getElem?_concat_length]
  · rw [if_neg hc]
    by_cases hR : Config.R < c
    · have hidx : c - (Config.R + 1) ≠ p.table.length := by rw [Decoded.next] at hc; omega
      rw [getElem?_concat_of_ne _ _ hidx]
    · rw [if_neg hR, if_neg hR]

/-- Before the second codeword the seeded dictionary is the decoder's. -/
theorem Decoded.holds_seeded {p : Decoded} (h : p.table = []) : p.Holds Dict.seeded where
  next_eq := by rw [Decoded.next, h]; rfl
  string_eq c := by
    rw [Dict.seeded_string, Decoded.string, h]
    simp

/-- Insertion on both sides (42_lzw.md R243). -/
theorem Decoded.Holds.take {p : Decoded} {d : Dict} (h : p.Holds d) (cap : Nat) (str : List Byte) :
    (p.take cap str).Holds (d.insert cap (p.prev ++ str.take 1)) := by
  have hnext := h.next_eq
  by_cases hroom : p.next < cap
  · refine ⟨?_, fun c => ?_⟩
    · rw [Dict.next_insert_of_lt (by omega), Decoded.next_take, if_pos hroom, hnext]
    · rw [Dict.string_insert (by rw [hnext]; exact p.R_lt_next) (by omega), Decoded.string_take hroom, hnext, h.string_eq]
  · have htable : (p.take cap str).table = p.table := if_neg hroom
    rw [Dict.insert_of_full (by omega)]
    refine ⟨?_, fun c => ?_⟩
    · rw [Decoded.next_take, if_neg hroom, hnext]
    · rw [h.string_eq, Decoded.string, Decoded.string, htable]

/-- `resolve(c)` (42_lzw.md R242) answers the string the codeword resolves to. -/
theorem Decoded.Holds.resolve {p : Decoded} {d : Dict} (h : p.Holds d) {c : Nat} {str : List Byte} (hc : p.Resolves c str) :
    d.resolve p.prev c = some str := by
  unfold Dict.resolve
  rw [h.next_eq]
  rcases hc with ⟨hlt, hstring⟩ | ⟨heq, rfl⟩
  · rw [if_pos hlt, h.string_eq, hstring]
  · rw [if_neg (Nat.not_lt.2 heq.ge), if_pos heq]

theorem Decoded.Holds.resolve_above {p : Decoded} {d : Dict} (h : p.Holds d) {c : Nat} (hc : p.next < c) :
    d.resolve p.prev c = none := by
  unfold Dict.resolve
  rw [h.next_eq, if_neg (Nat.not_lt.2 hc.le), if_neg hc.ne']

/-! ### One round of the decoder (42_lzw.md R239) -/

theorem Reader.rest_skip_of_rest {r : Reader} {v w : Nat} {more : List Bool} (h : r.rest = natBits v w ++ more) :
    (r.skip w).rest = more := by
  rw [Reader.rest_skip, h, List.drop_left' (natBits_length _ _)]

section Round

variable {width cap fuel : Nat} {d : Dict} {prev : List Byte} {r : Reader} {w : Writer}

/-- The terminator ends decoding, whatever bits follow (42_lzw.md R241). -/
theorem lzwDecodeLoop_of_terminator {more : List Bool} (hwidth : Config.R < 2 ^ width)
    (h : r.rest = natBits Config.R width ++ more) : lzwDecodeLoop width cap (fuel + 1) d prev r w = .ok w := by
  rw [lzwDecodeLoop, Reader.readBits_of_rest h, Nat.mod_eq_of_lt hwidth]
  rfl

/-- A codeword that resolves: its string is written and the loop goes on (42_lzw.md R242, R243). -/
theorem lzwDecodeLoop_of_resolve {c : Nat} {str : List Byte} {more : List Bool} (hc : c < 2 ^ width) (hR : c ≠ Config.R)
    (hresolve : d.resolve prev c = some str) (h : r.rest = natBits c width ++ more) :
    lzwDecodeLoop width cap (fuel + 1) d prev r w =
      w.writeCode (mediumBits str) >>= fun w =>
        lzwDecodeLoop width cap fuel (d.insert cap (prev ++ str.take 1)) str (r.skip width) w := by
  rw [lzwDecodeLoop, Reader.readBits_of_rest h, Nat.mod_eq_of_lt hc, ← Writer.writeString_eq]
  simp only [bind, Except.bind, if_neg hR, hresolve]

/-- A codeword that does not resolve faults at the bit after it (42_lzw.md R242). -/
theorem lzwDecodeLoop_of_bad {c : Nat} {more : List Bool} (hc : c < 2 ^ width) (hR : c ≠ Config.R)
    (hresolve : d.resolve prev c = none) (h : r.rest = natBits c width ++ more) :
    lzwDecodeLoop width cap (fuel + 1) d prev r w = .error ⟨.badCodeword, r.pos + width⟩ := by
  rw [lzwDecodeLoop, Reader.readBits_of_rest h, Nat.mod_eq_of_lt hc]
  simp only [bind, Except.bind, if_neg hR, hresolve, Reader.skip_pos]

/-- A codeword cut short faults where it starts (42_lzw.md R244). -/
theorem lzwDecodeLoop_of_short (h : r.rest.length < width) :
    lzwDecodeLoop width cap (fuel + 1) d prev r w = .error ⟨.eos, r.pos⟩ := by
  rw [lzwDecodeLoop, Reader.readBits_of_short h]
  rfl

end Round

/-! ### The first codeword (42_lzw.md R240) -/

theorem lzwDecode_of_terminator {p : Params} (hp : p.Legal) {medium : List Byte} {more : List Bool}
    (h : mediumBits medium = natBits Config.R p.W ++ more) : lzwDecode p medium = .ok [] := by
  have hR : Config.R < 2 ^ p.W := Nat.lt_of_succ_lt (Params.R_lt_L hp)
  rw [lzwDecode, Reader.readBits_of_rest (r := Reader.opened medium) h, Nat.mod_eq_of_lt hR]
  rfl

theorem lzwDecode_of_above_R {p : Params} {medium : List Byte} {c : Nat} {more : List Bool} (hR : Config.R < c)
    (hc : c < 2 ^ p.W) (h : mediumBits medium = natBits c p.W ++ more) :
    lzwDecode p medium = .error ⟨.badCodeword, p.W⟩ := by
  rw [lzwDecode, Reader.readBits_of_rest (r := Reader.opened medium) h, Nat.mod_eq_of_lt hc]
  simp only [bind, Except.bind, if_neg hR.ne', if_pos hR, Reader.skip_pos]
  rw [Reader.opened, Nat.zero_add]

theorem lzwDecode_of_short {p : Params} {medium : List Byte} (h : 8 * medium.length < p.W) :
    lzwDecode p medium = .error ⟨.eos, 0⟩ := by
  rw [lzwDecode, Reader.readBits_of_short (r := Reader.opened medium) (by rwa [Reader.opened_rest, mediumBits_length])]
  rfl

/-! ### After codewords that decode one after the other (42_lzw.md R239 to R244) -/

/-- LZW_DEC with `out` written and the loop about to read at `pos`. -/
def lzwDecodeFrom (p : Params) (medium : List Byte) (pos fuel : Nat) (dict : Dict) (prev out : List Byte) :
    Except CmdFault (List Byte) := do
  let w ← (Writer.opened p.bufCap).writeCode (mediumBits out)
  let w ← lzwDecodeLoop p.W p.L fuel dict prev ((Reader.opened medium).skip pos) w
  w.finish

theorem lzwDecode_of_lt_R {p : Params} {medium : List Byte} {c : Nat} {more : List Bool} (hR : c < Config.R)
    (hc : c < 2 ^ p.W) (h : mediumBits medium = natBits c p.W ++ more) :
    lzwDecode p medium =
      lzwDecodeFrom p medium p.W (more.length + 1) Dict.seeded [BitVec.ofNat 8 c] [BitVec.ofNat 8 c] := by
  have hleft : ((Reader.opened medium).skip p.W).bitsLeft = more.length := by
    rw [Reader.bitsLeft_eq, Reader.rest_skip_of_rest (r := Reader.opened medium) h]
  rw [lzwDecode, Reader.readBits_of_rest (r := Reader.opened medium) h, Nat.mod_eq_of_lt hc]
  simp only [bind, Except.bind, if_neg hR.ne, if_neg hR.not_gt, Writer.writeString_eq, hleft]
  rfl

/-- A codeword that resolves goes on with its string written (42_lzw.md R242, R243). -/
theorem lzwDecodeFrom_of_resolve {p : Params} {medium : List Byte} {pos fuel c : Nat} {dict : Dict} {prev str : List Byte}
    {more : List Bool} (hc : c < 2 ^ p.W) (hR : c ≠ Config.R) (hresolve : dict.resolve prev c = some str)
    (h : ((Reader.opened medium).skip pos).rest = natBits c p.W ++ more) (out : List Byte) :
    lzwDecodeFrom p medium pos (fuel + 1) dict prev out =
      lzwDecodeFrom p medium (pos + p.W) fuel (dict.insert p.L (prev ++ str.take 1)) str (out ++ str) := by
  unfold lzwDecodeFrom
  simp only [lzwDecodeLoop_of_resolve hc hR hresolve h, mediumBits_append, Writer.writeCode_append, Reader.skip_skip]
  cases (Writer.opened p.bufCap).writeCode (mediumBits out) with
  | error f => rfl
  | ok w => exact bind_assoc (m := Except CmdFault) _ _ _

theorem lzwDecodeFrom_of_terminator {p : Params} (hp : p.Legal) {medium : List Byte} {pos : Nat} {more : List Bool}
    (h : ((Reader.opened medium).skip pos).rest = natBits Config.R p.W ++ more) (fuel : Nat) (dict : Dict)
    (prev out : List Byte) :
    lzwDecodeFrom p medium pos (fuel + 1) dict prev out =
      if out.length ≤ p.bufCap then .ok out else .error ⟨.outOverflow, 0⟩ := by
  unfold lzwDecodeFrom
  simp only [lzwDecodeLoop_of_terminator (Nat.lt_of_succ_lt (Params.R_lt_L hp)) h]
  exact Writer.run_bytes p.bufCap out

/-- What was written already does not fit (42_lzw.md R245). -/
theorem lzwDecodeFrom_of_overflow {p : Params} {out : List Byte} (h : p.bufCap < out.length) (medium : List Byte)
    (pos fuel : Nat) (dict : Dict) (prev : List Byte) :
    lzwDecodeFrom p medium pos fuel dict prev out = .error ⟨.outOverflow, 0⟩ := by
  rcases Writer.writeCode_spec (Writer.opened_ok p.bufCap) (mediumBits out) with ⟨hfits, -⟩ | ⟨-, hover⟩
  · simp at hfits
    omega
  · rw [lzwDecodeFrom, hover]
    rfl

/-- What was written already fits, and the next codeword faults. -/
theorem lzwDecodeFrom_of_error {p : Params} {medium : List Byte} {pos fuel : Nat} {dict : Dict} {prev out : List Byte}
    {f : CmdFault} (hfits : out.length ≤ p.bufCap)
    (h : ∀ w, lzwDecodeLoop p.W p.L fuel dict prev ((Reader.opened medium).skip pos) w = .error f) :
    lzwDecodeFrom p medium pos fuel dict prev out = .error f := by
  rcases Writer.writeCode_spec (Writer.opened_ok p.bufCap) (mediumBits out) with ⟨-, w, hw, -⟩ | ⟨hover, -⟩
  · simp only [lzwDecodeFrom, hw, bind, Except.bind, h]
  · simp at hover
    omega

theorem codewordBits_length (w : Nat) (cs : List Nat) : (codewordBits w cs).length = w * cs.length := by
  simp [codewordBits, Nat.mul_comm]

theorem skip_codewords_rest {medium : List Byte} {w : Nat} {cs : List Nat} {more : List Bool}
    (h : mediumBits medium = codewordBits w cs ++ more) : ((Reader.opened medium).skip (w * cs.length)).rest = more := by
  rw [Reader.rest_skip, Reader.opened_rest, h, List.drop_left' (codewordBits_length w cs)]

section DecodesTo

variable {p : Params} (hp : p.Legal) {medium : List Byte} {cs : List Nat} {d : Decoded} (hd : DecodesTo p.L cs d)
  (hcs : ∀ c ∈ cs, c < 2 ^ p.W) {more : List Bool}

include hp hd hcs

/-- After the codewords LZW_DEC has their strings written, a dictionary that defines what they define, and a round left for
every bit that follows (log 16). -/
theorem lzwDecode_of_decodesTo (h : mediumBits medium = codewordBits p.W cs ++ more) :
    ∃ fuel dict, more.length ≤ fuel ∧ d.Holds dict ∧
      lzwDecode p medium = lzwDecodeFrom p medium (p.W * cs.length) (fuel + 1) dict d.prev d.out := by
  induction hd generalizing more with
  | @first c hc =>
    rw [codewordBits_singleton] at h
    rw [List.length_singleton, Nat.mul_one]
    exact ⟨more.length, Dict.seeded, Nat.le_refl _, Decoded.holds_seeded rfl,
      lzwDecode_of_lt_R hc (hcs c (List.mem_singleton_self c)) h⟩
  | @later cs d c str hbefore hresolves ih =>
    obtain ⟨hbefore_lt, hc⟩ := List.forall_mem_append.1 hcs
    rw [codewordBits_append, codewordBits_singleton, List.append_assoc] at h
    obtain ⟨fuel, dict, hfuel, hholds, hdecode⟩ := ih hbefore_lt h
    have hR : c ≠ Config.R := by
      rintro rfl
      exact d.not_resolves_R str hresolves
    obtain ⟨hW, -⟩ := hp
    rw [List.length_append, natBits_length] at hfuel
    obtain ⟨fuel, rfl⟩ := Nat.exists_eq_add_one.2 (show 0 < fuel by omega)
    refine ⟨fuel, _, by omega, hholds.take p.L str, ?_⟩
    rw [hdecode, List.length_append, List.length_singleton, Nat.mul_succ]
    exact lzwDecodeFrom_of_resolve (hc c (List.mem_singleton_self c)) hR (hholds.resolve hresolves)
      (skip_codewords_rest h) d.out

/-- The codewords and the terminator: their strings are the output, where they fit. -/
theorem lzwDecode_of_decodesTo_terminator (h : mediumBits medium = codewordBits p.W cs ++ (natBits Config.R p.W ++ more)) :
    lzwDecode p medium = if d.out.length ≤ p.bufCap then .ok d.out else .error ⟨.outOverflow, 0⟩ := by
  obtain ⟨fuel, dict, -, -, hdecode⟩ := lzwDecode_of_decodesTo hp hd hcs h
  rw [hdecode, lzwDecodeFrom_of_terminator hp (skip_codewords_rest h)]

theorem lzwDecode_of_decodesTo_overflow (h : mediumBits medium = codewordBits p.W cs ++ more)
    (hover : p.bufCap < d.out.length) :
    lzwDecode p medium = .error ⟨.outOverflow, 0⟩ := by
  obtain ⟨fuel, dict, -, -, hdecode⟩ := lzwDecode_of_decodesTo hp hd hcs h
  rw [hdecode, lzwDecodeFrom_of_overflow hover]

theorem lzwDecode_of_decodesTo_bad (hfits : d.out.length ≤ p.bufCap) {c : Nat} (habove : d.next < c) (hc : c < 2 ^ p.W)
    (h : mediumBits medium = codewordBits p.W cs ++ (natBits c p.W ++ more)) :
    lzwDecode p medium = .error ⟨.badCodeword, p.W * (cs.length + 1)⟩ := by
  obtain ⟨fuel, dict, -, hholds, hdecode⟩ := lzwDecode_of_decodesTo hp hd hcs h
  have hR : c ≠ Config.R := (Nat.lt_trans d.R_lt_next habove).ne'
  have hfaults := fun w => lzwDecodeLoop_of_bad (cap := p.L) (fuel := fuel) (w := w) hc hR (hholds.resolve_above habove)
    (skip_codewords_rest h)
  rw [hdecode, lzwDecodeFrom_of_error hfits hfaults, Reader.skip_pos, Nat.mul_succ, Reader.opened, Nat.zero_add]

theorem lzwDecode_of_decodesTo_short (hfits : d.out.length ≤ p.bufCap) (hshort : more.length < p.W)
    (h : mediumBits medium = codewordBits p.W cs ++ more) :
    lzwDecode p medium = .error ⟨.eos, p.W * cs.length⟩ := by
  obtain ⟨fuel, dict, -, -, hdecode⟩ := lzwDecode_of_decodesTo hp hd hcs h
  have hrest : ((Reader.opened medium).skip (p.W * cs.length)).rest.length < p.W := by rwa [skip_codewords_rest h]
  have hfaults := fun w => lzwDecodeLoop_of_short (cap := p.L) (fuel := fuel) (d := dict) (prev := d.prev) (w := w) hrest
  rw [hdecode, lzwDecodeFrom_of_error hfits hfaults, Reader.skip_pos, Reader.opened, Nat.zero_add]

end DecodesTo

/-! ### LZW_DEC as a command (30_encoding.md R110, 60_exceptions.md R313) -/

theorem lzwDecode_length_le {p : Params} {medium out : List Byte} (h : lzwDecode p medium = .ok out) :
    out.length ≤ p.bufCap :=
  (lzwDecode_answers p medium).of_ok h

theorem State.admits_lzwDec {s : State} {src dst : BufId} (hne : src ≠ dst)
    (hlen : (s.len src).toNat ≤ s.cfg.bufCap) : s.admits (.lzwDec src dst) = true :=
  (s.admits_iff _).2 ⟨decide_eq_true hne, hlen, nofun⟩

theorem exec_lzwDec_completes {s : State} {src dst : BufId} (hp : s.cfg.Legal) (hne : src ≠ dst)
    (hlen : (s.len src).toNat ≤ s.cfg.bufCap) {out : List Byte} (hout : lzwDecode s.cfg (s.input src) = .ok out) :
    ∃ u, exec (.lzwDec src dst) s = .next u ∧ CompletesWith s u dst out := by
  rw [exec_lzwDec, State.runCommand_ok (State.admits_lzwDec hne hlen) hout]
  exact ⟨_, rfl, State.completeBuffer_completesWith_of_legal hp dst (lzwDecode_length_le hout)⟩

theorem exec_lzwDec_faults {s : State} {src dst : BufId} (hne : src ≠ dst) (hlen : (s.len src).toNat ≤ s.cfg.bufCap)
    {f : CmdFault} (hfault : lzwDecode s.cfg (s.input src) = .error f) :
    ∃ u, exec (.lzwDec src dst) s = .next u ∧ FaultsBuffer s u dst f := by
  rw [exec_lzwDec, State.runCommand_error (State.admits_lzwDec hne hlen) hfault]
  exact ⟨_, rfl, s.takeFault_faultsBuffer dst f⟩

/-- Settles O49. -/
theorem lzwDecFirstCodeword : Obligations.LzwDecFirstCodeword := by
  unfold Obligations.LzwDecFirstCodeword
  intro s src dst hp hne hlen
  refine ⟨fun more hbits => ?_, fun c more hR hc hbits => ?_, fun hshort => ?_⟩
  · exact exec_lzwDec_completes hp hne hlen (lzwDecode_of_terminator hp hbits)
  · exact exec_lzwDec_faults hne hlen (lzwDecode_of_above_R hR hc hbits)
  · exact exec_lzwDec_faults hne hlen (lzwDecode_of_short (by rwa [State.input_length]))

/-- Settles O50. -/
theorem lzwDecAfterAnyPrefix : Obligations.LzwDecAfterAnyPrefix := by
  unfold Obligations.LzwDecAfterAnyPrefix
  intro s src dst cs d more hp hne hlen hcs hd hfits hbits
  have hlater : ∀ c, c < 2 ^ s.cfg.W → ∀ x ∈ cs ++ [c], x < 2 ^ s.cfg.W := fun c hc =>
    List.forall_mem_append.2 ⟨hcs, List.forall_mem_singleton.2 hc⟩
  have hlater_bits : ∀ c rest, more = natBits c s.cfg.W ++ rest →
      mediumBits (s.input src) = codewordBits s.cfg.W (cs ++ [c]) ++ rest := by
    rintro c rest rfl
    rw [hbits, codewordBits_append, codewordBits_singleton, List.append_assoc]
  refine ⟨fun rest hmore => ?_, fun c str rest hc hresolves hmore hroom => ?_,
    fun c str rest hc hresolves hmore hover => ?_, fun c rest habove hc hmore => ?_, fun hshort => ?_⟩
  · exact exec_lzwDec_completes hp hne hlen
      ((lzwDecode_of_decodesTo_terminator hp hd hcs (hmore ▸ hbits)).trans (if_pos hfits))
  · exact exec_lzwDec_completes hp hne hlen
      ((lzwDecode_of_decodesTo_terminator hp (hd.later hresolves) (hlater c hc) (hlater_bits c _ hmore)).trans (if_pos hroom))
  · exact exec_lzwDec_faults hne hlen
      (lzwDecode_of_decodesTo_overflow hp (hd.later hresolves) (hlater c hc) (hlater_bits c rest hmore) hover)
  · exact exec_lzwDec_faults hne hlen (lzwDecode_of_decodesTo_bad hp hd hcs hfits habove hc (hmore ▸ hbits))
  · exact exec_lzwDec_faults hne hlen (lzwDecode_of_decodesTo_short hp hd hcs hfits hshort hbits)

end Sys2Proof.Machine
end

section
/-! SUPPORT. LZW_ENC and LZW_DEC together (42_lzw.md R246, R247): the codewords of a message decode to the message, and the
round trip. -/

namespace Sys2Proof.Machine

/-! ### The two dictionaries in lock-step (42_lzw.md R246) -/

/-- A codeword LZW_ENC emits resolves in LZW_DEC, which is one insertion behind: it holds `e`, and the encoder has
inserted the previous match and the first byte of this one. -/
theorem Decoded.Holds.resolves_codeOf {p : Decoded} {e : Dict} {cap : Nat} (h : p.Holds e) (he : e.Sound cap)
    (hprev : p.prev ≠ []) {m : List Byte} (hhas : (e.insert cap (p.prev ++ m.take 1)).has m = true) :
    p.Resolves ((e.insert cap (p.prev ++ m.take 1)).codeOf m) m := by
  have hstring := (he.insert _).string_codeOf hhas
  rcases Dict.string_insert_cases he.ok.next_ge hstring with ⟨hc, hm⟩ | hold
  · have hfirst : m.take 1 = p.prev.take 1 := by
      conv_lhs => rw [← hm, List.take_append_of_le_length (List.length_pos_iff.2 hprev)]
    exact .inr ⟨hc.trans h.next_eq, by rw [← hfirst, hm]⟩
  · exact .inl ⟨h.next_eq ▸ (he.ok.of_string hold).1, h.string_eq _ ▸ hold⟩

/-- The rest of the encoder's codewords go on decoding to the rest of the message. -/
theorem lzwCodewords_decodesTo {cap : Nat} (fuel : Nat) {cs : List Nat} {p : Decoded} {e : Dict} (hp : DecodesTo cap cs p)
    (h : p.Holds e) (he : e.Sound cap) {rest : List Byte} (hfuel : rest.length ≤ fuel) :
    ∃ q, DecodesTo cap (cs ++ lzwCodewords cap fuel (e.insert cap (p.prev ++ rest.take 1)) rest) q ∧
      q.out = p.out ++ rest := by
  induction fuel generalizing cs p e rest with
  | zero =>
    rw [List.length_eq_zero_iff.1 (Nat.le_zero.1 hfuel), lzwCodewords_nil, List.append_nil, List.append_nil]
    exact ⟨p, hp, rfl⟩
  | succ fuel ih =>
    by_cases hnil : rest = []
    · rw [hnil, lzwCodewords_nil, List.append_nil, List.append_nil]
      exact ⟨p, hp, rfl⟩
    · obtain ⟨m, rem, rfl, hm, hhas, hround⟩ :=
        lzwCodewords_round cap fuel (e.insert cap (p.prev ++ rest.take 1)) hnil
      have hmlen := List.length_pos_iff.2 hm
      rw [List.take_append_of_le_length hmlen] at hhas hround ⊢
      have hresolves := h.resolves_codeOf he hp.prev_ne_nil hhas
      have hrem : rem.length ≤ fuel := by rw [List.length_append] at hfuel; omega
      obtain ⟨q, hq, hout⟩ := ih (hp.later hresolves) (h.take cap m) (he.insert _) hrem
      exact ⟨q, by rwa [hround, List.append_cons], by rw [hout, ← List.append_assoc]; rfl⟩

/-- The codewords of a message decode to the message. -/
theorem exists_decodesTo_lzwCodewords {cap : Nat} (hcap : Config.R + 1 ≤ cap) {message : List Byte} (h : message ≠ []) :
    ∃ q, DecodesTo cap (lzwCodewords cap message.length Dict.seeded message) q ∧ q.out = message := by
  obtain ⟨fuel, hfuel⟩ := Nat.exists_eq_add_one.2 (List.length_pos_iff.2 h)
  obtain ⟨m, rem, rfl, -, hhas, hround⟩ := lzwCodewords_round cap fuel Dict.seeded h
  obtain ⟨b, rfl⟩ : ∃ b, m = [b] :=
    List.length_eq_one_iff.1 (by simpa [Dict.has, Dict.codeword, Dict.seeded] using hhas)
  have hbyte : BitVec.ofNat 8 b.toNat = b := by rw [BitVec.ofNat_toNat, BitVec.setWidth_eq]
  have hrem : rem.length ≤ fuel := by rw [List.length_append, List.length_singleton] at hfuel; omega
  obtain ⟨q, hq, hout⟩ := lzwCodewords_decodesTo fuel (.first (cap := cap) b.isLt) (Decoded.holds_seeded rfl)
    (Dict.seeded_sound hcap) hrem
  rw [hbyte] at hq hout
  exact ⟨q, by rwa [hfuel, hround], hout⟩

/-! ### The stream of a message and the round trip (42_lzw.md R247) -/

theorem lzwDecode_of_stream {p : Params} (hp : p.Legal) {medium message : List Byte} {more : List Bool}
    (h : mediumBits medium = codewordBits p.W (lzwStream p message) ++ more) :
    lzwDecode p medium = if message.length ≤ p.bufCap then .ok message else .error ⟨.outOverflow, 0⟩ := by
  rw [lzwStream, codewordBits_append, codewordBits_singleton, List.append_assoc] at h
  by_cases hnil : message = []
  · subst hnil
    rw [lzwCodewords_nil] at h
    exact (lzwDecode_of_terminator hp h).trans (if_pos (Nat.zero_le _)).symm
  · have hcap := (Params.R_lt_L hp).le
    obtain ⟨d, hd, hout⟩ := exists_decodesTo_lzwCodewords hcap hnil
    have hrange := fun c hc => (lzwCodewords_in_range message.length (Dict.seeded_sound hcap) message c hc).1
    rw [lzwDecode_of_decodesTo_terminator hp hd hrange h, hout]

/-- Settles O48. -/
theorem lzwDecReadsTheStream : Obligations.LzwDecReadsTheStream := by
  unfold Obligations.LzwDecReadsTheStream
  intro s src dst message more hp hne hlen hbits
  have hdecode := lzwDecode_of_stream hp hbits
  exact ⟨fun hfits => exec_lzwDec_completes hp hne hlen (hdecode.trans (if_pos hfits)),
    fun hover => exec_lzwDec_faults hne hlen (hdecode.trans (if_neg (Nat.not_le.2 hover)))⟩

/-- LZW_DEC of the stream LZW_ENC wrote. -/
theorem lzwDecode_lzwEncode {p : Params} (hp : p.Legal) {input out : List Byte} (hinput : input.length ≤ p.bufCap)
    (h : lzwEncode p input = .ok out) : lzwDecode p out = .ok input := by
  rw [lzwEncode_eq] at h
  split at h
  · cases h
    rw [lzwDecode_of_stream hp (mediumBits_packBits _), if_pos hinput]
  · cases h

/-- Settles O51. -/
theorem lzwRoundTrip : Obligations.LzwRoundTrip := by
  unfold Obligations.LzwRoundTrip
  intro s t src dst hp hne hexec hdone
  cases (exec_lzwEnc src dst s).symm.trans hexec
  obtain ⟨hadmits, out, hout, ht⟩ := State.runCommand_done hdone
  obtain ⟨-, hlen, -⟩ := (s.admits_iff _).1 hadmits
  have hfit := lzwEncode_length_le hout
  have hcompletes := State.completeBuffer_completesWith_of_legal hp dst hfit
  rw [ht]
  have hcfg := hcompletes.outside.cfg
  have hdecode : lzwDecode (s.completeBuffer dst out).cfg ((s.completeBuffer dst out).input dst) = .ok (s.input src) := by
    rw [hcompletes.input, hcfg]
    exact lzwDecode_lzwEncode hp (by rwa [State.input_length]) hout
  exact exec_lzwDec_completes (hcfg ▸ hp) hne.symm (by rwa [hcompletes.len, hcfg]) hdecode

end Sys2Proof.Machine
end

section
/-! SUPPORT. ARC_FRAME and ARC_UNFRAME as commands: what they leave, by what their pseudocode answers (30_encoding.md R110,
60_exceptions.md R313), and the statements about ARC_FRAME (43_archive.md R271 to R276). -/

namespace Sys2Proof.Machine

/-! ### An archive command by the answer of its pseudocode -/

theorem arcFrame_length_le {cap : Nat} {medium out : List Byte} {ds : List Descriptor}
    (h : arcFrame cap medium ds = .ok out) : out.length ≤ cap :=
  (arcFrame_answers cap medium ds).of_ok h

theorem State.admits_arcFrame {s : State} {src dst : BufId} (hne : src ≠ dst)
    (hlen : (s.len src).toNat ≤ s.cfg.bufCap) (hcount : s.recCount.toNat ≤ s.cfg.recCap) :
    s.admits (.arcFrame src dst) = true :=
  (s.admits_iff _).2 ⟨decide_eq_true hne, hlen, fun _ => hcount⟩

theorem State.admits_arcUnframe {s : State} {src : BufId} (hlen : (s.len src).toNat ≤ s.cfg.bufCap) :
    s.admits (.arcUnframe src) = true :=
  (s.admits_iff _).2 ⟨rfl, hlen, nofun⟩

theorem exec_arcFrame_completes {s : State} {src dst : BufId} (hp : s.cfg.Legal) (hne : src ≠ dst)
    (hlen : (s.len src).toNat ≤ s.cfg.bufCap) (hcount : s.recCount.toNat ≤ s.cfg.recCap) {out : List Byte}
    (hout : arcFrame s.cfg.bufCap (s.input src) s.descriptors = .ok out) :
    ∃ t, exec (.arcFrame src dst) s = .next t ∧ CompletesWith s t dst out := by
  rw [exec_arcFrame, State.runCommand_ok (State.admits_arcFrame hne hlen hcount) hout]
  exact ⟨_, rfl, State.completeBuffer_completesWith_of_legal hp dst (arcFrame_length_le hout)⟩

theorem exec_arcFrame_faults {s : State} {src dst : BufId} (hne : src ≠ dst) (hlen : (s.len src).toNat ≤ s.cfg.bufCap)
    (hcount : s.recCount.toNat ≤ s.cfg.recCap) {f : CmdFault}
    (hfault : arcFrame s.cfg.bufCap (s.input src) s.descriptors = .error f) :
    ∃ t, exec (.arcFrame src dst) s = .next t ∧ FaultsBuffer s t dst f := by
  rw [exec_arcFrame, State.runCommand_error (State.admits_arcFrame hne hlen hcount) hfault]
  exact ⟨_, rfl, s.takeFault_faultsBuffer dst f⟩

/-- The descriptors of a completed ARC_UNFRAME name bytes of its source, so they fit the words of REC. -/
theorem exec_arcUnframe_completes {s : State} {src : BufId} (hp : s.cfg.Legal)
    (hlen : (s.len src).toNat ≤ s.cfg.bufCap) {ds : List Descriptor}
    (hds : arcUnframe s.cfg (s.input src) = .ok ds) :
    ∃ t, exec (.arcUnframe src) s = .next t ∧ CompletesWithRecords s t ds := by
  obtain ⟨-, -, -, hbuf, -, hrec⟩ := hp
  obtain ⟨hroom, hinside⟩ := (arcUnframe_answers s.cfg (s.input src)).of_ok hds
  rw [State.input_length] at hinside
  rw [exec_arcUnframe, State.runCommand_ok (State.admits_arcUnframe hlen) hds]
  exact ⟨_, rfl, s.completeRecords_completesWith (by omega) fun d hd => .of_inMedium (hinside d hd) (by omega)⟩

theorem exec_arcUnframe_faults {s : State} {src : BufId} (hlen : (s.len src).toNat ≤ s.cfg.bufCap) {f : CmdFault}
    (hfault : arcUnframe s.cfg (s.input src) = .error f) :
    ∃ t, exec (.arcUnframe src) s = .next t ∧ FaultsRecords s t f := by
  rw [exec_arcUnframe, State.runCommand_error (State.admits_arcUnframe hlen) hfault]
  exact ⟨_, rfl, s.takeFault_faultsRecords f⟩

/-! ### The descriptor check (43_archive.md R272) -/

theorem Descriptor.inMedium_iff {n : Nat} {d : Descriptor} :
    d.inMedium n = true ↔ d.nameOff + d.nameLen ≤ n ∧ d.contentOff + d.contentLen ≤ n := by
  simp [Descriptor.inMedium]

/-- The first descriptor outside the medium is the one the check finds. -/
theorem firstBad_eq_some {n i j : Nat} {ds : List Descriptor} (hj : j < ds.length)
    (hbefore : ∀ k (hk : k < j), ds[k].inMedium n = true) (hbad : ds[j].inMedium n = false) :
    firstBad n i ds = some (i + j) := by
  induction ds generalizing i j with
  | nil => cases hj
  | cons d rest ih =>
    rw [firstBad]
    cases j with
    | zero => rw [List.getElem_cons_zero] at hbad; simp [hbad]
    | succ j =>
      have hd : d.inMedium n = true := hbefore 0 (Nat.succ_pos j)
      rw [if_pos hd, ih (Nat.lt_of_succ_lt_succ hj) (fun k hk => hbefore (k + 1) (Nat.succ_lt_succ hk)) hbad]
      congr 1
      omega

theorem arcFrame_of_firstBad {cap i : Nat} {medium : List Byte} {ds : List Descriptor}
    (h : firstBad medium.length 0 ds = some i) : arcFrame cap medium ds = .error ⟨.badRecord, i⟩ := by
  rw [arcFrame, h]

theorem State.descriptors_getElem (s : State) {i : Nat} (h : i < s.descriptors.length) :
    s.descriptors[i] = s.recs.readDesc i := by
  simp [State.descriptors]

/-! ### The statements about ARC_FRAME -/

/-- Settles O52. -/
theorem arcFrameWritesTheRecords : Obligations.ArcFrameWritesTheRecords := by
  unfold Obligations.ArcFrameWritesTheRecords
  intro s src dst hp hne hlen hcount hinside out
  have hframe := arcFrame_eq (cap := s.cfg.bufCap) (medium := s.input src) (ds := s.descriptors) fun d hd =>
    Descriptor.inMedium_iff.2 (by rw [State.input_length]; exact hinside d hd)
  exact ⟨fun hfits => exec_arcFrame_completes hp hne hlen hcount (hframe.trans (if_pos hfits)),
    fun hover => exec_arcFrame_faults hne hlen hcount (hframe.trans (if_neg (Nat.not_le.2 hover)))⟩

/-- Settles O53. -/
theorem arcFrameChecksDescriptorsFirst : Obligations.ArcFrameChecksDescriptorsFirst := by
  unfold Obligations.ArcFrameChecksDescriptorsFirst
  intro s src dst i hp hne hlen hcount hi hbefore hbad
  have hfirst : firstBad (s.input src).length 0 s.descriptors = some (0 + i) := by
    refine firstBad_eq_some (by rwa [State.descriptors_length]) (fun k hk => ?_) ?_
    · rw [State.descriptors_getElem, State.input_length]
      exact Descriptor.inMedium_iff.2 (hbefore k hk)
    · rw [State.descriptors_getElem, State.input_length, Bool.eq_false_iff, ne_eq, Descriptor.inMedium_iff]
      omega
  rw [Nat.zero_add] at hfirst
  exact exec_arcFrame_faults hne hlen hcount (arcFrame_of_firstBad hfirst)

end Sys2Proof.Machine
end

section
/-! SUPPORT. What ARC_UNFRAME makes of a stream that begins with whole records (43_archive.md R277 to R283): each field is
one read, a record is its seven fields, and the loop takes the records one by one. -/

namespace Sys2Proof.Machine

/-! ### One field, one read (40_bitstream.md R137) -/

/-- `read` takes exactly the `w` bits `bits`, answering `out` of the reader after them; where fewer than `w` bits are left
it faults EOS at its start. -/
structure ReadsField {β : Type} (read : Reader → Except CmdFault β) (w : Nat) (bits : List Bool) (out : Reader → β) :
    Prop where
  width : bits.length = w
  whole : ∀ {r : Reader} {more : List Bool}, r.rest = bits ++ more → read r = .ok (out (r.skip w))
  short : ∀ {r : Reader}, r.rest.length < w → read r = .error ⟨.eos, r.pos⟩

section Field

variable {β γ : Type} {read : Reader → Except CmdFault β} {w : Nat} {bits more : List Bool} {out : Reader → β} {r : Reader}

theorem ReadsField.rest (h : ReadsField read w bits out) (hr : r.rest = bits ++ more) : (r.skip w).rest = more := by
  rw [Reader.rest_skip, hr, List.drop_left' h.width]

/-- A field that is there is passed. -/
theorem ReadsField.bind (h : ReadsField read w bits out) (hr : r.rest = bits ++ more) (k : β → Except CmdFault γ) :
    (read r >>= k) = k (out (r.skip w)) := by
  rw [h.whole hr]
  rfl

/-- Where the medium ends inside the fields due, it ends inside this one, whose read fails, or inside those after it. -/
theorem ReadsField.bind_cut (h : ReadsField read w bits out) {limit : Nat} (hr : r.CutIn limit (bits ++ more))
    {k : β → Except CmdFault γ} {ws : List Nat}
    (hk : (r.skip w).CutIn limit more → k (out (r.skip w)) = .error ⟨.eos, failingRead limit (r.pos + w) ws⟩) :
    (read r >>= k) = .error ⟨.eos, failingRead limit r.pos (w :: ws)⟩ := by
  rcases hr.append with hcut | ⟨rest, hrest, hfits, hcut⟩
  · have hshorter := hcut.shorter
    have hlimit := hcut.limit_lt
    rw [h.width] at hshorter hlimit
    rw [h.short hshorter, failingRead_stops hlimit]
    rfl
  · rw [h.width] at hfits hcut
    rw [h.bind hrest, hk hcut, failingRead_fits hfits]

end Field

theorem sint_of_nonneg {w v : Nat} (h : v < 2 ^ (w - 1)) : sint w v = v := if_pos h

theorem sint_of_neg {w v : Nat} (h : 2 ^ (w - 1) ≤ v) (h' : v < 2 ^ w) : sint w v < 0 := by
  rw [sint, if_neg (Nat.not_lt.2 h)]
  have : (v : Int) < 2 ^ w := by exact_mod_cast h'
  omega

theorem readLength_readsField {w v : Nat} (h : v < 2 ^ (w - 1)) :
    ReadsField (readLength w) w (natBits v w) (Prod.mk v) where
  width := natBits_length v w
  whole {r more} hr := by
    have hv : v < 2 ^ w := Nat.lt_of_lt_of_le h (Nat.pow_le_pow_right Nat.two_pos (Nat.sub_le w 1))
    rw [readLength, Reader.readBits_of_rest hr, Nat.mod_eq_of_lt hv]
    simp only [bind, Except.bind, sint_of_nonneg h, if_neg (Int.not_lt.2 (Int.natCast_nonneg v)), Int.toNat_natCast]
    rfl
  short {r} hr := by
    rw [readLength, Reader.readBits_of_short hr]
    rfl

/-- A negative length faults at the bit after the field (43_archive.md R280, R282). -/
theorem readLength_of_negative {w v : Nat} {r : Reader} {more : List Bool} (h : 2 ^ (w - 1) ≤ v) (h' : v < 2 ^ w)
    (hr : r.rest = natBits v w ++ more) : readLength w r = .error ⟨.badLength, r.pos + w⟩ := by
  rw [readLength, Reader.readBits_of_rest hr, Nat.mod_eq_of_lt h']
  exact if_pos (sint_of_neg h h')

theorem readSeparator_readsField {check : Bool} {b : Byte} (h : check = true → b = 0xFF) :
    ReadsField (readSeparator check) 8 (byteBits b) id where
  width := byteBits_length b
  whole {r more} hr := by
    have hpass : ¬ (check && decide (b ≠ 0xFF)) = true := by simpa using h
    rw [readSeparator, Reader.readChar_of_rest hr]
    exact if_neg hpass
  short {r} hr := by
    rw [readSeparator, Reader.readChar_of_short hr]
    rfl

/-- A separator that is checked and is not 0xFF faults at the bit after it (43_archive.md R281). -/
theorem readSeparator_of_bad {b : Byte} {r : Reader} {more : List Bool} (h : b ≠ 0xFF) (hr : r.rest = byteBits b ++ more) :
    readSeparator true r = .error ⟨.badSeparator, r.pos + 8⟩ := by
  rw [readSeparator, Reader.readChar_of_rest hr]
  exact if_pos (by simpa using h)

theorem readBytes_readsField (bytes : List Byte) :
    ReadsField (fun r => r.readBytes bytes.length) (8 * bytes.length) (mediumBits bytes) (Prod.mk bytes) where
  width := mediumBits_length bytes
  whole hr := Reader.readBytes_of_rest hr
  short {r} hr := by
    show r.readBytes bytes.length = _
    rw [Reader.readBytes, Reader.bitsLeft_eq, if_pos hr]

/-! ### One record (43_archive.md R277) -/

/-- The name and the content of a record, without its separators. -/
def Framed.payload (f : Framed) : List Byte × List Byte := (f.name, f.content)

/-- The descriptor of a record that starts at byte `off` (43_archive.md R283). -/
def Framed.descriptor (f : Framed) (off : Nat) : Descriptor :=
  ⟨off + 5, f.name.length, off + 15 + f.name.length, f.content.length⟩

theorem Framed.marked.first {f : Framed} (h : f.marked) : f.s1 = 0xFF := h.1

theorem Framed.marked.second {f : Framed} (h : f.marked) : f.s2 = 0xFF := h.2.1

theorem Framed.marked.third {f : Framed} (h : f.marked) : f.s3 = 0xFF := h.2.2

@[simp] theorem bigEndian_length (v w : Nat) : (bigEndian v w).length = w := by
  induction w with
  | zero => rfl
  | succ w ih => rw [bigEndian, List.length_cons, ih]

theorem Framed.bytes_length (f : Framed) : f.bytes.length = 15 + f.name.length + f.content.length := by
  simp only [Framed.bytes, recordWith, List.length_append, List.length_cons, bigEndian_length]
  omega

theorem framedBytes_cons (f : Framed) (records : List Framed) :
    framedBytes (f :: records) = f.bytes ++ framedBytes records := rfl

theorem archiveDescs_cons (off : Nat) (f : Framed) (records : List Framed) :
    archiveDescs off ((f :: records).map Framed.payload) =
      f.descriptor off :: archiveDescs (off + f.bytes.length) (records.map Framed.payload) := by
  rw [Framed.bytes_length, ← Nat.add_assoc, ← Nat.add_assoc]
  rfl

/-- The fields of a record in order, as bits. -/
theorem Framed.mediumBits_bytes (f : Framed) :
    mediumBits f.bytes = natBits f.name.length 32 ++ (byteBits f.s1 ++ (mediumBits f.name ++ (byteBits f.s2 ++
      (natBits f.content.length 64 ++ (byteBits f.s3 ++ mediumBits f.content))))) := by
  simp only [Framed.bytes, recordWith, mediumBits_append, mediumBits_cons, mediumBits_bigEndian, Nat.reduceMul]

/-- What is left of a record after its name: the name's descriptor fields are known (43_archive.md R277). -/
def readRecordAfterName (check : Bool) (nameOff nameLen : Nat) (r : Reader) : Except CmdFault (Descriptor × Reader) := do
  let r ← readSeparator check r
  let (contentLen, r) ← readLength 64 r
  let r ← readSeparator check r
  let contentOff := r.pos / 8
  let (_, r) ← r.readBytes contentLen
  return (⟨nameOff, nameLen, contentOff, contentLen⟩, r)

section Record

variable {check : Bool} {r : Reader} {more : List Bool}

theorem readRecord_of_name {name : List Byte} {s1 : Byte} (hs1 : check = true → s1 = 0xFF) (hname : name.length < 2 ^ 31)
    (h : r.rest = natBits name.length 32 ++ (byteBits s1 ++ (mediumBits name ++ more))) :
    readRecord check r =
        readRecordAfterName check ((r.pos + 40) / 8) name.length (r.skip (40 + 8 * name.length)) ∧
      (r.skip (40 + 8 * name.length)).rest = more := by
  have hlen := readLength_readsField (w := 32) hname
  have hsep := readSeparator_readsField hs1
  have h1 := hlen.rest h
  have h2 := hsep.rest h1
  have h3 := (readBytes_readsField name).rest h2
  refine ⟨?_, by simpa [Nat.add_assoc] using h3⟩
  rw [readRecord, hlen.bind h]
  dsimp only
  rw [hsep.bind h1]
  dsimp only [id]
  rw [(readBytes_readsField name).bind h2]
  simp only [Reader.skip_skip, Reader.skip_pos, Nat.reduceAdd]
  rfl

/-- A record that is there whole is read (43_archive.md R283). -/
theorem readRecord_of_rest {f : Framed} (hmarks : check = true → f.marked) (hname : f.name.length < 2 ^ 31)
    (hcontent : f.content.length < 2 ^ 63) {off : Nat} (hoff : r.pos = 8 * off) (h : r.rest = mediumBits f.bytes ++ more) :
    readRecord check r = .ok (f.descriptor off, r.skip (8 * f.bytes.length)) := by
  simp only [Framed.mediumBits_bytes, List.append_assoc] at h
  obtain ⟨hrecord, h3⟩ := readRecord_of_name (fun hc => (hmarks hc).first) hname h
  have hsep2 := readSeparator_readsField fun hc => (hmarks hc).second
  have hlen := readLength_readsField (w := 64) hcontent
  have hsep3 := readSeparator_readsField fun hc => (hmarks hc).third
  have h4 := hsep2.rest h3
  have h5 := hlen.rest h4
  have h6 := hsep3.rest h5
  rw [hrecord, readRecordAfterName, hsep2.bind h3]
  dsimp only [id]
  rw [hlen.bind h4]
  dsimp only
  rw [hsep3.bind h5]
  dsimp only [id]
  rw [(readBytes_readsField f.content).bind h6]
  have hnameOff : (8 * off + 40) / 8 = off + 5 := by omega
  have hcontentOff : (8 * off + (40 + 8 * f.name.length + 8 + 64 + 8)) / 8 = off + 15 + f.name.length := by omega
  have hend : 40 + 8 * f.name.length + 8 + 64 + 8 + 8 * f.content.length = 8 * f.bytes.length := by
    rw [f.bytes_length]
    omega
  simp only [Reader.skip_skip, Reader.skip_pos, hoff, hnameOff, hcontentOff, hend]
  rfl

/-- A record cut short faults EOS at the read that does not fit (43_archive.md R282, R284). -/
theorem readRecord_of_cut {f : Framed} (hmarks : check = true → f.marked) (hname : f.name.length < 2 ^ 31)
    (hcontent : f.content.length < 2 ^ 63) {limit : Nat} (h : r.CutIn limit (mediumBits f.bytes)) :
    readRecord check r = .error ⟨.eos, failingRead limit r.pos f.reads⟩ := by
  rw [Framed.mediumBits_bytes, ← List.append_nil (mediumBits f.content)] at h
  refine (readLength_readsField (w := 32) hname).bind_cut h fun h1 => ?_
  refine (readSeparator_readsField fun hc => (hmarks hc).first).bind_cut h1 fun h2 => ?_
  refine (readBytes_readsField f.name).bind_cut h2 fun h3 => ?_
  refine (readSeparator_readsField fun hc => (hmarks hc).second).bind_cut h3 fun h4 => ?_
  refine (readLength_readsField (w := 64) hcontent).bind_cut h4 fun h5 => ?_
  refine (readSeparator_readsField fun hc => (hmarks hc).third).bind_cut h5 fun h6 => ?_
  exact (readBytes_readsField f.content).bind_cut h6 fun h7 => absurd h7.shorter (Nat.not_lt_zero _)

theorem readRecord_of_negative_name {v : Nat} (hv : 2 ^ 31 ≤ v) (hv' : v < 2 ^ 32) (h : r.rest = natBits v 32 ++ more) :
    readRecord check r = .error ⟨.badLength, r.pos + 32⟩ := by
  rw [readRecord, readLength_of_negative hv hv' h]
  rfl

theorem readRecord_of_bad_first {v : Nat} {sep : Byte} (hv : v < 2 ^ 31) (hsep : sep ≠ 0xFF)
    (h : r.rest = natBits v 32 ++ (byteBits sep ++ more)) :
    readRecord true r = .error ⟨.badSeparator, r.pos + 40⟩ := by
  have hlen := readLength_readsField (w := 32) hv
  rw [readRecord, hlen.bind h]
  dsimp only
  rw [readSeparator_of_bad hsep (hlen.rest h)]
  rfl

theorem readRecordAfterName_of_bad_second {nameOff nameLen : Nat} {sep : Byte} (hsep : sep ≠ 0xFF)
    (h : r.rest = byteBits sep ++ more) :
    readRecordAfterName true nameOff nameLen r = .error ⟨.badSeparator, r.pos + 8⟩ := by
  rw [readRecordAfterName, readSeparator_of_bad hsep h]
  rfl

theorem readRecordAfterName_of_negative_content {nameOff nameLen v : Nat} {s2 : Byte} (hs2 : check = true → s2 = 0xFF)
    (hv : 2 ^ 63 ≤ v) (hv' : v < 2 ^ 64) (h : r.rest = byteBits s2 ++ (natBits v 64 ++ more)) :
    readRecordAfterName check nameOff nameLen r = .error ⟨.badLength, r.pos + 72⟩ := by
  have hsep2 := readSeparator_readsField hs2
  rw [readRecordAfterName, hsep2.bind h]
  dsimp only [id]
  rw [readLength_of_negative hv hv' (hsep2.rest h)]
  rfl

theorem readRecordAfterName_of_bad_third {nameOff nameLen v : Nat} {sep : Byte} (hv : v < 2 ^ 63) (hsep : sep ≠ 0xFF)
    (h : r.rest = byteBits 0xFF ++ (natBits v 64 ++ (byteBits sep ++ more))) :
    readRecordAfterName true nameOff nameLen r = .error ⟨.badSeparator, r.pos + 80⟩ := by
  have hsep2 := readSeparator_readsField (check := true) (b := 0xFF) fun _ => rfl
  have hlen := readLength_readsField (w := 64) hv
  have h1 := hsep2.rest h
  rw [readRecordAfterName, hsep2.bind h]
  dsimp only [id]
  rw [hlen.bind h1]
  dsimp only
  rw [readSeparator_of_bad hsep (hlen.rest h1)]
  rfl

end Record

/-! ### The loop (43_archive.md R278, R279) -/

theorem Reader.isEmpty_of_rest {r : Reader} (h : r.rest ≠ []) : r.isEmpty = false := by
  rw [Reader.isEmpty, decide_eq_false_iff_not]
  intro hpos
  exact h (List.drop_of_length_le (by rw [mediumBits_length, hpos]))

section Loop

variable {check : Bool} {r : Reader}

theorem readRecords_of_isEmpty (room : Nat) (h : r.isEmpty = true) : readRecords check room r = .ok [] := by
  rw [readRecords.eq_def]
  exact if_pos h

/-- A record that faults is the end of the loop. -/
theorem readRecords_of_error {room : Nat} {f : CmdFault} (hroom : 0 < room) (hrest : r.rest ≠ [])
    (h : readRecord check r = .error f) : readRecords check room r = .error f := by
  obtain ⟨room, rfl⟩ := Nat.exists_eq_add_one.2 hroom
  rw [readRecords, Reader.isEmpty_of_rest hrest, h]
  rfl

/-- Whole records are read off the front, each to its descriptor, and the loop goes on after them. -/
theorem readRecords_of_rest {records : List Framed} (room : Nat) {off : Nat} {more : List Byte}
    (hmarks : check = true → ∀ f ∈ records, f.marked) (hlen : (framedBytes records).length < 2 ^ 31)
    (hoff : r.pos = 8 * off) (h : r.rest = mediumBits (framedBytes records ++ more)) :
    readRecords check (records.length + room) r =
      (readRecords check room (r.skip (8 * (framedBytes records).length))).map
        (archiveDescs off (records.map Framed.payload) ++ ·) := by
  induction records generalizing r off with
  | nil =>
    rw [List.length_nil, Nat.zero_add]
    show _ = (readRecords check room r).map (fun ds => ds)
    cases readRecords check room r <;> rfl
  | cons f rest ih =>
    rw [framedBytes_cons, List.append_assoc, mediumBits_append] at h
    rw [framedBytes_cons, List.length_append] at hlen ⊢
    have hf := f.bytes_length
    have hne : r.rest ≠ [] := by
      rw [h]
      exact List.append_ne_nil_of_left_ne_nil (List.ne_nil_of_length_pos (by rw [mediumBits_length]; omega)) _
    have hrecord := readRecord_of_rest (fun hc => hmarks hc f List.mem_cons_self) (by omega) (by omega) hoff h
    have hafter : (r.skip (8 * f.bytes.length)).rest = mediumBits (framedBytes rest ++ more) := by
      rw [Reader.rest_skip, h, List.drop_left' (mediumBits_length _)]
    have hloop := ih (r := r.skip (8 * f.bytes.length)) (off := off + f.bytes.length)
      (fun hc g hg => hmarks hc g (List.mem_cons_of_mem f hg)) (by omega) (by rw [Reader.skip_pos]; omega) hafter
    rw [List.length_cons, Nat.add_right_comm, readRecords, Reader.isEmpty_of_rest hne, archiveDescs_cons, hrecord]
    simp only [bind, Except.bind, hloop, Reader.skip_skip, ← Nat.mul_add, Bool.false_eq_true, if_false]
    cases readRecords check room (r.skip (8 * (f.bytes.length + (framedBytes rest).length))) <;> rfl

end Loop

end Sys2Proof.Machine
end

section
/-! SUPPORT. The statements about ARC_UNFRAME (43_archive.md R277 to R284) and the round trip (R285). -/

namespace Sys2Proof.Machine

/-! ### The stream after its first records -/

/-- The reader of a stream that begins with whole records, after them. -/
def readerAfter (records : List Framed) (more : List Byte) : Reader :=
  (Reader.opened (framedBytes records ++ more)).skip (8 * (framedBytes records).length)

@[simp] theorem readerAfter_pos (records : List Framed) (more : List Byte) :
    (readerAfter records more).pos = 8 * (framedBytes records).length := Nat.zero_add _

@[simp] theorem readerAfter_rest (records : List Framed) (more : List Byte) :
    (readerAfter records more).rest = mediumBits more := by
  rw [readerAfter, Reader.rest_skip, Reader.opened_rest, mediumBits_append, List.drop_left' (mediumBits_length _)]

theorem readerAfter_isEmpty (records : List Framed) : (readerAfter records []).isEmpty = true := by
  rw [readerAfter, Reader.isEmpty, List.append_nil]
  exact decide_eq_true (Nat.zero_add _)

theorem readerAfter_rest_ne_nil (records : List Framed) {more : List Byte} (h : more ≠ []) :
    (readerAfter records more).rest ≠ [] := by
  have hpos := List.length_pos_of_ne_nil h
  exact List.ne_nil_of_length_pos (by rw [readerAfter_rest, mediumBits_length]; omega)

/-- ARC_UNFRAME of a stream that begins with whole records: their descriptors, then what the loop makes of the others. -/
theorem arcUnframe_of_records {p : Params} {records : List Framed} (hroom : records.length ≤ p.recCap)
    (hmarks : p.sepCheck = true → ∀ f ∈ records, f.marked) (hlen : (framedBytes records).length < 2 ^ 31)
    (more : List Byte) :
    arcUnframe p (framedBytes records ++ more) =
      (readRecords p.sepCheck (p.recCap - records.length) (readerAfter records more)).map
        (archiveDescs 0 (records.map Framed.payload) ++ ·) := by
  have hloop := readRecords_of_rest (r := Reader.opened (framedBytes records ++ more)) (p.recCap - records.length)
    (off := 0) hmarks hlen rfl (Reader.opened_rest _)
  rwa [Nat.add_sub_cancel' hroom] at hloop

theorem arcUnframe_framedBytes {p : Params} {records : List Framed} (hroom : records.length ≤ p.recCap)
    (hmarks : p.sepCheck = true → ∀ f ∈ records, f.marked) (hlen : (framedBytes records).length < 2 ^ 31) :
    arcUnframe p (framedBytes records) = .ok (archiveDescs 0 (records.map Framed.payload)) := by
  have h := arcUnframe_of_records hroom hmarks hlen []
  rw [List.append_nil, readRecords_of_isEmpty _ (readerAfter_isEmpty records)] at h
  exact h.trans (congrArg Except.ok (List.append_nil _))

/-- Bytes after REC_CAP whole records fault REC_OVERFLOW where they start (43_archive.md R279). -/
theorem arcUnframe_of_overflow {p : Params} {records : List Framed} (hfull : records.length = p.recCap)
    (hmarks : p.sepCheck = true → ∀ f ∈ records, f.marked) (hlen : (framedBytes records).length < 2 ^ 31)
    {more : List Byte} (hmore : more ≠ []) :
    arcUnframe p (framedBytes records ++ more) = .error ⟨.recOverflow, 8 * (framedBytes records).length⟩ := by
  rw [arcUnframe_of_records hfull.le hmarks hlen, hfull, Nat.sub_self, readRecords,
    Reader.isEmpty_of_rest (readerAfter_rest_ne_nil records hmore), ← readerAfter_pos records more]
  rfl

theorem State.input_length_lt {s : State} (hp : s.cfg.Legal) {src : BufId} (hlen : (s.len src).toNat ≤ s.cfg.bufCap) :
    (s.input src).length < 2 ^ 31 := by
  obtain ⟨-, -, -, hcap, -⟩ := hp
  rw [State.input_length]
  omega

/-- A record that faults after whole records, fewer than REC_CAP, makes ARC_UNFRAME fault. -/
theorem exec_arcUnframe_faults_after {s : State} {src : BufId} {records : List Framed} {more : List Byte} {f : CmdFault}
    (hp : s.cfg.Legal) (hlen : (s.len src).toNat ≤ s.cfg.bufCap) (hbefore : RecordsBefore s.cfg records)
    (hinput : s.input src = framedBytes records ++ more) (hmore : more ≠ [])
    (hrecord : readRecord s.cfg.sepCheck (readerAfter records more) = .error f) :
    ∃ t, exec (.arcUnframe src) s = .next t ∧ FaultsRecords s t f := by
  obtain ⟨hroom, hmarks⟩ := hbefore
  have hlength := State.input_length_lt hp hlen
  rw [hinput, List.length_append] at hlength
  refine exec_arcUnframe_faults hlen ?_
  rw [hinput, arcUnframe_of_records hroom.le hmarks (by omega),
    readRecords_of_error (Nat.sub_pos_of_lt hroom) (readerAfter_rest_ne_nil records hmore) hrecord]
  rfl

/-- So does a record that faults after its name. -/
theorem exec_arcUnframe_faults_after_name {s : State} {src : BufId} {records : List Framed} {s1 : Byte}
    {name more : List Byte} {f : CmdFault} (hp : s.cfg.Legal) (hlen : (s.len src).toNat ≤ s.cfg.bufCap)
    (hbefore : RecordsBefore s.cfg records) (hs1 : s.cfg.sepCheck = true → s1 = 0xFF)
    (hinput : s.input src = framedBytes records ++ (bigEndian name.length 4 ++ (s1 :: (name ++ more))))
    (hrest : ∀ {nameOff : Nat} {r : Reader}, r.rest = mediumBits more →
      r.pos = 8 * ((framedBytes records).length + name.length + 5) →
      readRecordAfterName s.cfg.sepCheck nameOff name.length r = .error f) :
    ∃ t, exec (.arcUnframe src) s = .next t ∧ FaultsRecords s t f := by
  have hname : name.length < 2 ^ 31 := by
    have hlength := State.input_length_lt hp hlen
    simp only [hinput, List.length_append, List.length_cons] at hlength
    omega
  have hbits := readerAfter_rest records (bigEndian name.length 4 ++ (s1 :: (name ++ more)))
  simp only [mediumBits_append, mediumBits_cons, mediumBits_bigEndian, Nat.reduceMul] at hbits
  obtain ⟨hrecord, hmore⟩ := readRecord_of_name hs1 hname hbits
  refine exec_arcUnframe_faults_after hp hlen hbefore hinput (by simp) (hrecord.trans (hrest hmore ?_))
  rw [Reader.skip_pos, readerAfter_pos]
  omega

/-! ### The statements about ARC_UNFRAME -/

/-- Settles O54: the first REC_CAP records are read, and the rest of the stream is empty or overflows REC. -/
theorem arcUnframeReadsTheRecords : Obligations.ArcUnframeReadsTheRecords := by
  unfold Obligations.ArcUnframeReadsTheRecords
  intro s src records hp hlen hinput hmarks
  have hlength := State.input_length_lt hp hlen
  rw [hinput] at hlength
  refine ⟨fun hroom => exec_arcUnframe_completes hp hlen ?_, fun hover => exec_arcUnframe_faults hlen ?_⟩
  · rw [hinput]
    exact arcUnframe_framedBytes hroom hmarks hlength
  · have hsplit : framedBytes records =
        framedBytes (records.take s.cfg.recCap) ++ framedBytes (records.drop s.cfg.recCap) := by
      rw [framedBytes, framedBytes, framedBytes, ← List.flatMap_append, List.take_append_drop]
    have hmore : framedBytes (records.drop s.cfg.recCap) ≠ [] := by
      rw [List.drop_eq_getElem_cons hover, framedBytes_cons]
      exact List.ne_nil_of_length_pos (by rw [List.length_append, Framed.bytes_length]; omega)
    rw [hsplit, List.length_append] at hlength
    rw [hinput, hsplit]
    exact arcUnframe_of_overflow (List.length_take_of_le hover.le)
      (fun hc f hf => hmarks hc f (List.mem_of_mem_take hf)) (by omega) hmore

/-- Settles O55. -/
theorem arcUnframeNegativeLengths : Obligations.ArcUnframeNegativeLengths := by
  unfold Obligations.ArcUnframeNegativeLengths
  intro s src records hp hlen hbefore
  refine ⟨fun v more hv hv' hinput => ?_, fun s1 s2 name more v hseps hv hv' hinput => ?_⟩
  · refine exec_arcUnframe_faults_after hp hlen hbefore hinput (by simp [bigEndian]) ?_
    rw [← readerAfter_pos records]
    exact readRecord_of_negative_name hv hv' (by rw [readerAfter_rest, mediumBits_append, mediumBits_bigEndian])
  · refine exec_arcUnframe_faults_after_name hp hlen hbefore (fun hc => (hseps hc).1) hinput fun hrest hpos => ?_
    rw [mediumBits_cons, mediumBits_append, mediumBits_bigEndian] at hrest
    rw [readRecordAfterName_of_negative_content (fun hc => (hseps hc).2) hv hv' hrest, hpos]
    rfl

/-- Settles O56. -/
theorem arcUnframeChecksSeparators : Obligations.ArcUnframeChecksSeparators := by
  unfold Obligations.ArcUnframeChecksSeparators
  intro s src records sep more hp hlen hcheck hbefore hsep
  refine ⟨fun v hv hinput => ?_, fun name hinput => ?_, fun name v hv hinput => ?_⟩
  · refine exec_arcUnframe_faults_after hp hlen hbefore hinput (by simp) ?_
    have hrest := readerAfter_rest records (bigEndian v 4 ++ (sep :: more))
    rw [mediumBits_append, mediumBits_cons, mediumBits_bigEndian] at hrest
    rw [hcheck, readRecord_of_bad_first hv hsep hrest, readerAfter_pos, Nat.mul_add]
  · refine exec_arcUnframe_faults_after_name hp hlen hbefore (fun _ => rfl) hinput fun hrest hpos => ?_
    rw [mediumBits_cons] at hrest
    rw [hcheck, readRecordAfterName_of_bad_second hsep hrest, hpos]
    rfl
  · refine exec_arcUnframe_faults_after_name hp hlen hbefore (fun _ => rfl) hinput fun hrest hpos => ?_
    rw [mediumBits_cons, mediumBits_append, mediumBits_cons, mediumBits_bigEndian] at hrest
    rw [hcheck, readRecordAfterName_of_bad_third hv hsep hrest, hpos]
    rfl

/-- Reads due further on in a longer medium fail at the same distance. -/
theorem failingRead_add (k limit pos : Nat) (ws : List Nat) :
    failingRead (k + limit) (k + pos) ws = k + failingRead limit pos ws := by
  induction ws generalizing pos with
  | nil => rfl
  | cons w ws ih =>
    by_cases h : pos + w ≤ limit
    · rw [failingRead_fits h, failingRead_fits (by omega), Nat.add_assoc, ih]
    · rw [failingRead_stops (by omega), failingRead_stops (by omega)]

/-- The first bytes of a record, not all, end inside its fields. -/
theorem readerAfter_take_cutIn (records : List Framed) {bytes : List Byte} {m : Nat} (h : m < bytes.length) :
    (readerAfter records (bytes.take m)).CutIn (8 * (framedBytes records).length + 8 * m) (mediumBits bytes) where
  begins := by
    rw [readerAfter_rest]
    exact mediumBits_take_prefix bytes m
  shorter := by
    rw [readerAfter_rest, mediumBits_length, mediumBits_length, List.length_take_of_le h.le]
    omega
  ends := by rw [readerAfter_rest, readerAfter_pos, mediumBits_length, List.length_take_of_le h.le]

/-- Settles O57: the medium ends inside the fields of the record that is due. -/
theorem arcUnframeOfACutRecordFaults : Obligations.ArcUnframeOfACutRecordFaults := by
  unfold Obligations.ArcUnframeOfACutRecordFaults
  intro s src records f m hp hlen hbefore hmarks hname hcontent hm hcut hinput
  have hmore : f.bytes.take m ≠ [] := List.ne_nil_of_length_pos (by rw [List.length_take_of_le hcut.le]; omega)
  refine exec_arcUnframe_faults_after hp hlen hbefore hinput hmore ?_
  rw [readRecord_of_cut hmarks hname hcontent (readerAfter_take_cutIn records hcut), readerAfter_pos, ← failingRead_add]
  rfl

end Sys2Proof.Machine
end

section
/-! SUPPORT. The archive round trip (43_archive.md R285): the descriptors of an archive name its records, and the archive
ARC_FRAME writes is one ARC_UNFRAME reads. -/

namespace Sys2Proof.Machine

/-! ### What the descriptors of an archive name (43_archive.md R283) -/

theorem slice_append (pre bytes post : List Byte) : slice (pre ++ (bytes ++ post)) pre.length bytes.length = bytes := by
  rw [slice, List.drop_left, List.take_left]

/-- The descriptor of a record that stands anywhere in a medium names its name and its content. -/
theorem Framed.record_descriptor (f : Framed) (pre post : List Byte) :
    (f.descriptor pre.length).record (pre ++ (f.bytes ++ post)) = f.payload := by
  have hname := slice_append (pre ++ (bigEndian f.name.length 4 ++ [f.s1])) f.name
    (f.s2 :: (bigEndian f.content.length 8 ++ (f.s3 :: (f.content ++ post))))
  have hcontent := slice_append (pre ++ (bigEndian f.name.length 4 ++ (f.s1 :: (f.name ++ (f.s2 ::
    (bigEndian f.content.length 8 ++ [f.s3])))))) f.content post
  have hcontentOff : pre.length + (4 + (f.name.length + (8 + 1 + 1) + 1)) = pre.length + 15 + f.name.length := by omega
  simp only [List.length_append, List.length_cons, List.length_nil, bigEndian_length, List.append_assoc, List.cons_append,
    List.nil_append, hcontentOff, Nat.zero_add, Nat.reduceAdd] at hname hcontent
  simp only [Descriptor.record, Framed.descriptor, Framed.payload, Framed.bytes, recordWith, List.append_assoc,
    List.cons_append, hname, hcontent]

/-- The descriptors of an archive name its records, in order. -/
theorem archiveDescs_record (pre : List Byte) (records : List Framed) :
    (archiveDescs pre.length (records.map Framed.payload)).map (Descriptor.record (pre ++ framedBytes records)) =
      records.map Framed.payload := by
  induction records generalizing pre with
  | nil => rfl
  | cons f rest ih =>
    have hrest := ih (pre ++ f.bytes)
    rw [List.length_append, List.append_assoc] at hrest
    rw [archiveDescs_cons, List.map_cons, List.map_cons, framedBytes_cons, hrest, Framed.record_descriptor]

/-! ### The archive ARC_FRAME writes -/

/-- A record with the separators ARC_FRAME writes (43_archive.md R274). -/
def Framed.ofRecord (record : List Byte × List Byte) : Framed := ⟨0xFF, 0xFF, 0xFF, record.1, record.2⟩

theorem archiveBytes_eq_framedBytes (records : List (List Byte × List Byte)) :
    archiveBytes records = framedBytes (records.map Framed.ofRecord) := by
  rw [framedBytes, List.flatMap_map]
  rfl

theorem map_payload_ofRecord (records : List (List Byte × List Byte)) :
    (records.map Framed.ofRecord).map Framed.payload = records := by
  rw [List.map_map]
  exact List.map_id _

/-- ARC_UNFRAME reads an archive of at most REC_CAP records, separators checked or not. -/
theorem arcUnframe_archiveBytes {p : Params} {records : List (List Byte × List Byte)} (hroom : records.length ≤ p.recCap)
    (hlen : (archiveBytes records).length < 2 ^ 31) :
    arcUnframe p (archiveBytes records) = .ok (archiveDescs 0 records) := by
  rw [archiveBytes_eq_framedBytes] at hlen ⊢
  have hmarks : ∀ f ∈ records.map Framed.ofRecord, f.marked := by
    intro f hf
    obtain ⟨record, -, rfl⟩ := List.mem_map.1 hf
    exact ⟨rfl, rfl, rfl⟩
  rw [arcUnframe_framedBytes (by rwa [List.length_map]) (fun _ => hmarks) hlen, map_payload_ofRecord]

theorem archiveDescs_record_archiveBytes (records : List (List Byte × List Byte)) :
    (archiveDescs 0 records).map (Descriptor.record (archiveBytes records)) = records := by
  have h := archiveDescs_record [] (records.map Framed.ofRecord)
  rwa [map_payload_ofRecord, ← archiveBytes_eq_framedBytes] at h

/-- ARC_FRAME answers only the archive of its descriptors' records. -/
theorem arcFrame_eq_ok {cap : Nat} {medium out : List Byte} {ds : List Descriptor} (h : arcFrame cap medium ds = .ok out) :
    out = archiveBytes (ds.map (Descriptor.record medium)) := by
  cases hbad : firstBad medium.length 0 ds with
  | some i =>
    rw [arcFrame_of_firstBad hbad] at h
    cases h
  | none =>
    rw [arcFrame_eq (firstBad_eq_none.1 hbad)] at h
    split at h
    · cases h
      rfl
    · cases h

theorem archiveDescs_length (records : List (List Byte × List Byte)) :
    (archiveDescs 0 records).length = records.length := by
  simpa using congrArg List.length (archiveDescs_record_archiveBytes records)

/-- ARC_UNFRAME leaves the buffers as they are. -/
theorem CompletesWithRecords.input {s t : State} {ds : List Descriptor} (h : CompletesWithRecords s t ds) (k : BufId) :
    t.input k = s.input k := by
  obtain ⟨hlen, hbytes⟩ := h.buffers k
  unfold State.input
  rw [hlen, funext hbytes]

/-- Each descriptor of an archive's records, completed into REC, names its record of the archive. -/
theorem CompletesWithRecords.record_of_archive {s t : State} {dst : BufId} {records : List (List Byte × List Byte)}
    (h : CompletesWithRecords s t (archiveDescs 0 records)) (hinput : s.input dst = archiveBytes records) {i : Nat}
    (hi : i < records.length) : (t.recs.readDesc i).record (t.input dst) = records[i] := by
  have hi' : i < (archiveDescs 0 records).length := by rwa [archiveDescs_length]
  rw [h.input, hinput, h.listed i hi']
  have hnamed := congrArg (·[i]?) (archiveDescs_record_archiveBytes records)
  simpa [hi, hi'] using hnamed

/-- Settles O58: the archive ARC_FRAME wrote is read back to descriptors that name its records. -/
theorem archiveRoundTrip : Obligations.ArchiveRoundTrip := by
  unfold Obligations.ArchiveRoundTrip
  intro s t src dst hp hne hexec hdone
  cases (exec_arcFrame src dst s).symm.trans hexec
  obtain ⟨hadmits, out, hout, ht⟩ := State.runCommand_done hdone
  obtain ⟨-, hlen, hcount⟩ := (s.admits_iff _).1 hadmits
  have ⟨_, _, _, hcap, _⟩ := hp
  have hfit := arcFrame_length_le hout
  have hcompletes := State.completeBuffer_completesWith_of_legal hp dst hfit
  have hcfg := hcompletes.outside.cfg
  have hinput := hcompletes.input
  have harchive := arcFrame_eq_ok hout
  rw [ht]
  generalize s.completeBuffer dst out = t at hcompletes hcfg hinput
  subst harchive
  have hunframe : arcUnframe t.cfg (t.input dst) =
      .ok (archiveDescs 0 (s.descriptors.map (Descriptor.record (s.input src)))) := by
    rw [hinput]
    exact arcUnframe_archiveBytes (by simpa [hcfg] using hcount rfl) (by omega)
  obtain ⟨u, hu, hrecords⟩ := exec_arcUnframe_completes (hcfg ▸ hp) (by rwa [hcompletes.len, hcfg]) hunframe
  refine ⟨u, hu, hrecords.status.done, BitVec.eq_of_toNat_eq ?_, fun i hi => ?_⟩
  · rw [hrecords.count, archiveDescs_length, List.length_map, State.descriptors_length]
  · have hi' : i < (s.descriptors.map (Descriptor.record (s.input src))).length := by simpa using hi
    have hsame := hrecords.record_of_archive hinput hi'
    rw [List.getElem_map, State.descriptors_getElem] at hsame
    exact Prod.mk.inj hsame

end Sys2Proof.Machine
end

section
/-! SUPPORT. Where the pseudocode of each command faults (60_exceptions.md R314): OUT_OVERFLOW at 0, BAD_RECORD at a
descriptor, every other cause at a bit cursor of the source. -/

namespace Sys2Proof.Machine

/-- Every fault of the run has the kind of position R314 gives its cause, for a source of `n` bytes and `m` descriptors. -/
def FaultsAt {α : Type} (n m : Nat) (x : Except CmdFault α) : Prop := ∀ f, raised x = some f → f.Positioned n m

theorem FaultsAt.ok {α : Type} {n m : Nat} {a : α} : FaultsAt n m (.ok a) := nofun

theorem FaultsAt.error {α : Type} {n m : Nat} {f : CmdFault} (h : f.Positioned n m) :
    FaultsAt n m (.error f : Except CmdFault α) := by
  rintro _ ⟨⟩
  exact h

/-- A run that goes on faults in its first part, or after a value that part can answer. -/
theorem FaultsAt.bind {α β : Type} {n m : Nat} {x : Except CmdFault α} {k : α → Except CmdFault β} {P : α → Prop}
    {cs : List Cause} (hx : FaultsAt n m x) (hanswer : Answers x P cs) (hk : ∀ a, P a → FaultsAt n m (k a)) :
    FaultsAt n m (x >>= k) := by
  cases x with
  | ok a => exact hk a hanswer
  | error f => exact hx

section Runs

variable {n m cap : Nat} {medium : List Byte} {r : Reader} {w : Writer}

/-! ### The writer faults OUT_OVERFLOW at 0 only -/

theorem Writer.writeCode_faultsAt (h : w.Ok) (bits : List Bool) : FaultsAt n m (w.writeCode bits) := by
  rcases Writer.writeCode_spec h bits with ⟨-, w', he, -⟩ | ⟨-, he⟩ <;> rw [he]
  · exact .ok
  · exact .error rfl

/-- The answer of a run whose output is known: the output where it fits, or OUT_OVERFLOW. -/
theorem faultsAt_ite_outOverflow {fits : Prop} [Decidable fits] {out : List Byte} :
    FaultsAt n m (if fits then .ok out else .error ⟨.outOverflow, 0⟩) := by
  split
  · exact .ok
  · exact .error rfl

theorem Writer.finish_faultsAt (h : w.Ok) : FaultsAt n m w.finish := by
  rw [Writer.finish_eq h]
  exact faultsAt_ite_outOverflow

theorem huffEncode_faultsAt (cap : Nat) (input : List Byte) : FaultsAt n m (huffEncode cap input) := by
  cases h : buildTrie (freqTable input) with
  | none =>
    rw [huffEncode, h]
    exact Writer.finish_faultsAt (Writer.opened_ok cap)
  | some t =>
    rw [huffEncode_eq h]
    exact faultsAt_ite_outOverflow

theorem lzwEncode_faultsAt (p : Params) (input : List Byte) : FaultsAt n m (lzwEncode p input) := by
  rw [lzwEncode_eq]
  exact faultsAt_ite_outOverflow

/-! ### ARC_FRAME faults BAD_RECORD at one of its descriptors -/

theorem lt_of_firstBad {i j : Nat} {ds : List Descriptor} (h : firstBad n i ds = some j) : j < i + ds.length := by
  induction ds generalizing i with
  | nil => cases h
  | cons d rest ih =>
    rw [firstBad] at h
    rw [List.length_cons]
    split at h
    · have := ih h
      omega
    · cases h
      omega

theorem arcFrame_faultsAt (cap : Nat) (medium : List Byte) (ds : List Descriptor) :
    FaultsAt n ds.length (arcFrame cap medium ds) := by
  cases h : firstBad medium.length 0 ds with
  | none =>
    rw [arcFrame_eq (firstBad_eq_none.1 h)]
    exact faultsAt_ite_outOverflow
  | some i =>
    rw [arcFrame_of_firstBad h]
    have hi : i < ds.length := by simpa using lt_of_firstBad h
    exact .error hi

/-! ### The reader faults EOS at its cursor, which is inside the medium -/

theorem Reader.readBits_faultsAt (h : r.On medium) (w : Nat) : FaultsAt medium.length m (r.readBits w) := by
  rw [Reader.readBits_eq]
  split
  · exact .ok
  · exact .error h.2

theorem Reader.readBit_faultsAt (h : r.On medium) : FaultsAt medium.length m r.readBit :=
  (Reader.readBits_faultsAt h 1).bind (Reader.readBits_answers h 1 (List.mem_singleton_self _)) fun _ _ => .ok

theorem Reader.readChar_faultsAt (h : r.On medium) : FaultsAt medium.length m r.readChar :=
  (Reader.readBits_faultsAt h 8).bind (Reader.readBits_answers h 8 (List.mem_singleton_self _)) fun _ _ => .ok

theorem Reader.readChars_faultsAt (h : r.On medium) (k : Nat) : FaultsAt medium.length m (r.readChars k) := by
  induction k generalizing r with
  | zero => exact .ok
  | succ k ih =>
    refine (Reader.readChar_faultsAt h).bind (Reader.readChar_answers h (List.mem_singleton_self _)) fun a ha => ?_
    exact (ih ha.1).bind (Reader.readChars_answers ha.1 k (List.mem_singleton_self _)) fun _ _ => .ok

theorem Reader.readBytes_faultsAt (h : r.On medium) (k : Nat) : FaultsAt medium.length m (r.readBytes k) := by
  unfold Reader.readBytes
  split
  · exact .error h.2
  · exact Reader.readChars_faultsAt h k

/-! ### HUFF_DEC -/

theorem parseTrie_faultsAt (fuel cnt : Nat) (h : r.On medium) : FaultsAt medium.length m (parseTrie fuel cnt r) := by
  induction fuel generalizing cnt r with
  | zero => exact .error h.2
  | succ fuel ih =>
    have hsub (cnt : Nat) {r : Reader} (h : r.On medium) :=
      parseTrie_answers (cs := [.eos, .trieOverflow]) fuel cnt h (by simp) (by simp)
    refine (Reader.readBit_faultsAt h).bind (Reader.readBit_answers h (List.mem_singleton_self _)) fun a ha => ?_
    dsimp only
    split
    · exact .error ha.1.2
    · split
      · exact (Reader.readChar_faultsAt ha.1).bind (Reader.readChar_answers ha.1 (List.mem_singleton_self _)) fun _ _ => .ok
      · exact (ih _ ha.1).bind (hsub _ ha.1) fun b hb => (ih _ hb).bind (hsub _ hb) fun _ _ => .ok

theorem Trie.descend_faultsAt (t : Trie) (h : r.On medium) : FaultsAt medium.length m (t.descend r) := by
  induction t generalizing r with
  | leaf s => exact .ok
  | node left right ihl ihr =>
    refine (Reader.readBit_faultsAt h).bind (Reader.readBit_answers h (List.mem_singleton_self _)) fun a ha => ?_
    dsimp only
    split
    · exact ihr ha.1
    · exact ihl ha.1

theorem decodeSymbols_faultsAt (t : Trie) (len : Nat) (hr : r.On medium) (hw : w.Within cap) :
    FaultsAt medium.length m (decodeSymbols t len r w) := by
  induction len generalizing r w with
  | zero => exact .ok
  | succ len ih =>
    refine (t.descend_faultsAt hr).bind (t.descend_answers hr (List.mem_singleton_self _)) fun a ha => ?_
    dsimp only
    rw [Writer.writeByte_eq]
    exact (Writer.writeCode_faultsAt hw.1 _).bind (Writer.writeCode_answers hw _ (List.mem_singleton_self _))
      fun _ hw' => ih ha hw'

theorem huffDecode_faultsAt (cap : Nat) (medium : List Byte) :
    FaultsAt medium.length m (huffDecode cap medium) := by
  have hon := Reader.opened_on medium
  have hwithin := Writer.opened_within cap
  unfold huffDecode
  dsimp only
  split
  · exact Writer.finish_faultsAt hwithin.1
  · refine (parseTrie_faultsAt _ _ hon).bind
      (parseTrie_answers (cs := [.eos, .trieOverflow]) _ _ hon (by simp) (by simp)) fun a ha => ?_
    refine (Reader.readBits_faultsAt ha 32).bind (Reader.readBits_answers ha 32 (List.mem_singleton_self _))
      fun b ⟨_, hb, _⟩ => ?_
    split
    · exact .error hb.2
    · exact (decodeSymbols_faultsAt _ _ hb hwithin).bind
        (decodeSymbols_answers (cs := [.eos, .outOverflow]) _ _ hb hwithin (by simp) (by simp))
        fun _ hw => Writer.finish_faultsAt hw.1

/-! ### LZW_DEC -/

theorem lzwDecodeLoop_faultsAt (width limit fuel : Nat) (d : Dict) (prev : List Byte) (hr : r.On medium)
    (hw : w.Within cap) : FaultsAt medium.length m (lzwDecodeLoop width limit fuel d prev r w) := by
  induction fuel generalizing d prev r w with
  | zero => exact .error hr.2
  | succ fuel ih =>
    refine (Reader.readBits_faultsAt hr width).bind (Reader.readBits_answers hr width (List.mem_singleton_self _))
      fun a ⟨_, ha, _⟩ => ?_
    dsimp only
    split
    · exact .ok
    · split
      · exact .error ha.2
      · rw [Writer.writeString_eq]
        exact (Writer.writeCode_faultsAt hw.1 _).bind (Writer.writeCode_answers hw _ (List.mem_singleton_self _))
          fun _ hw' => ih _ _ ha hw'

theorem lzwDecode_faultsAt (p : Params) (medium : List Byte) : FaultsAt medium.length m (lzwDecode p medium) := by
  have hon := Reader.opened_on medium
  have hwithin := Writer.opened_within p.bufCap
  refine (Reader.readBits_faultsAt hon p.W).bind (Reader.readBits_answers hon p.W (List.mem_singleton_self _))
    fun a ⟨_, ha, _⟩ => ?_
  dsimp only
  split
  · exact Writer.finish_faultsAt hwithin.1
  · split
    · exact .error ha.2
    · rw [Writer.writeString_eq]
      refine (Writer.writeCode_faultsAt hwithin.1 _).bind
        (Writer.writeCode_answers hwithin _ (List.mem_singleton_self _)) fun w hw => ?_
      exact (lzwDecodeLoop_faultsAt _ _ _ _ _ ha hw).bind
        (lzwDecodeLoop_answers (cs := [.eos, .badCodeword, .outOverflow]) _ _ _ _ _ ha hw (by simp) (by simp) (by simp))
        fun _ hw' => Writer.finish_faultsAt hw'.1

/-! ### ARC_UNFRAME -/

variable {check : Bool}

theorem readSeparator_faultsAt (h : r.On medium) : FaultsAt medium.length m (readSeparator check r) := by
  refine (Reader.readChar_faultsAt h).bind (Reader.readChar_answers h (List.mem_singleton_self _)) fun a ha => ?_
  dsimp only
  split
  · exact .error ha.1.2
  · exact .ok

theorem readLength_faultsAt (w : Nat) (h : r.On medium) : FaultsAt medium.length m (readLength w r) := by
  refine (Reader.readBits_faultsAt h w).bind (Reader.readBits_answers h w (List.mem_singleton_self _))
    fun a ⟨_, ha, _⟩ => ?_
  dsimp only
  split
  · exact .error ha.2
  · exact .ok

theorem readRecord_faultsAt (h : r.On medium) : FaultsAt medium.length m (readRecord check r) := by
  have separator {r : Reader} (h : r.On medium) :=
    readSeparator_answers (cs := [.eos, .badSeparator]) check h (by simp) (by simp)
  have length (w : Nat) {r : Reader} (h : r.On medium) :=
    readLength_answers (cs := [.eos, .badLength]) w h (by simp) (by simp)
  have bytes {r : Reader} (h : r.On medium) (k : Nat) := Reader.readBytes_answers h k (List.mem_singleton_self _)
  refine (readLength_faultsAt 32 h).bind (length 32 h) fun a ⟨ha, _⟩ => ?_
  refine (readSeparator_faultsAt ha).bind (separator ha) fun r1 ⟨h1, _⟩ => ?_
  refine (Reader.readBytes_faultsAt h1 a.1).bind (bytes h1 a.1) fun b ⟨hb, _⟩ => ?_
  refine (readSeparator_faultsAt hb).bind (separator hb) fun r2 ⟨h2, _⟩ => ?_
  refine (readLength_faultsAt 64 h2).bind (length 64 h2) fun c ⟨hc, _⟩ => ?_
  refine (readSeparator_faultsAt hc).bind (separator hc) fun r3 ⟨h3, _⟩ => ?_
  exact (Reader.readBytes_faultsAt h3 c.1).bind (bytes h3 c.1) fun _ _ => .ok

theorem readRecords_faultsAt (room : Nat) (h : r.On medium) : FaultsAt medium.length m (readRecords check room r) := by
  induction room generalizing r with
  | zero =>
    rw [readRecords]
    split
    · exact .ok
    · exact .error h.2
  | succ room ih =>
    rw [readRecords]
    split
    · exact .ok
    · refine (readRecord_faultsAt h).bind
        (readRecord_answers (cs := [.eos, .badLength, .badSeparator]) check h (by simp) (by simp) (by simp))
        fun a ⟨ha, _⟩ => ?_
      exact (ih ha).bind
        (readRecords_answers (cs := [.eos, .badLength, .recOverflow, .badSeparator]) check room ha (by simp) (by simp)
          (by simp) (by simp))
        fun _ _ => .ok

theorem arcUnframe_faultsAt (p : Params) (medium : List Byte) : FaultsAt medium.length m (arcUnframe p medium) :=
  readRecords_faultsAt _ (Reader.opened_on medium)

end Runs

/-- The fault of any command has the kind of position R314 gives its cause. -/
theorem State.commandFault_positioned {s : State} {i : Instr} {f : CmdFault} (h : s.commandFault i = some f) :
    f.Positioned (s.len (srcOf i)).toNat s.recCount.toNat := by
  rw [← State.input_length]
  cases i with
  | huffEnc src dst => exact huffEncode_faultsAt _ _ f h
  | huffDec src dst => exact huffDecode_faultsAt _ _ f h
  | lzwEnc src dst => exact lzwEncode_faultsAt _ _ f h
  | lzwDec src dst => exact lzwDecode_faultsAt _ _ f h
  | arcFrame src dst =>
    rw [← State.descriptors_length]
    exact arcFrame_faultsAt _ _ _ f h
  | arcUnframe src => exact arcUnframe_faultsAt _ _ f h

end Sys2Proof.Machine
end

section
/-! SUPPORT. How commands end (60_exceptions.md R311 to R325): the statements about fault entry, its causes, ILLEGAL_CMD,
empty input and the interrupt output. -/

namespace Sys2Proof.Machine

/-! ### Fault entry of a running command (60_exceptions.md R312 to R315) -/

/-- An admitted command enters the fault its pseudocode raises. -/
theorem State.Ended.eq_takeFault {s t : State} {i : Instr} {f : CmdFault} (h : s.Ended i t) (hadmits : s.admits i = true)
    (hf : s.commandFault i = some f) : t = s.takeFault (outputOf i) f := by
  cases h with
  | illegal refused => cases hadmits.symm.trans refused
  | buffer _ _ raises => cases raises.symm.trans hf
  | records _ _ raises => cases raises.symm.trans hf
  | fault _ raises =>
    cases raises.symm.trans hf
    rfl

/-- An admitted command whose pseudocode raises no fault completes. -/
theorem State.Ended.doneFrom {s t : State} {i : Instr} (h : s.Ended i t) (hadmits : s.admits i = true)
    (hf : s.commandFault i = none) : DoneFrom s t := by
  cases h with
  | illegal refused => cases hadmits.symm.trans refused
  | @buffer dst out => exact s.completeBuffer_doneFrom dst out
  | @records ds => exact s.completeRecords_doneFrom ds
  | fault _ raises => cases raises.symm.trans hf

/-- Settles O22. -/
theorem faultEntryOfACommand : Obligations.FaultEntryOfACommand := by
  unfold Obligations.FaultEntryOfACommand
  intro s t i hadmits hexec
  have hended := State.Ended.of_exec hexec
  cases hraised : s.commandFault i with
  | none =>
    have hdone := (hended.doneFrom hadmits hraised).done
    exact ⟨by simp [hdone], nofun⟩
  | some f =>
    cases hended.eq_takeFault hadmits hraised
    have hfaulted := s.takeFault_faultedBy (outputOf i) f
    refine ⟨by simp [hfaulted.done], ?_⟩
    rintro _ ⟨⟩
    refine ⟨State.commandFault_positioned hraised, fun dst houtput => ?_, fun houtput => ?_⟩ <;> rw [houtput]
    · exact s.takeFault_faultsBuffer dst f
    · exact s.takeFault_faultsRecords f

/-! ### The causes of each command (60_exceptions.md R311) -/

theorem Answers.cause_of_raised {α : Type} {x : Except CmdFault α} {P : α → Prop} {cs : List Cause} (h : Answers x P cs)
    {f : CmdFault} (hf : raised x = some f) : f.cause ∈ cs := by
  cases x with
  | ok a => cases hf
  | error e =>
    cases hf
    exact h

/-- A fault that an admitted command newly reports has a cause its pseudocode can raise. -/
theorem cause_mem_of_exec {α : Type} {s t : State} {i : Instr} {result : Except CmdFault α} {P : α → Prop}
    {cs : List Cause} (hbefore : s.fault = false) (hafter : t.fault = true) (hadmits : s.admits i = true)
    (hexec : exec i s = .next t) (hresult : s.commandFault i = raised result) (hanswers : Answers result P cs) :
    t.cause ∈ cs := by
  have hended := State.Ended.of_exec hexec
  cases hraised : s.commandFault i with
  | none =>
    have hsame := (hended.doneFrom hadmits hraised).fault
    cases (hafter.symm.trans hsame).trans hbefore
  | some f =>
    cases hended.eq_takeFault hadmits hraised
    rw [(s.takeFault_faultedBy (outputOf i) f).cause]
    exact hanswers.cause_of_raised (hresult.symm.trans hraised)

/-- Settles O24. -/
theorem causesOfEachCommand : Obligations.CausesOfEachCommand := by
  unfold Obligations.CausesOfEachCommand
  intro s t src dst hbefore hafter
  refine ⟨fun hadmits hexec => ?huffEnc, fun hadmits hexec => ?huffDec, fun hadmits hexec => ?lzwEnc,
    fun hadmits hexec => ?lzwDec, fun hadmits hexec => ?arcFrame, fun hadmits hexec => ?arcUnframe⟩
  case huffEnc =>
    exact List.mem_singleton.1 (cause_mem_of_exec hbefore hafter hadmits hexec rfl (huffEncode_answers _ _))
  case huffDec => exact cause_mem_of_exec hbefore hafter hadmits hexec rfl (huffDecode_answers _ _)
  case lzwEnc =>
    exact List.mem_singleton.1 (cause_mem_of_exec hbefore hafter hadmits hexec rfl (lzwEncode_answers _ _))
  case lzwDec => exact cause_mem_of_exec hbefore hafter hadmits hexec rfl (lzwDecode_answers _ _)
  case arcFrame => exact cause_mem_of_exec hbefore hafter hadmits hexec rfl (arcFrame_answers _ _ _)
  case arcUnframe =>
    have hcause := cause_mem_of_exec hbefore hafter hadmits hexec rfl (arcUnframe_answers _ _)
    refine (List.mem_append.1 hcause).imp_right fun hseparator => ?_
    split at hseparator
    · next hcheck => exact ⟨List.mem_singleton.1 hseparator, hcheck⟩
    · cases hseparator

/-! ### Empty input (60_exceptions.md R319) -/

theorem State.input_eq_nil {s : State} {src : BufId} (h : s.len src = 0) : s.input src = [] :=
  List.eq_nil_of_length_eq_zero (by rw [State.input_length, h]; rfl)

theorem State.descriptors_eq_nil {s : State} (h : s.recCount = 0) : s.descriptors = [] :=
  List.eq_nil_of_length_eq_zero (by rw [State.descriptors_length, h]; rfl)

theorem huffEncode_nil (cap : Nat) : huffEncode cap [] = .ok [] := by
  rw [huffEncode, buildTrie_nil]
  rfl

/-- The stream of no byte is the terminator alone, which takes two bytes (42_lzw.md R237, R238). -/
theorem lzwEncode_nil {p : Params} (hp : p.Legal) :
    lzwEncode p [] =
      if 2 ≤ p.bufCap then .ok (packBits (natBits Config.R p.W)) else .error ⟨.outOverflow, 0⟩ := by
  obtain ⟨hlow, hhigh, -⟩ := hp
  have hstream : codewordBits p.W (lzwStream p []) = natBits Config.R p.W := by
    rw [lzwStream, lzwCodewords_nil, List.nil_append, codewordBits_singleton]
  have hbytes : (p.W + 7) / 8 = 2 := by omega
  rw [lzwEncode_eq, hstream, natBits_length, hbytes]

theorem arcFrame_nil (cap : Nat) (medium : List Byte) : arcFrame cap medium [] = .ok [] := rfl

theorem arcUnframe_nil (p : Params) : arcUnframe p [] = .ok [] := readRecords_of_isEmpty _ rfl

/-- Settles O28. -/
theorem emptyInputIsNotAFault : Obligations.EmptyInputIsNotAFault := by
  unfold Obligations.EmptyInputIsNotAFault
  intro s src dst hp hne hempty
  have hinput := State.input_eq_nil hempty
  have hlen : (s.len src).toNat ≤ s.cfg.bufCap := by rw [hempty]; exact Nat.zero_le _
  refine ⟨exec_huffEnc_completes hp hne hlen ?huffEnc, exec_huffDec_completes hp hne hlen ?huffDec,
    fun hroom => exec_lzwEnc_completes hp hne hlen ?lzwEnc, fun hone => exec_lzwEnc_faults hne hlen ?lzwEncFault,
    exec_lzwDec_faults hne hlen ?lzwDec, exec_arcUnframe_completes hp hlen ?arcUnframe,
    fun hnone => exec_arcFrame_completes hp hne hlen ?count ?arcFrame⟩
  case huffEnc => rw [hinput, huffEncode_nil]
  case huffDec => rw [hinput, huffDecode_nil]
  case lzwEnc => rw [hinput, lzwEncode_nil hp, if_pos hroom]
  case lzwEncFault => rw [hinput, lzwEncode_nil hp, if_neg (by omega)]
  case lzwDec =>
    obtain ⟨hwidth, -⟩ := hp
    exact lzwDecode_of_short (by rw [hinput, List.length_nil]; omega)
  case arcUnframe => rw [hinput, arcUnframe_nil]
  case count => rw [hnone]; exact Nat.zero_le _
  case arcFrame => rw [State.descriptors_eq_nil hnone, arcFrame_nil]

/-! ### Every step answers (log 13) -/

theorem State.engineMove_next (s : State) : ∃ t, s.engineMove = .next t := by
  unfold State.engineMove
  split
  · exact ⟨s, rfl⟩
  · split
    · next i _ =>
      obtain ⟨t, ht, -⟩ := exec_ended s i
      exact ⟨t, ht⟩
    · exact ⟨s.takeIllegal, rfl⟩

/-- Settles O7. -/
theorem everyStepAnswersANextState : Obligations.EveryStepAnswersANextState := by
  unfold Obligations.EveryStepAnswersANextState step State.event
  intro s
  split
  · exact s.engineMove_next
  · exact State.engineMove_next _
  · exact ⟨_, rfl⟩
  · split
    · exact s.engineMove_next
    · exact ⟨_, rfl⟩

/-! ### The interrupt output (60_exceptions.md R322) -/

theorem State.irq_iff (s : State) : s.irq = true ↔ s.ie = true ∧ (s.done = true ∨ s.fault = true) := by
  simp [State.irq]

theorem State.Ended.done_or_fault {s t : State} {i : Instr} (h : s.Ended i t) : t.done = true ∨ t.fault = true := by
  cases h with
  | illegal => exact .inr rfl
  | buffer => exact .inl rfl
  | records => exact .inl rfl
  | fault => exact .inr (s.takeFault_faultedBy _ _).fault

@[simp] theorem State.takeFault_ie (s : State) (o : Output) (f : CmdFault) : (s.takeFault o f).ie = s.ie := by
  cases o <;> rfl

theorem State.Ended.ie {s t : State} {i : Instr} (h : s.Ended i t) : t.ie = s.ie := by
  cases h with
  | illegal => rfl
  | buffer => rfl
  | records => rfl
  | fault => exact s.takeFault_ie _ _

/-- Whether a word is legal does not depend on what issue clears. -/
theorem State.legalWord_latch (s : State) (v u : Word) : (s.latch v).legalWord u = s.legalWord u := rfl

theorem State.issue_of_illegal {s : State} {v : Word} (h : s.legalWord v = false) :
    s.issue v = (s.latch v).takeIllegal := by
  rw [State.issue, State.legalWord_latch, h]
  rfl

theorem State.hostWrite_cmd_of_illegal {s : State} {v : Word} (hidle : s.phase = .idle) (h : s.legalWord v = false) :
    s.hostWrite 0x00000000 .four v = { (s.latch v).takeIllegal with reply := some .ok } := by
  rw [s.hostWrite_register v (by decide) (by decide), ← State.issue_of_illegal h]
  exact congrArg (fun t : State => { t with reply := some .ok }) (State.whileIdle_of_idle hidle _)

theorem State.hostWrite_irqEn (s : State) (v : Word) :
    s.hostWrite 0x0000000C .four v = { s with ie := v.getLsbD 0, reply := some .ok } :=
  s.hostWrite_register v (by decide) (by decide)

/-- Settles O20. -/
theorem interruptLevel : Obligations.InterruptLevel := by
  unfold Obligations.InterruptLevel
  refine ⟨State.irq_iff, fun s t i hexec hie => ?command, fun s v hidle hillegal hie => ?illegal,
    fun s hpending => ?enable⟩
  case command =>
    have hended := State.Ended.of_exec hexec
    exact t.irq_iff.2 ⟨hended.ie.trans hie, hended.done_or_fault⟩
  case illegal =>
    rw [State.hostWrite_cmd_of_illegal hidle hillegal]
    exact (State.irq_iff _).2 ⟨hie, .inr rfl⟩
  case enable =>
    rw [State.hostWrite_irqEn]
    exact (State.irq_iff _).2 ⟨rfl, hpending⟩

/-! ### A command that is not admitted (log 7) -/

theorem State.Ended.eq_takeIllegal {s t : State} {i : Instr} (h : s.Ended i t) (hrefused : s.admits i = false) :
    t = s.takeIllegal := by
  cases h with
  | illegal => rfl
  | buffer admitted => cases hrefused.symm.trans admitted
  | records admitted => cases hrefused.symm.trans admitted
  | fault admitted => cases hrefused.symm.trans admitted

/-- Settles O23. -/
theorem unadmittedCommandTakesIllegalCmd : Obligations.UnadmittedCommandTakesIllegalCmd := by
  unfold Obligations.UnadmittedCommandTakesIllegalCmd
  intro s i hrefused
  obtain ⟨t, hexec, hended⟩ := exec_ended s i
  exact ⟨t, hexec, hended.eq_takeIllegal hrefused ▸ s.takeIllegal_faultsIllegal⟩

end Sys2Proof.Machine
end

section
/-! SUPPORT. Reset and the idle block (70_reset_and_hazards.md R350 to R354): the state after reset, what asserting the reset
input leaves, and the engine's move while IDLE. -/

namespace Sys2Proof.Machine

/-! ### The move that is next (log 3) -/

theorem step_of_no_turns {s : State} (h : s.turns = []) : step s = s.engineMove := by
  rw [step, State.event, h]

theorem step_of_reset {s : State} {rest : List Turn} (h : s.turns = .reset :: rest) :
    step s = .next ({ s with turns := rest } : State).applyReset := by
  rw [step, State.event, h]

theorem State.engineMove_of_idle {s : State} (h : s.phase = .idle) : s.engineMove = .next s := by
  rw [State.engineMove, h]

/-- Settles O6. -/
theorem idleBlockDoesNothing : Obligations.IdleBlockDoesNothing := by
  unfold Obligations.IdleBlockDoesNothing
  intro s hidle hturns
  rw [step_of_no_turns hturns, State.engineMove_of_idle hidle]

/-! ### The state after reset (70_reset_and_hazards.md R350) -/

/-- The memories list nothing, and are filled by the draws 0, 1 and 2 of the three taken (log 4). -/
theorem State.reset_memOk : State.reset.MemOk :=
  (State.memOk_iff _).2 ⟨fun
    | .buf0 => Memory.okIn_empty _ (by decide)
    | .buf1 => Memory.okIn_empty _ (by decide), RecTable.okIn_empty _ (by decide)⟩

/-- Settles O8. -/
theorem resetMeetsTheInvariant : Obligations.ResetMeetsTheInvariant where
  params := show Params.reference.Legal by decide
  status := .of_clear rfl rfl rfl fun _ => rfl
  latch := .of_idle rfl
  mem := State.reset_memOk

/-! ### The reset input (70_reset_and_hazards.md R350 to R352) -/

/-- The table of R350: every register but those that read the parameters is 0. -/
theorem State.readReg_applyReset (s : State) {r : Reg} (h : r ∉ [.capBuf, .capRec, .cfg]) :
    s.applyReset.readReg r = 0 := by
  cases r with
  | status => exact State.statusWord_eq_zero rfl rfl rfl rfl
  | irqEn => exact State.irqEnWord_eq _
  | len k => cases k <;> rfl
  | cmd | faultPos | recCount | reserved => rfl
  | capBuf | capRec | cfg => exact absurd (by decide) h

theorem State.irq_applyReset (s : State) : s.applyReset.irq = false := rfl

/-- Settles O10. -/
theorem resetInputRestoresEveryRegister : Obligations.ResetInputRestoresEveryRegister := by
  unfold Obligations.ResetInputRestoresEveryRegister
  intro s rest hturns
  have hzero {r : Reg} (hr : r ∉ [.capBuf, .capRec, .cfg]) :
      ({ s with turns := rest } : State).applyReset.readReg r = 0 := State.readReg_applyReset _ hr
  refine ⟨_, step_of_reset hturns, State.applyReset_phase _, State.irq_applyReset _, State.applyReset_turns _,
    State.applyReset_cfg _, ?cmd, ?status, ?faultPos, ?irqEn, ?len0, ?len1, ?recCount, ?capBuf, ?capRec, ?cfg, ?reserved,
    ?buf0, ?buf1, ?recs⟩
  case cmd | status | faultPos | irqEn | len0 | len1 | recCount | reserved => exact hzero (by decide)
  case capBuf | capRec | cfg => rfl
  case buf0 | buf1 | recs => rfl

end Sys2Proof.Machine
end

section
/-! SUPPORT. Command words (30_encoding.md R100 to R107): the decoder and the encoder are inverse, which words are legal, and
what issue makes of a word. -/

namespace Sys2Proof.Machine

/-! ### The fields of a word (30_encoding.md R100 to R104) -/

theorem opField_toNat (v : Word) : (opField v).toNat = v.toNat % 16 := by
  simp [opField]

theorem reservedField_eq_zero_iff (v : Word) : reservedField v = 0 ↔ v.toNat / 64 = 0 := by
  have hlt := v.isLt
  rw [← BitVec.toNat_inj, reservedField, BitVec.extractLsb'_toNat, Nat.shiftRight_eq_div_pow]
  simp only [BitVec.ofNat_eq_ofNat, BitVec.toNat_ofNat]
  omega

/-- A word without reserved bits is the layout of its fields. -/
theorem eq_layOut_fields {v : Word} (hreserved : reservedField v = 0) {op : Nat} (hop : (opField v).toNat = op) :
    v = layOut (BitVec.ofNat 4 op) (bitOfBuf (srcField v)) (bitOfBuf (dstField v)) := by
  have hbit (b : Bool) : bitOfBuf (bufOfBit b) = BitVec.ofBool b := by cases b <;> rfl
  rw [← hop, BitVec.ofNat_toNat, BitVec.setWidth_eq, srcField, dstField, hbit, hbit, layOut]
  refine BitVec.eq_of_getLsbD_eq fun i hi => ?_
  simp only [BitVec.getLsbD_append, BitVec.getLsbD_ofBool, BitVec.getLsbD_zero, opField, BitVec.getLsbD_extractLsb']
  match i with
  | 0 | 1 | 2 | 3 => rfl
  | 4 => rfl
  | 5 => rfl
  | i + 6 =>
    have hbits := congrArg (fun w : BitVec 26 => w.getLsbD i) hreserved
    have hzero : v.getLsbD (i + 6) = false := by
      simpa [reservedField, Nat.add_comm, show i < 26 by omega] using hbits
    simp [hzero]

/-! ### Decoding and encoding (30_encoding.md R105) -/

theorem decode_encode (i : Instr) : decode (encode i) = .ok i := by
  cases i with
  | arcUnframe src => cases src <;> rfl
  | huffEnc src dst | huffDec src dst | lzwEnc src dst | lzwDec src dst | arcFrame src dst =>
    cases src <;> cases dst <;> rfl

theorem eq_encode_of_decode {v : Word} {i : Instr} (h : decode v = .ok i) : v = encode i := by
  unfold decode at h
  split at h
  · cases h
  · next hreserved =>
    have hlayout {op : Nat} := eq_layOut_fields (op := op) (not_not.1 hreserved)
    split at h
    case h_6 hop =>
      split at h
      · cases h
      · next hD =>
        cases h
        have hword := hlayout hop
        rwa [dstField, Bool.eq_false_of_not_eq_true hD] at hword
    case h_7 => cases h
    all_goals
      next hop =>
        cases h
        exact hlayout hop

/-- Settles O1. -/
theorem decodeAcceptsExactlyTheEncodings : Obligations.DecodeAcceptsExactlyTheEncodings := by
  unfold Obligations.DecodeAcceptsExactlyTheEncodings
  exact fun v i => ⟨eq_encode_of_decode, fun h => h ▸ decode_encode i⟩

/-- Settles O2: each word is the encoding of its command. -/
theorem exactWordsDecode : Obligations.ExactWordsDecode := by
  have hdecode {v : Word} {i : Instr} (h : v = encode i) : decode v = .ok i := h ▸ decode_encode i
  unfold Obligations.ExactWordsDecode
  exact ⟨hdecode rfl, hdecode rfl, hdecode rfl, hdecode rfl, hdecode rfl, hdecode rfl, hdecode rfl, hdecode rfl,
    hdecode rfl, hdecode rfl, hdecode rfl, hdecode rfl⟩

/-! ### Legal words (30_encoding.md R106) -/

/-- The decoder refuses a word exactly under R106 (a), (b) and (d). -/
theorem decode_eq_error_iff (v : Word) :
    (∃ e, decode v = .error e) ↔ v.toNat / 64 ≠ 0 ∨ (v.toNat % 16 = 0 ∨ 7 ≤ v.toNat % 16) ∨
      (v.toNat % 16 = 6 ∧ v.getLsbD 5 = true) := by
  rw [ne_eq, ← reservedField_eq_zero_iff, ← opField_toNat]
  unfold decode
  split
  · next hreserved => exact ⟨fun _ => .inl hreserved, fun _ => ⟨_, rfl⟩⟩
  · next hreserved =>
    have hnone := not_not.1 hreserved
    split
    case h_6 hop => cases hD : v.getLsbD 5 <;> simp [hop, hnone]
    case h_7 h1 h2 h3 h4 h5 h6 =>
      simp only [imp_false] at h1 h2 h3 h4 h5 h6
      exact ⟨fun _ => .inr (.inl (by omega)), fun _ => ⟨_, rfl⟩⟩
    all_goals next hop => simp [hop, hnone]

open Sys2Proof.Laws.EncodeLayout (opcode) in
/-- What R106 (c), (d), (e) and (f) read off the word of a command. -/
theorem encode_fields (i : Instr) :
    (encode i).toNat % 16 = opcode i ∧ srcField (encode i) = srcOf i ∧
      (i.wellFormed = false ↔ 1 ≤ opcode i ∧ opcode i ≤ 5 ∧ (encode i).getLsbD 4 = (encode i).getLsbD 5) ∧
      (readsRecords i = true ↔ opcode i = 5) := by
  cases i with
  | arcUnframe src => cases src <;> decide
  | huffEnc src dst | huffDec src dst | lzwEnc src dst | lzwDec src dst | arcFrame src dst =>
    cases src <;> cases dst <;> decide

theorem State.admits_eq_false_iff (s : State) (i : Instr) :
    s.admits i = false ↔ i.wellFormed = false ∨ s.cfg.bufCap < (s.len (srcOf i)).toNat ∨
      (readsRecords i = true ∧ s.cfg.recCap < s.recCount.toNat) := by
  rw [← Bool.not_eq_true, s.admits_iff]
  simp only [not_and_or, Bool.not_eq_true, Nat.not_le, Classical.not_imp]

theorem State.legalWord_of_decode {v : Word} {i : Instr} (h : decode v = .ok i) (s : State) :
    s.legalWord v = s.admits i := by
  rw [State.legalWord, h]

theorem State.legalWord_of_error {v : Word} {e : DecodeError} (h : decode v = .error e) (s : State) :
    s.legalWord v = false := by
  rw [State.legalWord, h]

theorem State.legalWord_eq_true_iff (s : State) (v : Word) :
    s.legalWord v = true ↔ ∃ i, v = encode i ∧ s.admits i = true := by
  constructor
  · intro h
    cases hdecode : decode v with
    | error e => cases (State.legalWord_of_error hdecode s).symm.trans h
    | ok i => exact ⟨i, eq_encode_of_decode hdecode, (State.legalWord_of_decode hdecode s).symm.trans h⟩
  · rintro ⟨i, rfl, hadmits⟩
    exact (State.legalWord_of_decode (decode_encode i) s).trans hadmits

/-- R106 (a), (b) and (d) are the decoder's to find, (c), (e) and (f) are found on the command it answers. -/
theorem State.legalWord_eq_false_iff (s : State) (v : Word) :
    s.legalWord v = false ↔
      v.toNat / 64 ≠ 0 ∨
      (v.toNat % 16 = 0 ∨ 7 ≤ v.toNat % 16) ∨
      (1 ≤ v.toNat % 16 ∧ v.toNat % 16 ≤ 5 ∧ v.getLsbD 4 = v.getLsbD 5) ∨
      (v.toNat % 16 = 6 ∧ v.getLsbD 5 = true) ∨
      s.cfg.bufCap < (s.len (srcField v)).toNat ∨
      (v.toNat % 16 = 5 ∧ s.cfg.recCap < s.recCount.toNat) := by
  have herror := decode_eq_error_iff v
  cases hdecode : decode v with
  | error e =>
    have hrefused := herror.1 ⟨e, hdecode⟩
    exact iff_of_true (State.legalWord_of_error hdecode s)
      (hrefused.imp_right (Or.imp_right fun hdestination => .inr (.inl hdestination)))
  | ok i =>
    obtain ⟨hreserved, hopcode, hdestination⟩ : _ ∧ _ ∧ _ := by
      simpa only [hdecode, reduceCtorEq, exists_false, false_iff, not_or (p := _ ≠ _), not_or (q := _ ∧ _)] using herror
    rw [State.legalWord_of_decode hdecode, State.admits_eq_false_iff]
    obtain rfl := eq_encode_of_decode hdecode
    obtain ⟨hop, hsrc, hwell, hrecords⟩ := encode_fields i
    simp only [hreserved, hopcode, hdestination, false_or]
    rw [hop, hsrc, hwell, hrecords]

/-- The commands of the 12 words of R105, in its order. -/
def wellFormedCommands : List Instr :=
  [.huffEnc .buf0 .buf1, .huffEnc .buf1 .buf0, .huffDec .buf0 .buf1, .huffDec .buf1 .buf0, .lzwEnc .buf0 .buf1,
    .lzwEnc .buf1 .buf0, .lzwDec .buf0 .buf1, .lzwDec .buf1 .buf0, .arcFrame .buf0 .buf1, .arcFrame .buf1 .buf0,
    .arcUnframe .buf0, .arcUnframe .buf1]

theorem mem_wellFormedCommands {i : Instr} (h : i.wellFormed = true) : i ∈ wellFormedCommands := by
  revert h
  cases i with
  | arcUnframe src => cases src <;> decide
  | huffEnc src dst | huffDec src dst | lzwEnc src dst | lzwDec src dst | arcFrame src dst =>
    cases src <;> cases dst <;> decide

theorem wellFormedCommands_words : wellFormedCommands.map encode = [0x21#32, 0x11#32, 0x22#32, 0x12#32, 0x23#32, 0x13#32,
    0x24#32, 0x14#32, 0x25#32, 0x15#32, 0x06#32, 0x16#32] := by
  decide

/-- Settles O3. -/
theorem illegalCommandWords : Obligations.IllegalCommandWords := by
  unfold Obligations.IllegalCommandWords
  refine fun s v => ⟨s.legalWord_eq_false_iff v, fun hlegal => ?listed, fun hidle hillegal => ?cause⟩
  case listed =>
    obtain ⟨i, rfl, hadmits⟩ := (s.legalWord_eq_true_iff v).1 hlegal
    obtain ⟨hwell, -⟩ := (s.admits_iff i).1 hadmits
    exact wellFormedCommands_words ▸ List.mem_map_of_mem (mem_wellFormedCommands hwell)
  case cause =>
    rw [State.hostWrite_cmd_of_illegal hidle hillegal]
    exact ⟨rfl, rfl⟩

/-! ### Issue (30_encoding.md R107) -/

theorem State.issue_of_legal {s : State} {v : Word} (h : s.legalWord v = true) :
    s.issue v = { s.latch v with phase := .busy } := by
  rw [State.issue, State.legalWord_latch, h]
  rfl

theorem State.hostWrite_cmd_of_legal {s : State} {v : Word} (hidle : s.phase = .idle) (h : s.legalWord v = true) :
    s.hostWrite 0x00000000 .four v = { s.latch v with phase := .busy, reply := some .ok } := by
  rw [s.hostWrite_register v (by decide) (by decide)]
  exact congrArg (fun t : State => { t with reply := some .ok })
    ((State.whileIdle_of_idle hidle _).trans (State.issue_of_legal h))

theorem State.latch_sameBuffer (s : State) (v : Word) (k : BufId) : SameBuffer s (s.latch v) k :=
  ⟨s.len_latch v k, fun _ => congrArg (Memory.read · _) (s.mem_latch v k)⟩

/-- Settles O4. -/
theorem issueOfACommandWord : Obligations.IssueOfACommandWord := by
  unfold Obligations.IssueOfACommandWord
  intro s v hidle
  dsimp only
  cases hlegal : s.legalWord v with
  | true =>
    rw [State.hostWrite_cmd_of_legal hidle hlegal]
    exact ⟨rfl, rfl, rfl, rfl, fun _ => ⟨rfl, rfl, rfl⟩, nofun, rfl, rfl, rfl, rfl, ⟨rfl, fun _ => rfl⟩,
      s.latch_sameBuffer v⟩
  | false =>
    rw [State.hostWrite_cmd_of_illegal hidle hlegal]
    exact ⟨rfl, rfl, rfl, rfl, nofun, fun _ => ⟨rfl, rfl, rfl⟩, rfl, rfl, rfl, rfl, ⟨rfl, fun _ => rfl⟩,
      s.latch_sameBuffer v⟩

end Sys2Proof.Machine
end

section
/-! SUPPORT. How every command ends, what it leaves, and what its outcome depends on (30_encoding.md R110 to R113,
60_exceptions.md R313, R315). -/

namespace Sys2Proof.Machine

/-! ### The end of a command (30_encoding.md R113) -/

theorem State.Ended.doneFrom_or_faultedBy {s t : State} {i : Instr} (h : s.Ended i t) :
    DoneFrom s t ∨ ∃ f, FaultedBy t f := by
  cases h with
  | illegal => exact .inr ⟨_, s.takeIllegal_faultsIllegal.status⟩
  | @buffer dst out => exact .inl (s.completeBuffer_doneFrom dst out)
  | @records ds => exact .inl (s.completeRecords_doneFrom ds)
  | @fault f => exact .inr ⟨f, s.takeFault_faultedBy _ f⟩

theorem State.Ended.phase {s t : State} {i : Instr} (h : s.Ended i t) : t.phase = .idle := by
  rcases h.doneFrom_or_faultedBy with hdone | ⟨f, hfaulted⟩
  · exact hdone.phase
  · exact hfaulted.phase

theorem State.Ended.done_iff {s t : State} {i : Instr} (h : s.Ended i t) (hfault : s.fault = false) :
    t.done = true ↔ t.fault = false := by
  rcases h.doneFrom_or_faultedBy with hdone | ⟨f, hfaulted⟩
  · exact iff_of_true hdone.done (hdone.fault.trans hfault)
  · simp [hfaulted.done, hfaulted.fault]

/-- Settles O21. -/
theorem commandsEndWithDoneOrFault : Obligations.CommandsEndWithDoneOrFault := by
  unfold Obligations.CommandsEndWithDoneOrFault
  intro s i hfault
  obtain ⟨t, hexec, hended⟩ := exec_ended s i
  exact ⟨t, hexec, hended.phase, hended.done_iff hfault⟩

/-! ### The frame of a command (30_encoding.md R110, 60_exceptions.md R315) -/

/-- Settles O25: in each way a command ends, what its predicate says it leaves. -/
theorem frameOfTheBufferCommands : Obligations.FrameOfTheBufferCommands := by
  unfold Obligations.FrameOfTheBufferCommands
  intro s t i dst hp houtput hexec
  cases State.Ended.of_exec hexec with
  | illegal =>
    have hillegal := s.takeIllegal_faultsIllegal
    exact ⟨hillegal.outside, hillegal.records, fun k _ => hillegal.buffers k, nofun⟩
  | @buffer dst' out _ houtput' _ hfits =>
    cases houtput.symm.trans houtput'
    have hcompletes := State.completeBuffer_completesWith_of_legal hp dst hfits
    refine ⟨hcompletes.outside, hcompletes.records, hcompletes.others, fun _ => ?_⟩
    rw [hcompletes.len]
    refine ⟨hfits, fun a ha => ?_⟩
    rw [hcompletes.bytes, List.getElem?_eq_none ha]
    rfl
  | records _ houtput' => cases houtput.symm.trans houtput'
  | @fault f =>
    have hfaults := s.takeFault_faultsBuffer dst f
    rw [houtput]
    exact ⟨hfaults.outside, hfaults.records, hfaults.others, fun hdone => by cases hfaults.status.done.symm.trans hdone⟩

theorem State.completeRecords_sameBuffer (s : State) (ds : List Descriptor) (k : BufId) :
    SameBuffer s (s.completeRecords ds) k :=
  ⟨s.len_completeRecords ds k, fun _ => congrArg (Memory.read · _) (s.mem_completeRecords ds k)⟩

/-- The descriptors written leave every word beyond them as it was. -/
theorem State.readWord_completeRecords_of_le (s : State) {ds : List Descriptor} {a : Nat} (h : 4 * ds.length ≤ a) :
    (s.completeRecords ds).recs.readWord a = s.recs.readWord a := by
  rw [State.completeRecords_recs, RecTable.readWord_writeDescs_of_out]
  omega

/-- Settles O26: in each way the command ends, what it leaves. -/
theorem frameOfArcUnframe : Obligations.FrameOfArcUnframe := by
  unfold Obligations.FrameOfArcUnframe
  intro s t src hp hexec
  cases State.Ended.of_exec hexec with
  | illegal =>
    have hillegal := s.takeIllegal_faultsIllegal
    exact ⟨hillegal.outside, hillegal.buffers, nofun⟩
  | buffer _ houtput => cases houtput
  | @records ds _ _ _ hfits =>
    obtain ⟨-, -, -, -, -, hrecCap⟩ := hp
    have hcount : (s.completeRecords ds).recCount.toNat = ds.length := by
      rw [State.completeRecords_recCount, BitVec.toNat_ofNat]
      omega
    refine ⟨⟨rfl, rfl, rfl, rfl, rfl⟩, s.completeRecords_sameBuffer ds, fun _ => ?_⟩
    rw [hcount]
    exact ⟨hfits, fun a => s.readWord_completeRecords_of_le⟩
  | @fault f =>
    have hfaults := s.takeFault_faultsRecords f
    exact ⟨hfaults.outside, hfaults.buffers, fun hdone => by cases hfaults.status.done.symm.trans hdone⟩

/-! ### What the outcome of a command depends on (30_encoding.md R111) -/

/-- The two states agree on what the command finds in STATUS and on its operands: the parameters, the source medium and, for
ARC_FRAME, the descriptors. -/
structure SameOperands (s u : State) (i : Instr) : Prop where
  cfg : u.cfg = s.cfg
  records : readsRecords i = true → u.recCount = s.recCount ∧
    ∀ j, j < s.recCount.toNat → u.recs.readDesc j = s.recs.readDesc j
  fault : u.fault = s.fault
  cause : u.cause = s.cause
  faultPos : u.faultPos = s.faultPos
  len : u.len (srcOf i) = s.len (srcOf i)
  bytes : ∀ a, a < (s.len (srcOf i)).toNat → u.byteAt (srcOf i) a = s.byteAt (srcOf i) a

theorem SameOperands.input {s u : State} {i : Instr} (h : SameOperands s u i) {src : BufId} (hsrc : srcOf i = src) :
    u.input src = s.input src := by
  subst hsrc
  rw [State.input, State.input, h.len]
  exact List.map_congr_left fun a ha => h.bytes a (List.mem_range.1 ha)

theorem SameOperands.descriptors {s u : State} {i : Instr} (h : SameOperands s u i) (hreads : readsRecords i = true) :
    u.descriptors = s.descriptors := by
  obtain ⟨hcount, hdescs⟩ := h.records hreads
  rw [State.descriptors, State.descriptors, hcount]
  exact List.map_congr_left fun j hj => hdescs j (List.mem_range.1 hj)

theorem SameOperands.admits {s u : State} {i : Instr} (h : SameOperands s u i) : u.admits i = s.admits i := by
  unfold State.admits
  cases hreads : readsRecords i with
  | false => rw [h.cfg, h.len]; rfl
  | true => rw [h.cfg, h.len, (h.records hreads).1]

/-- What one command makes of two states where it ends in the same way with the same output (compare `State.Ended`). -/
inductive EndAlike (s u : State) (i : Instr) : State → State → Prop where
  | illegal (refused : s.admits i = false) : EndAlike s u i s.takeIllegal u.takeIllegal
  | buffer {dst : BufId} {out : List Byte} (output : outputOf i = .buffer dst) (fits : out.length ≤ s.cfg.bufCap) :
      EndAlike s u i (s.completeBuffer dst out) (u.completeBuffer dst out)
  | records {ds : List Descriptor} (output : outputOf i = .records) (fits : ∀ d ∈ ds, d.Fits)
      (room : ds.length ≤ s.cfg.recCap) : EndAlike s u i (s.completeRecords ds) (u.completeRecords ds)
  | fault (f : CmdFault) : EndAlike s u i (s.takeFault (outputOf i) f) (u.takeFault (outputOf i) f)

/-- One pseudocode result ends a command alike in two states, where both accept it or both refuse it. -/
theorem State.runCommand_endAlike {α : Type} {s u : State} {i : Instr} {result : Except CmdFault α} {P : α → Prop}
    {cs : List Cause} {complete : State → α → State} (hadmits : u.admits i = s.admits i) (hresult : Answers result P cs)
    (hcomplete : ∀ out, P out → EndAlike s u i (complete s out) (complete u out)) :
    EndAlike s u i (s.runCommand i result complete) (u.runCommand i result complete) := by
  cases hs : s.admits i with
  | false =>
    rw [State.runCommand_illegal hs, State.runCommand_illegal (hadmits.trans hs)]
    exact .illegal hs
  | true =>
    cases result with
    | ok out =>
      rw [State.runCommand_ok hs rfl, State.runCommand_ok (hadmits.trans hs) rfl]
      exact hcomplete out hresult
    | error f =>
      rw [State.runCommand_error hs rfl, State.runCommand_error (hadmits.trans hs) rfl]
      exact .fault f

/-- `exec` takes two states that agree on the operands to the same end. -/
theorem exec_endAlike {s u : State} {i : Instr} (h : SameOperands s u i) :
    ∃ s' u', exec i s = .next s' ∧ exec i u = .next u' ∧ EndAlike s u i s' u' := by
  have hbuffer {dst : BufId} {result : Except CmdFault (List Byte)} {cs : List Cause} (houtput : outputOf i = .buffer dst)
      (hresult : Answers result (fun out => out.length ≤ s.cfg.bufCap) cs) :
      EndAlike s u i (s.runCommand i result (fun s out => s.completeBuffer dst out))
        (u.runCommand i result (fun s out => s.completeBuffer dst out)) :=
    State.runCommand_endAlike h.admits hresult fun _ => .buffer houtput
  cases i with
  | huffEnc src dst =>
    refine ⟨_, _, exec_huffEnc src dst s, ?_, hbuffer rfl (huffEncode_answers _ _)⟩
    rw [exec_huffEnc, h.cfg, h.input (src := src) rfl]
  | huffDec src dst =>
    refine ⟨_, _, exec_huffDec src dst s, ?_, hbuffer rfl (huffDecode_answers _ _)⟩
    rw [exec_huffDec, h.cfg, h.input (src := src) rfl]
  | lzwEnc src dst =>
    refine ⟨_, _, exec_lzwEnc src dst s, ?_, hbuffer rfl (lzwEncode_answers _ _)⟩
    rw [exec_lzwEnc, h.cfg, h.input (src := src) rfl]
  | lzwDec src dst =>
    refine ⟨_, _, exec_lzwDec src dst s, ?_, hbuffer rfl (lzwDecode_answers _ _)⟩
    rw [exec_lzwDec, h.cfg, h.input (src := src) rfl]
  | arcFrame src dst =>
    refine ⟨_, _, exec_arcFrame src dst s, ?_, hbuffer rfl (arcFrame_answers _ _ _)⟩
    rw [exec_arcFrame, h.cfg, h.input (src := src) rfl, h.descriptors rfl]
  | arcUnframe src =>
    have hlength : (s.input src).length < 2 ^ 32 := s.input_length src ▸ (s.len src).isLt
    refine ⟨_, _, exec_arcUnframe src s, ?_, State.runCommand_endAlike h.admits (arcUnframe_answers _ _)
      fun ds ⟨hroom, hinside⟩ => .records rfl (fun d hd => .of_inMedium (hinside d hd) hlength) hroom⟩
    rw [exec_arcUnframe, h.cfg, h.input (src := src) rfl]

theorem State.statusWord_congr {s t : State} (hphase : t.phase = s.phase) (hdone : t.done = s.done)
    (hfault : t.fault = s.fault) (hcause : t.cause = s.cause) : t.statusWord = s.statusWord := by
  rw [State.statusWord, State.statusWord, State.busy, State.busy, hphase, hdone, hfault, hcause]

/-- Two states that completed a command report the same, where they reported the same before. -/
theorem DoneFrom.reports_same {s s' u u' : State} (hs : DoneFrom s s') (hu : DoneFrom u u') (hfault : u.fault = s.fault)
    (hcause : u.cause = s.cause) (hpos : u.faultPos = s.faultPos) :
    u'.statusWord = s'.statusWord ∧ u'.faultPos = s'.faultPos :=
  ⟨State.statusWord_congr (hu.phase.trans hs.phase.symm) (hu.done.trans hs.done.symm)
    (hu.fault.trans (hfault.trans hs.fault.symm)) (hu.cause.trans (hcause.trans hs.cause.symm)),
    hu.faultPos.trans (hpos.trans hs.faultPos.symm)⟩

/-- Two states that entered the same fault report the same. -/
theorem FaultedBy.reports_same {s u : State} {f : CmdFault} (hs : FaultedBy s f) (hu : FaultedBy u f) :
    u.statusWord = s.statusWord ∧ u.faultPos = s.faultPos :=
  ⟨State.statusWord_congr (hu.phase.trans hs.phase.symm) (hu.done.trans hs.done.symm) (hu.fault.trans hs.fault.symm)
    (hu.cause.trans hs.cause.symm), hu.faultPos.trans hs.faultPos.symm⟩

theorem EndAlike.reports_same {s u s' u' : State} {i : Instr} (h : EndAlike s u i s' u') (hsame : SameOperands s u i) :
    u'.statusWord = s'.statusWord ∧ u'.faultPos = s'.faultPos := by
  cases h with
  | illegal => exact s.takeIllegal_faultsIllegal.status.reports_same u.takeIllegal_faultsIllegal.status
  | @buffer dst out =>
    exact (s.completeBuffer_doneFrom dst out).reports_same (u.completeBuffer_doneFrom dst out) hsame.fault hsame.cause
      hsame.faultPos
  | @records ds =>
    exact (s.completeRecords_doneFrom ds).reports_same (u.completeRecords_doneFrom ds) hsame.fault hsame.cause
      hsame.faultPos
  | fault f => exact (s.takeFault_faultedBy _ f).reports_same (u.takeFault_faultedBy _ f)

/-- The output in a buffer is the same, where the command completed. -/
theorem EndAlike.same_bytes {s u s' u' : State} {i : Instr} {dst : BufId} (h : EndAlike s u i s' u') (hp : s.cfg.Legal)
    (hcfg : u.cfg = s.cfg) (houtput : outputOf i = .buffer dst) (hdone : s'.done = true) :
    u'.len dst = s'.len dst ∧ ∀ a, a < (s'.len dst).toNat → u'.byteAt dst a = s'.byteAt dst a := by
  cases h with
  | illegal => cases hdone
  | @buffer dst' out houtput' hfits =>
    cases houtput.symm.trans houtput'
    have hs := State.completeBuffer_completesWith_of_legal hp dst hfits
    have hu := State.completeBuffer_completesWith_of_legal (hcfg ▸ hp : u.cfg.Legal) dst (hcfg ▸ hfits)
    refine ⟨BitVec.eq_of_toNat_eq (hu.len.trans hs.len.symm), fun a ha => ?_⟩
    rw [hs.len] at ha
    rw [hu.bytes, hs.bytes, List.getElem?_eq_getElem ha]
    rfl
  | records houtput' => cases houtput.symm.trans houtput'
  | fault f => cases (s.takeFault_faultedBy (outputOf i) f).done.symm.trans hdone

/-- The output in REC is the same; a command the block refuses leaves REC as it is (log 7). -/
theorem EndAlike.same_records {s u s' u' : State} {i : Instr} (h : EndAlike s u i s' u') (hp : s.cfg.Legal)
    (houtput : outputOf i = .records) (halike : s.admits i = true ∨ SameRecords s u) :
    u'.recCount = s'.recCount ∧ ∀ j, j < s'.recCount.toNat → u'.recs.readDesc j = s'.recs.readDesc j := by
  cases h with
  | illegal hrefused =>
    rcases halike with hadmits | ⟨hcount, hwords⟩
    · cases hrefused.symm.trans hadmits
    · exact ⟨hcount, fun j _ => RecTable.readDesc_congr fun k _ => hwords _⟩
  | buffer houtput' => cases houtput.symm.trans houtput'
  | @records ds _ hfits hroom =>
    obtain ⟨-, -, -, -, -, hrecCap⟩ := hp
    have hs := s.completeRecords_completesWith (by omega) hfits
    have hu := u.completeRecords_completesWith (by omega) hfits
    refine ⟨rfl, fun j hj => ?_⟩
    rw [hs.count] at hj
    exact (hu.listed j hj).trans (hs.listed j hj).symm
  | fault f =>
    rw [houtput]
    have hs := s.takeFault_faultsRecords f
    have hu := u.takeFault_faultsRecords f
    refine ⟨hu.count.trans hs.count.symm, fun j hj => ?_⟩
    rw [hs.count] at hj
    exact absurd hj (Nat.not_lt_zero j)

/-- Settles O27: the two runs end alike, and a common end reports the same and has the same output. -/
theorem outcomeDependsOnlyOnTheMedium : Obligations.OutcomeDependsOnlyOnTheMedium := by
  unfold Obligations.OutcomeDependsOnlyOnTheMedium
  intro s u s' u' i hp hcfg hrecords hfault hcause hpos hlen hbytes hexec hexec'
  have hsame : SameOperands s u i := ⟨hcfg, hrecords, hfault, hcause, hpos, hlen, hbytes⟩
  obtain ⟨_, _, hs, hu, halike⟩ := exec_endAlike hsame
  cases hs.symm.trans hexec
  cases hu.symm.trans hexec'
  obtain ⟨hstatus, hpos'⟩ := halike.reports_same hsame
  exact ⟨hstatus, hpos', fun dst => halike.same_bytes hp hcfg, halike.same_records hp⟩

end Sys2Proof.Machine
end

section
/-! SUPPORT. The reader against the writer (40_bitstream.md R137, R154): a read takes the next bits, and reads back the fields
that were written. -/

namespace Sys2Proof.Machine

/-! ### One read (40_bitstream.md R137) -/

/-- Settles O29. -/
theorem readBitsTakesTheNextBits : Obligations.ReadBitsTakesTheNextBits := by
  unfold Obligations.ReadBitsTakesTheNextBits
  intro r w
  have hleft : 8 * r.medium.length - r.pos = r.rest.length := r.bitsLeft_eq
  rw [hleft]
  exact ⟨Reader.readBits_of_short, fun hfits => (r.readBits_eq w).trans (if_pos hfits)⟩

/-! ### Runs of fields (40_bitstream.md R154) -/

/-- The bits of the fields, in the order they are written. -/
def fieldBits (fields : List (Nat × Nat)) : List Bool := fields.flatMap fun f => natBits f.1 f.2

theorem fieldBits_cons (f : Nat × Nat) (fields : List (Nat × Nat)) :
    fieldBits (f :: fields) = natBits f.1 f.2 ++ fieldBits fields := rfl

theorem fieldBits_length (fields : List (Nat × Nat)) : (fieldBits fields).length = (fields.map (·.2)).sum := by
  simp [fieldBits, List.length_flatMap]

theorem writeFields_eq (fields : List (Nat × Nat)) (w : Writer) : writeFields fields w = w.writeCode (fieldBits fields) := by
  induction fields generalizing w with
  | nil => rfl
  | cons f rest ih =>
    rw [writeFields, fieldBits_cons, Writer.writeCode_append, Writer.writeBits_eq]
    exact congrArg (w.writeCode (natBits f.1 f.2)).bind (funext ih)

/-- Reads of the widths written answer the values, each modulo its width, and stop after the fields. -/
theorem readFields_of_rest (fields : List (Nat × Nat)) {r : Reader} {more : List Bool}
    (h : r.rest = fieldBits fields ++ more) :
    readFields (fields.map (·.2)) r =
      .ok (fields.map (fun f => f.1 % 2 ^ f.2), r.skip (fieldBits fields).length) := by
  induction fields generalizing r with
  | nil => rfl
  | cons f rest ih =>
    rw [fieldBits_cons, List.append_assoc] at h
    have hrest := ih (Reader.rest_skip_of_rest h)
    rw [List.map_cons, readFields, Reader.readBits_of_rest h]
    simp only [bind, Except.bind, hrest, Reader.skip_skip, fieldBits_cons, List.length_append, natBits_length]
    rfl

/-! ### The end of a packed stream (40_bitstream.md R152) -/

/-- A bit of a packed stream after the bits that were packed is padding. -/
theorem bitAt_of_packed {bits : List Bool} {r : Reader} (hmedium : r.medium = packBits bits) {k : Nat}
    (hk : bits.length ≤ k) (hend : k < 8 * (packBits bits).length) : r.bitAt k = false := by
  have hbit : (mediumBits (packBits bits))[k]? = some (r.bitAt k) := by
    rw [mediumBits_getElem? _ hend, ← hmedium]
    rfl
  rw [mediumBits_packBits, List.getElem?_append_right hk] at hbit
  exact List.eq_of_mem_replicate (List.mem_of_getElem? hbit)

/-- Settles O30: the stored bytes are the fields' bits and their padding (`mediumBits_packBits`). -/
theorem readerMirrorsWriter : Obligations.ReaderMirrorsWriter := by
  unfold Obligations.ReaderMirrorsWriter
  intro cap fields out _ hwrite
  rw [writeFields_eq, Writer.run_eq] at hwrite
  split at hwrite
  · cases hwrite
    have hmedium := mediumBits_packBits (fieldBits fields)
    refine ⟨_, readFields_of_rest fields hmedium, ?left, fun k hk => bitAt_of_packed rfl ?after⟩
    case left =>
      rw [Reader.bitsLeft_eq, Reader.rest_skip, Reader.opened_rest, hmedium, List.drop_left, List.length_replicate,
        fieldBits_length]
    case after => simpa [Reader.opened] using hk
  · cases hwrite

end Sys2Proof.Machine
end

section
/-! SUPPORT. The moves of the engine and the host (20_memory.md R83, 30_encoding.md R109 to R114): what a step does with the
move that is next, how WAIT ends, and what CHECK leaves. -/

namespace Sys2Proof.Machine

/-! ### The move that is next (log 3) -/

theorem step_of_engine {s : State} {rest : List Turn} (h : s.turns = .engine :: rest) :
    step s = ({ s with turns := rest } : State).engineMove := by
  rw [step, State.event, h]

theorem step_of_host {s : State} {op : HostOp} {rest : List Turn} (h : s.turns = .host op :: rest)
    (hready : waitsForEngine s op = false) : step s = .next (s.hostMove op rest) := by
  simp only [step, State.event, h, hready, Bool.false_eq_true, if_false]

theorem step_of_waiting {s : State} {op : HostOp} {rest : List Turn} (h : s.turns = .host op :: rest)
    (hwaits : waitsForEngine s op = true) : step s = s.engineMove := by
  simp only [step, State.event, h, hwaits, if_true]

/-- While BUSY the engine's move is the latched command (30_encoding.md R109). -/
theorem State.engineMove_of_busy {s : State} {i : Instr} (hbusy : s.phase = .busy) (hlatched : decode s.cmd = .ok i) :
    s.engineMove = exec i s := by
  simp only [State.engineMove, hbusy, State.latched, hlatched]

/-- Settles O5. -/
theorem stepRunsTheLatchedCommand : Obligations.StepRunsTheLatchedCommand := by
  unfold Obligations.StepRunsTheLatchedCommand
  refine ⟨fun s i hbusy hlatched => ⟨fun hnone => ?none, fun rest hengine => ?engine⟩,
    fun s addr size rest => ⟨fun data hwrite => ?write, fun hread => ?read⟩⟩
  case none => rw [step_of_no_turns hnone, State.engineMove_of_busy hbusy hlatched]
  case engine =>
    rw [step_of_engine hengine]
    exact State.engineMove_of_busy hbusy hlatched
  case write => exact step_of_host hwrite rfl
  case read => exact step_of_host hread rfl

/-! ### Reading STATUS (30_encoding.md R113, R114) -/

theorem State.loadStatus_eq (s : State) : s.loadStatus = { s with reply := some (.word s.statusWord) } :=
  s.hostRead_register (by decide) (by decide)

theorem State.busy_of_phase {s : State} (h : s.phase = .busy) : s.busy = true := by
  rw [State.busy, h]
  rfl

theorem State.not_busy_of_phase {s : State} (h : s.phase = .idle) : s.busy = false := by
  rw [State.busy, h]
  rfl

theorem core_run_succ {s t : State} (h : step s = .next t) (k : Nat) :
    Sys2Proof.core.run (k + 1) s = Sys2Proof.core.run k t := by
  have hstep : Sys2Proof.core.step s = .next t := h
  simp only [Host.Core.run, hstep]

/-! ### WAIT (30_encoding.md R113) -/

/-- While BUSY, WAIT with a poll left uses it up. -/
theorem step_of_wait_poll {s : State} {polls : Nat} {rest : List Turn} (hbusy : s.phase = .busy)
    (h : s.turns = .host (.wait (polls + 1)) :: rest) :
    step s = .next { s with turns := .host (.wait polls) :: rest, reply := some (.word s.statusWord) } := by
  rw [step_of_host h rfl, State.hostMove, State.busy_of_phase hbusy, if_pos rfl, State.loadStatus_eq]
  rfl

/-- While BUSY, WAIT without a poll left lets the engine move, and stays (log 9). -/
theorem step_of_wait_engine {s : State} {rest : List Turn} (hbusy : s.phase = .busy)
    (h : s.turns = .host (.wait 0) :: rest) : step s = s.engineMove :=
  step_of_waiting h (State.busy_of_phase hbusy)

/-- While IDLE, WAIT ends with the read of STATUS. -/
theorem step_of_wait_idle {s : State} {rest : List Turn} (hidle : s.phase = .idle)
    (h : s.turns = .host (.wait 0) :: rest) :
    step s = .next { s with turns := rest, reply := some (.word s.statusWord) } := by
  have hbusy := State.not_busy_of_phase hidle
  rw [step_of_host h hbusy, State.hostMove, hbusy, if_neg (by decide), State.loadStatus_eq]
  rfl

/-- The invariant has a command latched while BUSY, and the engine's move ends it. -/
theorem State.Inv.engineMove_ended {s : State} (h : s.Inv) (hbusy : s.phase = .busy) :
    ∃ i t, s.engineMove = .next t ∧ s.Ended i t := by
  obtain ⟨i, hword, -⟩ := (s.legalWord_eq_true_iff s.cmd).1 (h.latch hbusy)
  obtain ⟨t, hexec, hended⟩ := exec_ended s i
  exact ⟨i, t, (State.engineMove_of_busy hbusy (hword ▸ decode_encode i)).trans hexec, hended⟩

theorem State.Ended.turns {s t : State} {i : Instr} (h : s.Ended i t) : t.turns = s.turns := by
  cases h with
  | illegal => rfl
  | buffer => rfl
  | records => rfl
  | fault => cases outputOf i <;> rfl

/-- Settles O59, by induction on the polls left: each is one step, then the engine moves and WAIT reads STATUS once more. -/
theorem waitEndsAfterTheCommand : Obligations.WaitEndsAfterTheCommand := by
  unfold Obligations.WaitEndsAfterTheCommand
  intro s polls rest hinv hbusy hturns
  induction polls generalizing s with
  | zero =>
    obtain ⟨i, t, hmove, hended⟩ := hinv.engineMove_ended hbusy
    have hcommand := (step_of_wait_engine hbusy hturns).trans hmove
    have hread := step_of_wait_idle hended.phase (hended.turns.trans hturns)
    refine ⟨{ t with turns := rest, reply := some (.word t.statusWord) }, ?_, rfl, hended.phase,
      hended.done_iff (hinv.status.fault_of_busy hbusy), rfl⟩
    rw [core_run_succ hcommand, core_run_succ hread]
    rfl
  | succ polls ih =>
    rw [core_run_succ (step_of_wait_poll hbusy hturns)]
    exact ih _ ((hinv.withTurns (.host (.wait polls) :: rest)).withReply (some (.word s.statusWord))) hbusy rfl

/-! ### CHECK (30_encoding.md R114) -/

theorem dropHost_mem {turns : List Turn} {m : Turn} (h : m ∈ dropHost turns) : m = .engine ∨ m = .reset := by
  induction turns with
  | nil => cases h
  | cons turn rest ih =>
    cases turn with
    | host op => exact ih h
    | engine => exact (List.mem_cons.1 h).elim .inl ih
    | reset => exact (List.mem_cons.1 h).elim .inr ih

/-- CHECK reads STATUS, and changes nothing else but the moves to come. -/
theorem step_of_check {s : State} {rest : List Turn} (h : s.turns = .host .check :: rest) :
    step s = .next { s with
      turns := if s.fault then dropHost rest else rest
      reply := some (.word s.statusWord) } := by
  rw [step_of_host h rfl, State.hostMove]
  split <;> rw [State.loadStatus_eq] <;> rfl

/-- Settles O60. -/
theorem checkStopsTheProgramOnAFault : Obligations.CheckStopsTheProgramOnAFault := by
  unfold Obligations.CheckStopsTheProgramOnAFault
  intro s rest hturns
  refine ⟨_, step_of_check hturns, rfl, fun hfault => ?goesOn, fun hfault m hm => ?stops, rfl, rfl, rfl, rfl, rfl,
    ⟨rfl, fun _ => rfl⟩, fun k => ?buffers⟩
  case goesOn => exact if_neg (by simp [hfault])
  case stops =>
    rw [hfault] at hm
    exact dropHost_mem hm
  case buffers => cases k <;> exact ⟨rfl, fun _ => rfl⟩

end Sys2Proof.Machine
end
